-- ==== Sys2Proof/Word.lean ====
section
/-! DEFINITION. The word types of CORE (spec R11: every value is an unsigned integer of a stated width, or a natural number)
and the widths among the fixed parameters (R7), which the types are built from. -/

namespace Sys2Proof

/-- MASK_BITS (R7): the width of an Occurrence Mask. -/
@[simp] abbrev Config.maskBits : Nat := 32
/-- SIZE_BITS (R7): the width of the Sliding-Window uncompressed-size header. -/
@[simp] abbrev Config.sizeBits : Nat := 16
/-- OFF_BITS (R7): the width of a token's window offset. -/
@[simp] abbrev Config.offBits : Nat := 12
/-- LEN_BITS (R7): the width of a token's (length − 3) field. -/
@[simp] abbrev Config.lenBits : Nat := 4

/-- An 8-bit value: a stream byte, a byte of a memory, an 8-bit register (R11). -/
abbrev Byte := BitVec 8

/-- A 32-bit Occurrence Mask; its MSB-first position `i` (`BitVec.getMsbD i`) is Chunk slot `i` (R10, R72). -/
abbrev Mask := BitVec Config.maskBits

/-- A position in the History Window, and its cursor (R34: 12 bits). -/
abbrev WinPos := BitVec Config.offBits

end Sys2Proof
end

