-- ==== Sys2Proof/Config.lean ====
section
/-! DEFINITION. The parameters of CORE: the fixed ones (R7) as named constants, the open ones (R9) as a record whose
value nothing in Lean can evaluate, and the free values of unspecified memory bytes (R31-R33, R42, R230). -/

namespace Sys2Proof

/-! The fixed parameters (R7) other than the widths of Word.lean, values as the source states them (93 I1, D30). -/

/-- CHUNK_LEN (R7): bytes per Run/Mask Chunk. -/
@[simp] abbrev Config.chunkLen : Nat := 32
/-- CAND_MIN (R7, R103): a byte value is a Candidate when it occurs at least this often in a Chunk. -/
@[simp] abbrev Config.candMin : Nat := 6
/-- RM_TERM (R7, R74): the Run/Mask terminator byte. -/
@[simp] abbrev Config.rmTerm : Byte := 0xFF#8
/-- WIN_SIZE (R7, R140): the History Window's capacity. -/
@[simp] abbrev Config.winSize : Nat := 4096
/-- WIN_CURSOR0 (R7, R59): the History Window's initial write cursor. -/
@[simp] abbrev Config.winCursor0 : WinPos := 0xFEE#12
/-- MIN_MATCH (R7): the minimum match length. -/
@[simp] abbrev Config.minMatch : Nat := 3
/-- MAX_MATCH (R7): the maximum match length. -/
@[simp] abbrev Config.maxMatch : Nat := 18
/-- GROUP_TOKENS (R7): tokens per flag byte. -/
@[simp] abbrev Config.groupTokens : Nat := 8
/-- The largest uncompressed size a Sliding-Window stream can declare (R8, R161). -/
@[simp] abbrev Config.maxRaw : Nat := 65535
/-- NAME_CAP (R9, R33): the capacity of the identifier memory. -/
@[simp] abbrev Config.nameCap : Nat := 255

/-- SW_TIE (R9, R164): which of several equally long matches the encoder takes. -/
inductive Config.Tie where
  /-- BACKWARD_LAST: the one scanned last. -/
  | backwardLast
  /-- BACKWARD_FIRST: the one scanned first. -/
  | backwardFirst
  deriving DecidableEq, Repr, Inhabited

/-- The default of SW_TIE (R9, D9): the value of a CORE that names no other. -/
def Config.defaultTie : Config.Tie := .backwardLast

/-- An algorithm identifier: a byte string that is not empty (R201), held as its first byte and the rest. -/
structure Config.Name where
  /-- The first byte. -/
  first : Byte
  /-- The remaining bytes. -/
  rest : List Byte
  deriving DecidableEq, Repr, Inhabited

/-- The identifier as a byte sequence. -/
def Config.Name.bytes (n : Config.Name) : List Byte := n.first :: n.rest

/-- The open parameters of R9. -/
structure Config.Params where
  /-- HIST_FILL (D5). -/
  histFill : Byte
  /-- NAME_RM (D6). -/
  nameRm : Config.Name
  /-- NAME_SW_A (D6). -/
  nameSwA : Config.Name
  /-- NAME_SW_B (D6). -/
  nameSwB : Config.Name
  /-- SW_TIE (D9), by default BACKWARD_LAST (R9). -/
  swTie : Config.Tie := Config.defaultTie
  /-- SRC_CAP (D17). -/
  srcCap : Nat
  /-- OUT_CAP (D17). -/
  outCap : Nat
  /-- AW (D17): the width of the length and position registers. -/
  aw : Nat
  deriving DecidableEq, Repr

/-- The 7 bytes "UNKNOWN" (R207), which no registry entry may equal (R201). -/
def Config.unknownName : List Byte := [0x55, 0x4E, 0x4B, 0x4E, 0x4F, 0x57, 0x4E]

/-- What R201 requires of one identifier: at most 255 bytes, not "UNKNOWN" (it is not empty by construction). -/
def Config.Name.legal (n : Config.Name) : Bool :=
  decide (n.bytes.length ≤ Config.nameCap) && decide (n.bytes ≠ Config.unknownName)

/-- What R9 and R201 require of the open parameters. -/
def Config.Params.legal (p : Config.Params) : Bool :=
  p.nameRm.legal && p.nameSwA.legal && p.nameSwB.legal &&
  decide (p.nameRm ≠ p.nameSwA) && decide (p.nameRm ≠ p.nameSwB) && decide (p.nameSwA ≠ p.nameSwB) &&
  decide (1 ≤ p.srcCap) && decide (1 ≤ p.outCap) && decide (max p.srcCap p.outCap < 2 ^ p.aw)

/-- Parameters together with the proof that they are legal. The defaults serve only to show Lean that the type has an
element; no value of `Config.legalParams` can be proved from them. -/
structure Config.LegalParams where
  /-- The parameters. -/
  params : Config.Params :=
    { histFill := 0, nameRm := ⟨0, []⟩, nameSwA := ⟨1, []⟩, nameSwB := ⟨2, []⟩,
      srcCap := 1, outCap := 1, aw := 1 }
  /-- They are legal (R9, R201). -/
  isLegal : params.legal = true := by decide
  deriving Inhabited

/-- The parameters of this CORE: some legal choice, about which nothing else is known (R9; log 1). -/
opaque Config.legalParams : Config.LegalParams

/-- The open parameters this CORE was built with (log 1). -/
def Config.params : Config.Params := Config.legalParams.params

/-- The host-visible memories whose contents the spec leaves unspecified in places (R42, I6, I7). -/
inductive Config.Space where
  /-- The source memory (R31). -/
  | src
  /-- The output memory (R32). -/
  | out
  /-- The identifier memory (R33). -/
  | name
  deriving DecidableEq, Repr

/-- The FREE VALUE an unspecified byte of a memory reads as (R31-R33, R230, I6, I7: "any value"). It is applied to a
plain counter of State, the memory and the address; nothing constrains it (log 2, log 3). -/
opaque Config.unspecifiedByte : Nat → Config.Space → Nat → Byte

end Sys2Proof
end

