-- ==== Sys2Proof/Syntax.lean ====
section
/-! DEFINITION. The instructions of CORE: one constructor per row of spec/opcode_table.json (R86, R90, R91). -/

namespace Sys2Proof

/-- The instruction set in the sense of R2: the elements of the two wire formats, the host commands, and the operations
of the internal history port. -/
inductive Instr where
  /-- RM.CHAIN (R121): a COUNT byte `c` other than 0xFF. -/
  | rmChain (c : Byte)
  /-- RM.ENTRY (R122): a byte value and its 32-bit Occurrence Mask. -/
  | rmEntry (v : Byte) (m : Mask)
  /-- RM.LIT (R124): one literal byte of a chain. -/
  | rmLit (b : Byte)
  /-- RM.TERM (R126): the byte 0xFF at a COUNT position. -/
  | rmTerm
  /-- SW.HDR (R181): the 16-bit uncompressed size. -/
  | swHdr (size : BitVec Config.sizeBits)
  /-- SW.FLAGS (R182): a flag byte, bit `j` describing token `j` of the group. -/
  | swFlags (f : Byte)
  /-- SW.LIT (R183): a literal token. -/
  | swLit (b : Byte)
  /-- SW.MATCH (R184): a match token with its absolute window position OFF and its length LEN (R80, R81). -/
  | swMatch (off : WinPos) (len : Nat)
  /-- CMD.NOP (R211). -/
  | cmdNop
  /-- CMD.SELECT (R200). -/
  | cmdSelect
  /-- CMD.ENCODE (R212). -/
  | cmdEncode
  /-- CMD.DECODE (R213). -/
  | cmdDecode
  /-- HIST.SEED (R141): fill byte and initial cursor. -/
  | histSeed (fill : Byte) (cursor : WinPos)
  /-- HIST.PUSH (R142). -/
  | histPush (data : Byte)
  /-- HIST.READ (R143). -/
  | histRead (addr : WinPos)
  deriving DecidableEq, Repr

end Sys2Proof
end

