-- ==== Sys2Proof/WellFormed.lean ====
section
/-! DEFINITION. Which instructions are well formed: the operand values that have an encoding. -/

namespace Sys2Proof

/-- An instruction is well formed when some encoding of the spec stands for it: a chain's COUNT is not the terminator
0xFF (R71, R74), and a match length is one of 3..18, the values the 4-bit field can name (R80). Every other operand
type holds exactly the values its field holds. -/
def Instr.WellFormed : Instr → Bool
  | .rmChain c => c != Config.rmTerm
  | .rmEntry _ _ => true
  | .rmLit _ => true
  | .rmTerm => true
  | .swHdr _ => true
  | .swFlags _ => true
  | .swLit _ => true
  | .swMatch _ len => decide (Config.minMatch ≤ len) && decide (len ≤ Config.maxMatch)
  | .cmdNop => true
  | .cmdSelect => true
  | .cmdEncode => true
  | .cmdDecode => true
  | .histSeed _ _ => true
  | .histPush _ => true
  | .histRead _ => true

end Sys2Proof
end

