-- ==== Sys2Proof/Decode.lean ====
section
/-! DEFINITION. Decoding, total on any bytes and rejecting by name, and the encoder, both from the encodings of
30_encoding.md (R70-R91). The role of a byte is fixed by its position in the grammar (R74, R83, R86), so the decoder
takes the position as an argument. -/

namespace Sys2Proof

/-- Where a byte stands: the position that selects its meaning (R74, R83, R86, R90, R91). -/
inductive Position where
  /-- The CMD register (R90). -/
  | command
  /-- A COUNT position of a Run/Mask stream (R86). -/
  | rmCount
  /-- An entry of a Run/Mask chain (R71). -/
  | rmEntry
  /-- A literal of a Run/Mask chain (R71, R73). -/
  | rmLit
  /-- The header of a Sliding-Window stream (R77). -/
  | swHdr
  /-- The flag byte of a Sliding-Window group (R78). -/
  | swFlags
  /-- A token whose flag bit is 1 (R79). -/
  | swLit
  /-- A token whose flag bit is 0 (R80). -/
  | swMatch
  /-- The internal history port (R91). -/
  | histPort
  deriving DecidableEq, Repr

/-- Why a decode is rejected. -/
inductive Reject where
  /-- Fewer bytes than the element occupies (R55, R84). -/
  | tooShort
  /-- A reserved CMD value (R90): the machine answers ILLEGAL_COMMAND (R225). -/
  | reservedCommand
  /-- The reserved history-port operation 11 (R91). -/
  | reservedPortOp
  deriving DecidableEq, Repr

/-- One request at the internal history port: the 2-bit operation code and its operand lines (R91; that SEED's fill and
PUSH's data share the 8-bit lines and SEED's cursor and READ's address the 12-bit lines is DESIGN CHOICE, log 6). -/
structure PortReq where
  /-- HOP, the operation code. -/
  hop : BitVec 2
  /-- SEED's fill byte or PUSH's data byte. -/
  data : Byte
  /-- SEED's cursor or READ's address. -/
  addr : WinPos
  deriving DecidableEq, Repr

/-- How many bytes an element at a position occupies (R84, R85; a port request takes 3 bytes in the packing of
`PortReq.ofBytes`). -/
def Position.width : Position → Nat
  | .command => 1
  | .rmCount => 1
  | .rmEntry => 5
  | .rmLit => 1
  | .swHdr => 2
  | .swFlags => 1
  | .swLit => 1
  | .swMatch => 2
  | .histPort => 3

/-- A 16-bit big-endian value from its two bytes (R50, R51). -/
def be16 (b0 b1 : Byte) : BitVec 16 := b0 ++ b1

/-- A 32-bit big-endian value from its four bytes (R50, R51). -/
def be32 (b0 b1 b2 b3 : Byte) : BitVec 32 := be16 b0 b1 ++ be16 b2 b3

/-- The bytes of a 16-bit value, most significant first (R52). -/
def bytes16 (v : BitVec 16) : List Byte := [v.extractLsb' 8 8, v.extractLsb' 0 8]

/-- The bytes of a 32-bit value, most significant first (R52). -/
def bytes32 (v : BitVec 32) : List Byte :=
  [v.extractLsb' 24 8, v.extractLsb' 16 8, v.extractLsb' 8 8, v.extractLsb' 0 8]

/-- LEN of a match token (R80): `(token & 0xF) + 3`. -/
def tokenLen (t : BitVec 16) : Nat := (t.extractLsb' 0 Config.lenBits).toNat + Config.minMatch

/-- OFF of a match token (R80): `((token & 0xF0) << 4) | (token >> 8)`, that is T[7:4] above T[15:8]. -/
def tokenOff (t : BitVec 16) : WinPos := t.extractLsb' 4 4 ++ t.extractLsb' 8 8

/-- The match token of an offset and a length (R80, inverse of the decoder's formulas):
`B0 = OFF[7:0]`, `B1 = (OFF[11:8] << 4) | (LEN − 3)`. -/
def tokenOf (off : WinPos) (len : Nat) : BitVec 16 :=
  be16 (off.extractLsb' 0 8) (off.extractLsb' 8 4 ++ BitVec.ofNat Config.lenBits (len - Config.minMatch))

/-- The command a CMD byte issues (R23, R90). -/
def decodeCommand (v : Byte) : Except Reject Instr :=
  if v = 0x00#8 then .ok .cmdNop
  else if v = 0x01#8 then .ok .cmdSelect
  else if v = 0x02#8 then .ok .cmdEncode
  else if v = 0x03#8 then .ok .cmdDecode
  else .error .reservedCommand

/-- The history-port operation of a request (R91): 00 SEED, 01 PUSH, 10 READ, 11 reserved. -/
def decodePort (r : PortReq) : Except Reject Instr :=
  if r.hop = 0b00#2 then .ok (.histSeed r.data r.addr)
  else if r.hop = 0b01#2 then .ok (.histPush r.data)
  else if r.hop = 0b10#2 then .ok (.histRead r.addr)
  else .error .reservedPortOp

/-- A port request from 3 bytes, bit 0 the least significant bit of the first: HOP in bits 1..0, the 8-bit lines in bits
9..2, the 12-bit lines in bits 21..10 (DESIGN CHOICE, log 6). -/
def PortReq.ofBytes (b0 b1 b2 : Byte) : PortReq :=
  let w : BitVec 24 := b2 ++ (b1 ++ b0)
  { hop := w.extractLsb' 0 2, data := w.extractLsb' 2 8, addr := w.extractLsb' 10 12 }

/-- The 3 bytes of a port request, the two spare bits 0 (the packing of `PortReq.ofBytes`, log 6). -/
def PortReq.toBytes (r : PortReq) : List Byte :=
  let w : BitVec 24 := (0#2 ++ r.addr) ++ (r.data ++ r.hop)
  [w.extractLsb' 0 8, w.extractLsb' 8 8, w.extractLsb' 16 8]

/-- The instruction the bytes at a position begin with, and the bytes after it (R70-R91). Total: every byte sequence is
decoded or rejected by name. At the stream positions only a lack of bytes is rejected (R87, R88). -/
def decode : Position → List Byte → Except Reject (Instr × List Byte)
  | .command, v :: rest => (decodeCommand v).map (·, rest)
  | .rmCount, c :: rest => .ok (if c = Config.rmTerm then .rmTerm else .rmChain c, rest)
  | .rmEntry, v :: m0 :: m1 :: m2 :: m3 :: rest => .ok (.rmEntry v (be32 m0 m1 m2 m3), rest)
  | .rmLit, b :: rest => .ok (.rmLit b, rest)
  | .swHdr, b0 :: b1 :: rest => .ok (.swHdr (be16 b0 b1), rest)
  | .swFlags, f :: rest => .ok (.swFlags f, rest)
  | .swLit, b :: rest => .ok (.swLit b, rest)
  | .swMatch, b0 :: b1 :: rest => .ok (.swMatch (tokenOff (be16 b0 b1)) (tokenLen (be16 b0 b1)), rest)
  | .histPort, b0 :: b1 :: b2 :: rest => (decodePort (PortReq.ofBytes b0 b1 b2)).map (·, rest)
  | _, _ => .error .tooShort

/-- The position an instruction stands at (R86, R90, R91). -/
def Instr.position : Instr → Position
  | .rmChain _ => .rmCount
  | .rmEntry _ _ => .rmEntry
  | .rmLit _ => .rmLit
  | .rmTerm => .rmCount
  | .swHdr _ => .swHdr
  | .swFlags _ => .swFlags
  | .swLit _ => .swLit
  | .swMatch _ _ => .swMatch
  | .cmdNop => .command
  | .cmdSelect => .command
  | .cmdEncode => .command
  | .cmdDecode => .command
  | .histSeed _ _ => .histPort
  | .histPush _ => .histPort
  | .histRead _ => .histPort

/-- The bytes of an instruction, from the encoding tables of R71, R74, R77-R80, R90 and R91. An operand line of the
history port that the operation does not use is 0. -/
def encode : Instr → List Byte
  | .rmChain c => [c]
  | .rmEntry v m => v :: bytes32 m
  | .rmLit b => [b]
  | .rmTerm => [Config.rmTerm]
  | .swHdr size => bytes16 size
  | .swFlags f => [f]
  | .swLit b => [b]
  | .swMatch off len => bytes16 (tokenOf off len)
  | .cmdNop => [0x00#8]
  | .cmdSelect => [0x01#8]
  | .cmdEncode => [0x02#8]
  | .cmdDecode => [0x03#8]
  | .histSeed fill cursor => PortReq.toBytes { hop := 0b00#2, data := fill, addr := cursor }
  | .histPush data => PortReq.toBytes { hop := 0b01#2, data := data, addr := 0 }
  | .histRead addr => PortReq.toBytes { hop := 0b10#2, data := 0, addr := addr }

/-- The position at which a table word of `nbits` bits and value `w` is read (log 9). The table's rows overlap, since a
byte's role is fixed by its position (R74): of the positions of one width this takes the CMD register for the four
command bytes and a COUNT position for every other byte, the stream header for 16 bits, an entry for wider words, and
the history port for the 2-bit rows. -/
def tablePosition (nbits w : Nat) : Position :=
  if nbits ≤ 2 then .histPort
  else if nbits ≤ 8 then (if w < 4 then .command else .rmCount)
  else if nbits ≤ 16 then .swHdr
  else .rmEntry

/-- `n` bytes of a table word, bit 0 the least significant bit of the first byte. -/
def wordBytes : Nat → Nat → List Byte
  | 0, _ => []
  | n + 1, w => BitVec.ofNat 8 w :: wordBytes n (w / 256)

/-- The bytes of CORE's longest element, an RM.ENTRY (R84). -/
def longestElement : Nat := 5

/-- The instruction the decoder reads from a table word (log 9). -/
def decodeTableWord (nbits w : Nat) : Option Instr :=
  match decode (tablePosition nbits w) (wordBytes longestElement w) with
  | .ok (i, _) => some i
  | .error _ => none

end Sys2Proof
end

