-- ==== Sys2Proof/Machine/State.lean ====
section
/-! DEFINITION. The state of CORE as plain data: the interface registers and memories (R22-R33), the working state of the
sub-blocks (R34-R38), and the model's own fields (INVENTORY.md, State); the reasons a step stops; the state after
reset (R42, R250). -/

namespace Sys2Proof.Machine

/-- A byte memory: (address, byte) pairs, addresses strictly rising. What an unlisted address reads as is said once, by the
operation that reads the memory: `srcByte`, `outByte`, `nameByte` (a free value, log 2) and `History.read` (the fill byte). -/
abbrev Memory := List Host.Cell

/-- The canonical form: addresses strictly rising. No entry can equal what an unlisted address reads as, since an
unlisted address of SRC, OUT and NAME has no value of its own (log 2). The History Window adds that no entry equals the
fill byte (`History.wf`). -/
def Memory.wf : Memory → Bool
  | [] => true
  | [_] => true
  | c :: d :: m => decide (c.1 < d.1) && Memory.wf (d :: m)

/-- The History Window (R34, R140): `cells` holds the positions that differ from `fill`, the byte of the last seed; `pos`
is the cursor HPOS. -/
structure History where
  /-- The fill byte of the last HIST.SEED (R141): what an unlisted position reads as. -/
  fill : Byte
  /-- The positions written since the seed whose byte differs from `fill`. -/
  cells : Memory
  /-- HPOS, the write cursor. -/
  pos : WinPos
  deriving DecidableEq, Repr

/-- Every listed address is below `n`. -/
def Memory.below (m : Memory) (n : Nat) : Bool := m.all fun c => decide (c.1 < n)

/-- The History Window's canonical form: 4096 positions (R140), rising, and no entry equal to the fill byte. -/
def History.wf (h : History) : Bool :=
  h.cells.wf && h.cells.below Config.winSize && h.cells.all fun c => decide (c.2 ≠ h.fill)

/-- The Run/Mask encoder's working state (R35). -/
structure RmEncoder where
  /-- CHUNK, the 32 input bytes of the current Chunk. -/
  chunk : List Byte
  /-- TALLY, one count per byte value. -/
  tally : List Nat
  /-- MASK[v] for each Candidate v. -/
  masks : List (Byte × Mask)
  /-- ORDER, the Candidates in first-occurrence order. -/
  order : List Byte
  /-- NONREPEAT, the OR of the emitted masks. -/
  nonrepeat : Mask
  /-- IN, the index of the next unconsumed input byte. -/
  inp : Nat
  /-- RES, the result. -/
  res : List Byte
  deriving DecidableEq, Repr

/-- The Run/Mask decoder's working state (R36) and the loop indices of R120. -/
structure RmDecoder where
  /-- COUNT, the current chain's count byte. -/
  count : Byte
  /-- PATTERN, the OR of the chain's masks. -/
  pattern : Mask
  /-- CHUNK, the 32-byte output Chunk being assembled. -/
  chunk : List Byte
  /-- How many entries of the chain are still to be read (the loop over `e` of R120). -/
  left : Nat
  /-- The slot the next literal fills (the loop over `i` of R120). -/
  slot : Nat
  /-- RES, the result. -/
  res : List Byte
  deriving DecidableEq, Repr

/-- The Sliding-Window encoder's working state (R37), less the History Window. -/
structure SwEncoder where
  /-- FLAGS, the flag byte of the open group. -/
  flags : Byte
  /-- TOK, the number of tokens in the open group. -/
  tok : Nat
  /-- GBUF, the open group's encoded tokens. -/
  gbuf : List Byte
  /-- IN, the index of the next unconsumed input byte. -/
  inp : Nat
  /-- RES, the result. -/
  res : List Byte
  deriving DecidableEq, Repr

/-- The Sliding-Window decoder's working state (R38), less the History Window. -/
structure SwDecoder where
  /-- SIZE, the uncompressed-size header. -/
  size : BitVec Config.sizeBits
  /-- FLAGS, the current flag byte. -/
  flags : Byte
  /-- BIT, the index of the next flag bit. -/
  bit : Nat
  /-- RES, the result. -/
  res : List Byte
  deriving DecidableEq, Repr

/-- The place in the stream grammar a running DECODE is at (R74, R83, R86); `idle` between commands. -/
inductive Phase where
  /-- No command is running (R210). -/
  | idle
  /-- The next byte is a COUNT byte (R120). -/
  | rmCount
  /-- The next element is an entry of the chain (R120). -/
  | rmEntry
  /-- The next byte is a literal of the chain (R120). -/
  | rmLit
  /-- The next element is the Sliding-Window header (R180). -/
  | swHdr
  /-- The next byte is a flag byte (R180). -/
  | swFlags
  /-- The next element is the token that flag bit BIT describes (R180). -/
  | swToken
  deriving DecidableEq, Repr

/-- One access by the host: to a register by its number (R22), or to a memory (R31-R33, R58). -/
inductive HostAccess where
  /-- Write `value` to register `number`; a write to CMD issues a command (R210). -/
  | writeReg (number value : Nat)
  /-- Read register `number`. -/
  | readReg (number : Nat)
  /-- Write a byte of SRC. -/
  | writeSrc (addr : Nat) (b : Byte)
  /-- Read a byte of SRC. -/
  | readSrc (addr : Nat)
  /-- Read a byte of OUT. -/
  | readOut (addr : Nat)
  /-- Write a byte of NAME. -/
  | writeName (addr : Nat) (b : Byte)
  /-- Read a byte of NAME. -/
  | readName (addr : Nat)
  deriving DecidableEq, Repr

/-- The state of CORE. -/
structure State where
  /-- STATUS (R24): STATE in bits 1..0, ERR in bits 7..4. -/
  status : Byte
  /-- ENGINE (R25): ENG in bits 1..0. -/
  engine : Byte
  /-- SRC_START (R26), AW bits. -/
  srcStart : Nat
  /-- SRC_LEN (R26), AW bits. -/
  srcLen : Nat
  /-- SRC_POS (R27), AW bits: the decoders' program counter (R21). -/
  srcPos : Nat
  /-- OUT_LEN (R28), AW bits. -/
  outLen : Nat
  /-- ERR_POS (R29), AW bits. -/
  errPos : Nat
  /-- NAME_LEN (R30). -/
  nameLen : Byte
  /-- SRC (R31). -/
  src : Memory
  /-- OUT (R32): the bytes with a specified value, those at addresses below OUT_LEN. -/
  out : Memory
  /-- NAME (R33). -/
  name : Memory
  /-- The History Window (R34). -/
  hist : History
  /-- Working state of sub-block 1 (R35). -/
  rmEnc : RmEncoder
  /-- Working state of sub-block 2 (R36). -/
  rmDec : RmDecoder
  /-- Working state of sub-block 4 (R37). -/
  swEnc : SwEncoder
  /-- Working state of sub-block 5 (R38). -/
  swDec : SwDecoder
  /-- Where in the stream grammar a running DECODE is. -/
  phase : Phase
  /-- SRC_POS before the running command, which a failure restores (R230). -/
  posBefore : Nat
  /-- The model's own: the parameters of R9, which no step changes (log 1). -/
  params : Config.Params
  /-- The model's own: the host accesses not yet performed, in their total order (R62; log 5). -/
  bus : List HostAccess
  /-- The model's own: the value the last host read returned (log 5). -/
  busData : Nat
  /-- The model's own: a request at the internal history port (R91; log 6). -/
  port : Option PortReq
  /-- The model's own: the byte the last HIST.READ at the port returned (R91; log 6). -/
  portData : Byte
  /-- The model's own: index of the free values of SRC and NAME bytes not yet written (log 2). -/
  powerOn : Nat
  /-- The model's own: counter of the free values of OUT bytes that are unspecified (log 3). -/
  outEpoch : Nat
  deriving DecidableEq, Repr

/-- Why a step stops with a fault. Only a host access that names nothing that exists raises one (log 7). CORE's own
errors are next states (R230). -/
inductive Fault where
  /-- Raised by a host access to a register number above 8 (R22 numbers 0..8). Safe: the model stops. -/
  | noSuchRegister (number : Nat)
  /-- Raised by a host access to SRC at an address of at least SRC_CAP (R31). Safe: the model stops. -/
  | noSuchSrcAddress (addr : Nat)
  /-- Raised by a host read of OUT at an address of at least OUT_CAP (R32). Safe: the model stops. -/
  | noSuchOutAddress (addr : Nat)
  /-- Raised by a host access to NAME at an address of at least 255 (R33). Safe: the model stops. -/
  | noSuchNameAddress (addr : Nat)
  deriving DecidableEq, Repr

/-- Why a step is refused. -/
inductive Refusal where
  /-- Raised by an arm of `exec` for an instruction without a meaning; no arm raises it. Safe: the model stops. -/
  | notModelled (mnemonic : String)
  /-- Raised by a request at the history port with the reserved operation code 11, which no engine issues (R91, I11).
  Safe: the model stops. -/
  | reservedPortOp
  deriving DecidableEq, Repr

/-- The History Window before any seed: DESIGN CHOICE all zero, not observable (R42; log 4). -/
def History.unseeded : History := { fill := 0, cells := [], pos := 0 }

/-- The Run/Mask encoder at the start of a command (R100); its reset value is DESIGN CHOICE (log 4). -/
def RmEncoder.initial : RmEncoder :=
  { chunk := [], tally := [], masks := [], order := [], nonrepeat := 0, inp := 0, res := [] }

/-- The empty Chunk a chain starts from (R252); no slot of it reaches the output (R125). -/
def emptyChunk : List Byte := List.replicate Config.chunkLen 0

/-- The Run/Mask decoder at the start of a command (R120); its reset value is DESIGN CHOICE (log 4). -/
def RmDecoder.initial : RmDecoder :=
  { count := 0, pattern := 0, chunk := emptyChunk, left := 0, slot := 0, res := [] }

/-- The Sliding-Window encoder at the start of a command, before the header (R160); its reset value is DESIGN CHOICE
(log 4). -/
def SwEncoder.initial : SwEncoder := { flags := 0, tok := 0, gbuf := [], inp := 0, res := [] }

/-- The Sliding-Window decoder at the start of a command (R180); its reset value is DESIGN CHOICE (log 4). -/
def SwDecoder.initial : SwDecoder := { size := 0, flags := 0, bit := 0, res := [] }

/-- The state after reset (R42, R250): every register 0, no engine bound, nothing listed in any memory, no command
running and no host access pending. -/
def State.reset : State where
  status := 0x00
  engine := 0x00
  srcStart := 0
  srcLen := 0
  srcPos := 0
  outLen := 0
  errPos := 0
  nameLen := 0
  src := []
  out := []
  name := []
  hist := History.unseeded
  rmEnc := RmEncoder.initial
  rmDec := RmDecoder.initial
  swEnc := SwEncoder.initial
  swDec := SwDecoder.initial
  phase := .idle
  posBefore := 0
  params := Config.params
  bus := []
  busData := 0
  port := none
  portData := 0
  powerOn := 0
  outEpoch := 0

end Sys2Proof.Machine
end

