-- ==== Sys2Proof/Machine/Flags.lean ====
section
/-! DEFINITION. The two flag-like elements of CORE (R39): the Sliding-Window flag byte and the fields of STATUS, with
ENGINE's field beside them. -/

namespace Sys2Proof.Machine

/-- Bit `j` of a flag byte (R78): true when token `j` is a literal. -/
def flagBit (f : Byte) (j : Nat) : Bool := f.getLsbD j

/-- A flag byte with bit `j` set (R166, R167): `FLAGS | (1 << j)`. -/
def setFlag (f : Byte) (j : Nat) : Byte := f ||| (1#8 <<< j)

/-- STATUS.STATE (R24). -/
inductive CmdState where
  /-- 0: no command has completed since reset. -/
  | idle
  /-- 1: the last command other than NOP succeeded. -/
  | done
  /-- 2: the last command other than NOP failed. -/
  | error
  deriving DecidableEq, Repr

/-- The code of a STATUS.STATE (R24). -/
def CmdState.code : CmdState → BitVec 2
  | .idle => 0
  | .done => 1
  | .error => 2

/-- The errors CORE reports (R220). -/
inductive ErrorCode where
  /-- SELECT's identifier is not registered (R221). -/
  | unknownAlgorithm
  /-- A Sliding-Window decode met end-of-data (R222). -/
  | sourceExhausted
  /-- A Sliding-Window encode of more than 65535 bytes (R223). -/
  | inputTooLong
  /-- ENCODE or DECODE with no engine bound (R224). -/
  | noCodec
  /-- A reserved CMD value (R225). -/
  | illegalCommand
  /-- ENCODE or DECODE with an illegal source range (R226). -/
  | badRange
  /-- A result longer than OUT_CAP (R228). -/
  | outputOverflow
  deriving DecidableEq, Repr

/-- The code of an error in STATUS.ERR (R220). -/
def ErrorCode.code : ErrorCode → BitVec 4
  | .unknownAlgorithm => 1
  | .sourceExhausted => 2
  | .inputTooLong => 3
  | .noCodec => 4
  | .illegalCommand => 5
  | .badRange => 6
  | .outputOverflow => 7

/-- A STATUS word (R24): ERR in bits 7..4, bits 3..2 zero, STATE in bits 1..0. -/
def statusWord (st : CmdState) (err : BitVec 4) : Byte := err ++ (0#2 ++ st.code)

/-- STATUS after a successful command (R24): STATE = DONE, ERR = 0. -/
def statusDone : Byte := statusWord .done 0

/-- STATUS after a failed command (R24, R230): STATE = ERROR, ERR the error's code. -/
def statusError (e : ErrorCode) : Byte := statusWord .error e.code

/-- STATUS.STATE of a STATUS word (R24). -/
def stateField (status : Byte) : BitVec 2 := status.extractLsb' 0 2

/-- The reserved bits 3..2 of a STATUS word (R24). -/
def statusReserved (status : Byte) : BitVec 2 := status.extractLsb' 2 2

/-- STATUS.ERR of a STATUS word (R24). -/
def errField (status : Byte) : BitVec 4 := status.extractLsb' 4 4

/-- ENGINE.ENG of an ENGINE word (R25): 0 NONE, 1 RM, 2 SW_A, 3 SW_B. -/
def engField (engine : Byte) : BitVec 2 := engine.extractLsb' 0 2

/-- An ENGINE word (R25): ENG in bits 1..0, bits 7..2 zero. -/
def engineWord (eng : BitVec 2) : Byte := 0#6 ++ eng

end Sys2Proof.Machine
end

