-- ==== Sys2Proof/Machine/Ops.lean ====
section
/-! DEFINITION. The named operations over memories and registers that every meaning is written over, and taking an error
(R230), the one shared operation by which a command fails. There is no return from an error (R231). -/

namespace Sys2Proof.Machine

/-! ### Byte memories -/

/-- The byte listed at an address, if any. -/
def Memory.lookup : Memory → Nat → Option Byte
  | [], _ => none
  | c :: m, a => if c.1 = a then some c.2 else Memory.lookup m a

/-- The memory with byte `b` listed at `a`, the canonical form kept. -/
def Memory.store : Memory → Nat → Byte → Memory
  | [], a, b => [(a, b)]
  | c :: m, a, b =>
    if a < c.1 then (a, b) :: c :: m
    else if a = c.1 then (a, b) :: m
    else c :: Memory.store m a b

/-- The memory with nothing listed at `a`. -/
def Memory.erase : Memory → Nat → Memory
  | [], _ => []
  | c :: m, a => if c.1 = a then m else c :: Memory.erase m a

/-- The memory that lists exactly the bytes `bs` at `base`, `base + 1`, … -/
def Memory.ofBytes : Nat → List Byte → Memory
  | _, [] => []
  | base, b :: bs => (base, b) :: Memory.ofBytes (base + 1) bs

/-- The byte SRC holds at an address (R31); a byte the host has not written since reset is a free value (log 2). -/
def srcByte (s : State) (a : Nat) : Byte :=
  (s.src.lookup a).getD (Config.unspecifiedByte s.powerOn .src a)

/-- The byte NAME holds at an address (R33); a byte the host has not written since reset is a free value (log 2). -/
def nameByte (s : State) (a : Nat) : Byte :=
  (s.name.lookup a).getD (Config.unspecifiedByte s.powerOn .name a)

/-- The byte OUT holds at an address (R32); a byte outside the last result is a free value (log 3). -/
def outByte (s : State) (a : Nat) : Byte :=
  (s.out.lookup a).getD (Config.unspecifiedByte s.outEpoch .out a)

/-- The `n` bytes of SRC from address `a` on. -/
def srcBytes (s : State) (a : Nat) : Nat → List Byte
  | 0 => []
  | n + 1 => srcByte s a :: srcBytes s (a + 1) n

/-- The `n` bytes of NAME from address `a` on. -/
def nameBytes (s : State) (a : Nat) : Nat → List Byte
  | 0 => []
  | n + 1 => nameByte s a :: nameBytes s (a + 1) n

/-- The `n` bytes of OUT from address `a` on. -/
def outBytes (s : State) (a : Nat) : Nat → List Byte
  | 0 => []
  | n + 1 => outByte s a :: outBytes s (a + 1) n

/-- A source read of `n` bytes at `a` (R51, R55): end-of-data as a whole, `none`, when `a + n > SRC_LEN`; otherwise the
bytes. It changes nothing (R56). -/
def memRead (s : State) (a n : Nat) : Option (List Byte) :=
  if a + n ≤ s.srcLen then some (srcBytes s a n) else none

/-! ### Interface registers -/

/-- The interface registers (R22). -/
inductive Reg where
  /-- 0: CMD. -/
  | cmd
  /-- 1: STATUS. -/
  | status
  /-- 2: ENGINE. -/
  | engine
  /-- 3: SRC_START. -/
  | srcStart
  /-- 4: SRC_LEN. -/
  | srcLen
  /-- 5: SRC_POS. -/
  | srcPos
  /-- 6: OUT_LEN. -/
  | outLen
  /-- 7: ERR_POS. -/
  | errPos
  /-- 8: NAME_LEN. -/
  | nameLen
  deriving DecidableEq, Repr

/-- The register a number names (R22). -/
def regOfNumber : Nat → Option Reg
  | 0 => some .cmd
  | 1 => some .status
  | 2 => some .engine
  | 3 => some .srcStart
  | 4 => some .srcLen
  | 5 => some .srcPos
  | 6 => some .outLen
  | 7 => some .errPos
  | 8 => some .nameLen
  | _ => none

/-- What a host read of a register returns (R22). CMD reads 0x00. -/
def readReg (s : State) : Reg → Nat
  | .cmd => 0
  | .status => s.status.toNat
  | .engine => s.engine.toNat
  | .srcStart => s.srcStart
  | .srcLen => s.srcLen
  | .srcPos => s.srcPos
  | .outLen => s.outLen
  | .errPos => s.errPos
  | .nameLen => s.nameLen.toNat

/-- A host write to a register other than CMD (R22): the register's width of low bits is stored (log 10), and a write to
a read-only register has no effect. A write to CMD issues a command instead (R210; `fetch`) and retains nothing. -/
def writeReg (s : State) (v : Nat) : Reg → State
  | .cmd => s
  | .status => s
  | .engine => s
  | .srcStart => { s with srcStart := v % 2 ^ s.params.aw }
  | .srcLen => { s with srcLen := v % 2 ^ s.params.aw }
  | .srcPos => s
  | .outLen => s
  | .errPos => s
  | .nameLen => { s with nameLen := BitVec.ofNat 8 v }

/-! ### Taking an error, and the end of a successful ENCODE or DECODE -/

/-- The error entry `FAIL(e, pos)` (R230), `before` being SRC_POS's value from before the command. OUT's bytes become
unspecified: nothing stays listed and the counter of their free values advances (log 3). -/
def failCommand (e : ErrorCode) (pos before : Nat) (s : State) : State :=
  { s with
    status := statusError e
    errPos := pos
    outLen := 0
    srcPos := if e = .sourceExhausted then pos else before
    out := []
    outEpoch := s.outEpoch + 1
    phase := .idle }

/-- The end of an ENCODE or DECODE that has produced `res` (R212, R213), SRC_POS being left as it is: OUTPUT_OVERFLOW when
the result is longer than OUT_CAP, else OUT and OUT_LEN take it. The bytes of OUT at and above OUT_LEN become
unspecified (R32; log 3). -/
def finishCommand (res : List Byte) (before : Nat) (s : State) : State :=
  if s.params.outCap < res.length then failCommand .outputOverflow 0 before s
  else
    { s with
      status := statusDone
      errPos := 0
      outLen := res.length
      out := Memory.ofBytes 0 res
      outEpoch := s.outEpoch + 1
      phase := .idle }

end Sys2Proof.Machine
end

