-- ==== Sys2Proof/Machine/Operands.lean ====
section
/-! DEFINITION. The operands of the commands and of the stream elements, read from State: the identifier of SELECT, the
RawBlock of ENCODE, and the bytes an element occupies at SRC_POS. -/

namespace Sys2Proof.Machine

/-- SELECT's operand `NAME[0..NAME_LEN)` (R200, R30). -/
def identifier (s : State) : List Byte := nameBytes s 0 s.nameLen.toNat

/-- ENCODE's operand, the RawBlock `SRC[SRC_START..SRC_LEN)` (R26, R212). -/
def rawBlock (s : State) : List Byte := srcBytes s s.srcStart (s.srcLen - s.srcStart)

/-- BAD_RANGE's condition (R226): the source range is not inside SRC. -/
def badRange (s : State) : Bool := decide (s.params.srcCap < s.srcLen) || decide (s.srcLen < s.srcStart)

/-- The position of the stream element a running DECODE reads next (R74, R83, R86): the place in the grammar, and for a
Sliding-Window token the flag bit BIT (R182). `none` when no command is running. -/
def streamPosition (s : State) : Option Position :=
  match s.phase with
  | .idle => none
  | .rmCount => some .rmCount
  | .rmEntry => some .rmEntry
  | .rmLit => some .rmLit
  | .swHdr => some .swHdr
  | .swFlags => some .swFlags
  | .swToken => some (if flagBit s.swDec.flags s.swDec.bit then .swLit else .swMatch)

/-- The element at SRC_POS when it is read at position `p` (R21, R85): `none` when the element's bytes reach end-of-data
(R55). -/
def elementAt (p : Position) (s : State) : Option Instr :=
  match memRead s s.srcPos p.width with
  | none => none
  | some bs =>
    match decode p bs with
    | .ok (i, _) => some i
    | .error _ => none

/-- A source read that advances SRC_POS by the `n` bytes read (`Next` of R13; R85). -/
def advance (n : Nat) (s : State) : State := { s with srcPos := s.srcPos + n }

end Sys2Proof.Machine
end

