-- ==== Sys2Proof/Machine/RunMaskEncoder.lean ====
section
/-! DEFINITION. Sub-block 1, the Run-length mask encoder (R100-R108). -/

namespace Sys2Proof.Machine

/-- TALLY (R102): for each byte value, how often it occurs in the Chunk. -/
def rmTally (chunk : List Byte) : List Nat := (List.range 256).map fun v => chunk.count (BitVec.ofNat 8 v)

/-- Candidate selection (R103): a value that occurs more than 5 times in the Chunk. -/
def isCandidate (chunk : List Byte) (v : Byte) : Bool := decide (Config.candMin ≤ chunk.count v)

/-- One step of the mask construction (R104): shift left by one and bring in whether the byte equals `v`. -/
def maskStep (v : Byte) (m : Mask) (b : Byte) : Mask := (m <<< 1) ||| (if b = v then 1 else 0)

/-- The Occurrence Mask of a value (R104): the first Chunk byte ends at the most significant bit. -/
def rmMask (chunk : List Byte) (v : Byte) : Mask := chunk.foldl (maskStep v) 0

/-- One step of the occurrence order (R105): a Candidate not yet in ORDER is appended. -/
def orderStep (chunk : List Byte) (ord : List Byte) (b : Byte) : List Byte :=
  if isCandidate chunk b && !ord.contains b then ord ++ [b] else ord

/-- ORDER (R105): the Candidates by their first position in the Chunk. The spec's early break does not change it. -/
def rmOrder (chunk : List Byte) : List Byte := chunk.foldl (orderStep chunk) []

/-- NONREPEAT (R106): the OR of the masks of the values in ORDER. -/
def rmNonrepeat (chunk : List Byte) : Mask := (rmOrder chunk).foldl (fun acc v => acc ||| rmMask chunk v) 0

/-- The literals of the Chunk bytes at slots `i`, `i + 1`, … : those whose NONREPEAT bit is 0, in order (R107). -/
def literalsFrom (nonrepeat : Mask) : Nat → List Byte → List Byte
  | _, [] => []
  | i, b :: bs =>
    if nonrepeat.getMsbD i then literalsFrom nonrepeat (i + 1) bs else b :: literalsFrom nonrepeat (i + 1) bs

/-- RM_LITERALS (R107). -/
def rmLiterals (chunk : List Byte) (nonrepeat : Mask) : List Byte :=
  if nonrepeat = BitVec.allOnes Config.maskBits then [] else literalsFrom nonrepeat 0 chunk

/-- RM_CHAIN (R106): the count byte, an entry for each Candidate in ORDER, and the literals. -/
def rmChainBytes (chunk : List Byte) : List Byte :=
  BitVec.ofNat 8 (rmOrder chunk).length ::
    ((rmOrder chunk).flatMap (fun v => v :: bytes32 (rmMask chunk v)) ++ rmLiterals chunk (rmNonrepeat chunk))

/-- RM_TERMINATE (R108): one terminator byte, and a second when the length is then even. -/
def rmTerminate (lenSoFar : Nat) : List Byte :=
  if (lenSoFar + 1) % 2 = 0 then [Config.rmTerm, Config.rmTerm] else [Config.rmTerm]

/-- One round of RM_ENCODE's loop (R100, R101): the 32 bytes at IN are encoded and consumed. -/
def rmEncodeChunk (raw : List Byte) (e : RmEncoder) : RmEncoder :=
  let chunk := (raw.drop e.inp).take Config.chunkLen
  { chunk := chunk
    tally := rmTally chunk
    masks := (rmOrder chunk).map fun v => (v, rmMask chunk v)
    order := rmOrder chunk
    nonrepeat := rmNonrepeat chunk
    inp := e.inp + Config.chunkLen
    res := e.res ++ rmChainBytes chunk }

/-- RM_ENCODE's loop (R100): while at least 32 bytes remain. The bound counts the rounds; ⌊n/32⌋ of them suffice. -/
def rmEncodeLoop (raw : List Byte) : Nat → RmEncoder → RmEncoder
  | 0, e => e
  | n + 1, e => if Config.chunkLen ≤ raw.length - e.inp then rmEncodeLoop raw n (rmEncodeChunk raw e) else e

/-- RM_ENCODE (R100): the encoder's working state after the whole operation, its result in `res`. -/
def rmEncode (raw : List Byte) : RmEncoder :=
  let e := rmEncodeLoop raw (raw.length / Config.chunkLen) RmEncoder.initial
  { e with res := e.res ++ rmTerminate e.res.length }

end Sys2Proof.Machine
end

