-- ==== Sys2Proof/Machine/History.lean ====
section
/-! DEFINITION. Sub-block 3, the Sliding-window history buffer: its three port operations (R141-R143), the copy step
(R147), the copy-result function (R148), and the meanings of HIST.SEED, HIST.PUSH and HIST.READ. -/

namespace Sys2Proof.Machine

/-- HIST.SEED (R141): every position holds the fill byte and the cursor is set. -/
def History.seed (fill : Byte) (cursor : WinPos) : History := { fill := fill, cells := [], pos := cursor }

/-- HIST.READ (R143): `W[a mod 4096]`, with no state change. -/
def History.read (h : History) (a : Nat) : Byte := (h.cells.lookup (a % Config.winSize)).getD h.fill

/-- The window with byte `b` at position `a` (the canonical form kept: an entry equal to the fill byte is not listed). -/
def History.write (h : History) (a : Nat) (b : Byte) : History :=
  if b = h.fill then { h with cells := h.cells.erase a } else { h with cells := h.cells.store a b }

/-- HIST.PUSH (R142): the byte is written at the cursor, and the cursor advances modulo 4096 (12 bits). -/
def History.push (h : History) (b : Byte) : History := { h.write h.pos.toNat b with pos := h.pos + 1 }

/-- `n` pushes, one for each byte in order (R165: "push each matched byte into the window"). -/
def History.pushAll : History → List Byte → History
  | h, [] => h
  | h, b :: bs => History.pushAll (h.push b) bs

/-- The distance `d = (HPOS − p) mod 4096` (R147, R148). -/
def History.distance (h : History) (p : WinPos) : Nat := (h.pos - p).toNat

/-- Dview (R148): the byte that step `k` of a copy from `p` returns, on the state before step 0. The spec's recursion
`Dview(p, k) = Dview(p, k − d)` for `0 < d ≤ k` ends at `k mod d`. -/
def History.dview (h : History) (p : WinPos) (k : Nat) : Byte :=
  let d := h.distance p
  h.read (p.toNat + if d = 0 then k else k % d)

/-- What the history port does with an operation, and the byte a READ returns (R91, R141-R143). -/
def histSeedState (fill : Byte) (cursor : WinPos) (s : State) : State := { s with hist := History.seed fill cursor }

/-- HIST.PUSH as a change of State (R142). -/
def histPushState (b : Byte) (s : State) : State := { s with hist := s.hist.push b }

/-- HIST.SEED (R141). -/
def execHistSeed (fill : Byte) (cursor : WinPos) (s : State) : Host.Outcome State Fault Refusal :=
  .next (histSeedState fill cursor s)

/-- HIST.PUSH (R142). -/
def execHistPush (data : Byte) (s : State) : Host.Outcome State Fault Refusal :=
  .next (histPushState data s)

/-- HIST.READ (R143): no state of the spec changes; the byte read is on the port's data lines (R91, log 6). -/
def execHistRead (addr : WinPos) (s : State) : Host.Outcome State Fault Refusal :=
  .next { s with portData := s.hist.read addr.toNat }

end Sys2Proof.Machine
end

