-- ==== Sys2Proof/Machine/SlidingEncoder.lean ====
section
/-! DEFINITION. Sub-block 4, the Sliding-window match encoder (R160-R168). -/

namespace Sys2Proof.Machine

/-- How many bytes of `look` a copy from `p` reproduces from its step `k` on (R163). -/
def matchFrom (h : History) (p : WinPos) : Nat → List Byte → Nat
  | _, [] => 0
  | k, b :: bs => if h.dview p k = b then matchFrom h p (k + 1) bs + 1 else 0

/-- ML(p) (R163): the longest match at `p` with the unconsumed input `look`, at most 18 bytes. -/
def matchLen (h : History) (p : WinPos) (look : List Byte) : Nat := matchFrom h p 0 (look.take Config.maxMatch)

/-- Whether a match of length `len` replaces one of length `best` found earlier in the scan (R164). -/
def takesOver (tie : Config.Tie) (len best : Nat) : Bool :=
  match tie with
  | .backwardLast => decide (best ≤ len)
  | .backwardFirst => decide (best < len)

/-- The rest of SW_SEARCH's scan (R164): `n` more positions, from `p = HPOS − k` backward, `(bp, best)` being the best
match so far. -/
def searchFrom (tie : Config.Tie) (h : History) (look : List Byte) : Nat → WinPos → WinPos → Nat → WinPos × Nat
  | 0, _, bp, best => (bp, best)
  | n + 1, p, bp, best =>
    if takesOver tie (matchLen h p look) best then searchFrom tie h look n (p - 1) p (matchLen h p look)
    else searchFrom tie h look n (p - 1) bp best

/-- SW_SEARCH (R164): the scan of all 4096 positions, backward from the most recently written byte. -/
def swSearch (tie : Config.Tie) (h : History) (look : List Byte) : WinPos × Nat :=
  searchFrom tie h look Config.winSize (h.pos - 1) 0 0

/-- SW_EMIT_MATCH (R165), the encoder's part: the token's bytes join GBUF, IN advances, the flag bit stays 0. -/
def emitMatch (p : WinPos) (len : Nat) (e : SwEncoder) : SwEncoder :=
  { e with gbuf := e.gbuf ++ bytes16 (tokenOf p len), inp := e.inp + len }

/-- SW_EMIT_LITERAL (R166), the encoder's part: the flag bit TOK is set, the byte joins GBUF, IN advances. -/
def emitLiteral (b : Byte) (e : SwEncoder) : SwEncoder :=
  { e with flags := setFlag e.flags e.tok, gbuf := e.gbuf ++ [b], inp := e.inp + 1 }

/-- SW_FLUSH (R168): the flag byte and the group's bytes join RES, and a new group begins. -/
def flushGroup (e : SwEncoder) : SwEncoder :=
  { e with res := e.res ++ e.flags :: e.gbuf, flags := 0, tok := 0, gbuf := [] }

/-- A token has been emitted: TOK counts it, and a full group is flushed (R160, R168). -/
def countToken (e : SwEncoder) : SwEncoder :=
  if e.tok + 1 = Config.groupTokens then flushGroup { e with tok := e.tok + 1 } else { e with tok := e.tok + 1 }

/-- One round of SW_ENCODE's loop on the unconsumed input `b :: bs` (R160): a match when one of length 3 or more exists,
else a literal; either way the consumed bytes are pushed into the window (R165, R166). -/
def swToken (tie : Config.Tie) (b : Byte) (bs : List Byte) (h : History) (e : SwEncoder) : History × SwEncoder :=
  let found := swSearch tie h (b :: bs)
  if Config.minMatch ≤ found.2 then
    (h.pushAll ((b :: bs).take found.2), countToken (emitMatch found.1 found.2 e))
  else (h.push b, countToken (emitLiteral b e))

/-- SW_ENCODE's loop (R160): while input is left. The bound counts the rounds; each consumes at least one byte. -/
def swEncodeLoop (tie : Config.Tie) (raw : List Byte) : Nat → History → SwEncoder → History × SwEncoder
  | 0, h, e => (h, e)
  | n + 1, h, e =>
    match raw.drop e.inp with
    | [] => (h, e)
    | b :: bs =>
      let he := swToken tie b bs h e
      swEncodeLoop tie raw n he.1 he.2

/-- SW_ENCODE (R160) for an input of at most 65535 bytes: the window and the encoder's working state after the whole
operation, its result in `res`. The header is the input's length (R162); a last group that holds a token is flushed
(R168). -/
def swEncode (fill : Byte) (tie : Config.Tie) (raw : List Byte) : History × SwEncoder :=
  let start : SwEncoder := { SwEncoder.initial with res := bytes16 (BitVec.ofNat Config.sizeBits raw.length) }
  let he := swEncodeLoop tie raw raw.length (History.seed fill Config.winCursor0) start
  (he.1, if 0 < he.2.tok then flushGroup he.2 else he.2)

end Sys2Proof.Machine
end

