-- ==== Sys2Proof/Machine/RunMaskDecoder.lean ====
section
/-! DEFINITION. Sub-block 2, the Run-length mask decoder: the meanings of RM.CHAIN, RM.ENTRY, RM.LIT and RM.TERM
(R120-R130), each one round of RM_DECODE (R120). -/

namespace Sys2Proof.Machine

/-- The Chunk slots `i`, `i + 1`, … with `v` placed where the mask has a 1 bit (R122). -/
def placeFrom (m : Mask) (v : Byte) : Nat → List Byte → List Byte
  | _, [] => []
  | i, b :: bs => (if m.getMsbD i then v else b) :: placeFrom m v (i + 1) bs

/-- The lowest slot from `i` on, among the `n` slots there, whose PATTERN bit is 0 (R73, R124); `i + n` if there is none. -/
def nextFree (pattern : Mask) : Nat → Nat → Nat
  | i, 0 => i
  | i, n + 1 => if pattern.getMsbD i then nextFree pattern (i + 1) n else i

/-- The next slot a literal fills, from slot `i` on; 32 when no slot is left (R124). -/
def nextSlot (pattern : Mask) (i : Nat) : Nat := nextFree pattern i (Config.chunkLen - i)

/-- Chunk completion (R125): the Chunk is appended to RES and the next byte is a COUNT byte. -/
def completeChunk (s : State) : State :=
  { s with rmDec := { s.rmDec with res := s.rmDec.res ++ s.rmDec.chunk }, phase := .rmCount }

/-- The decode goes on with the literal of the lowest slot from `i` on whose PATTERN bit is 0, or completes the Chunk
(R124, R125). -/
def toLiteral (i : Nat) (s : State) : State :=
  if nextSlot s.rmDec.pattern i < Config.chunkLen then
    { s with rmDec := { s.rmDec with slot := nextSlot s.rmDec.pattern i }, phase := .rmLit }
  else completeChunk s

/-- The decode goes on with the next entry of the chain, or when none is left with its literals (R120, R121). -/
def afterEntry (s : State) : State :=
  if s.rmDec.left = 0 then
    if s.rmDec.pattern = BitVec.allOnes Config.maskBits then completeChunk s else toLiteral 0 s
  else { s with phase := .rmEntry }

/-- RM.CHAIN (R121, R129): `PATTERN <- 0` and `c` entries follow; the Chunk starts empty (R252). -/
def rmChainState (c : Byte) (s : State) : State :=
  afterEntry
    { advance 1 s with
      rmDec := { s.rmDec with count := c, pattern := 0, chunk := emptyChunk, left := c.toNat, slot := 0 } }

/-- RM.ENTRY (R122): the mask joins PATTERN and `v` goes to the mask's slots, over any earlier entry's (R130). -/
def rmEntryState (v : Byte) (m : Mask) (s : State) : State :=
  afterEntry
    { advance 5 s with
      rmDec :=
        { s.rmDec with
          pattern := s.rmDec.pattern ||| m
          chunk := placeFrom m v 0 s.rmDec.chunk
          left := s.rmDec.left - 1 } }

/-- RM.LIT (R124): the byte fills the current slot. -/
def rmLitState (b : Byte) (s : State) : State :=
  toLiteral (s.rmDec.slot + 1)
    { advance 1 s with rmDec := { s.rmDec with chunk := s.rmDec.chunk.set s.rmDec.slot b } }

/-- RM.TERM (R126): SRC_POS is left just past the byte and RES is the result. -/
def rmTermState (s : State) : State := finishCommand s.rmDec.res s.posBefore (advance 1 s)

/-- End of data in RM_DECODE (R127): an implicit terminator, the Chunk in progress discarded. SRC_POS is the position of
the failed read: in an entry whose value byte is there but whose mask is cut, the value has been read (R120). -/
def rmEndOfData (s : State) : State :=
  finishCommand s.rmDec.res s.posBefore
    (if s.phase = .rmEntry ∧ s.srcPos + 1 ≤ s.srcLen then advance 1 s else s)

/-- RM.CHAIN (R121). -/
def execRmChain (c : Byte) (s : State) : Host.Outcome State Fault Refusal := .next (rmChainState c s)

/-- RM.ENTRY (R122). -/
def execRmEntry (v : Byte) (m : Mask) (s : State) : Host.Outcome State Fault Refusal := .next (rmEntryState v m s)

/-- RM.LIT (R124). -/
def execRmLit (b : Byte) (s : State) : Host.Outcome State Fault Refusal := .next (rmLitState b s)

/-- RM.TERM (R126). -/
def execRmTerm (s : State) : Host.Outcome State Fault Refusal := .next (rmTermState s)

end Sys2Proof.Machine
end

