-- ==== Sys2Proof/Machine/SlidingDecoder.lean ====
section
/-! DEFINITION. Sub-block 5, the Sliding-window match decoder: the meanings of SW.HDR, SW.FLAGS, SW.LIT and SW.MATCH
(R180-R189), each one round of SW_DECODE (R180). -/

namespace Sys2Proof.Machine

/-- The stop condition (R186), tested before each token and each flag byte: the command ends once |RES| has reached SIZE;
else the next token of the group follows, or a flag byte after the 8th (R182). -/
def swContinue (s : State) : State :=
  if s.swDec.size.toNat ≤ s.swDec.res.length then finishCommand s.swDec.res s.posBefore s
  else if Config.groupTokens ≤ s.swDec.bit then { s with phase := .swFlags }
  else { s with phase := .swToken }

/-- SW.HDR (R181, R187): SIZE is set and the window is seeded (R141); with SIZE = 0 the command ends. -/
def swHdrState (size : BitVec Config.sizeBits) (s : State) : State :=
  swContinue
    { histSeedState s.params.histFill Config.winCursor0 (advance 2 s) with
      swDec := { s.swDec with size := size, bit := Config.groupTokens } }

/-- SW.FLAGS (R182): the flag byte of a group whose bits are visited from bit 0 on. -/
def swFlagsState (f : Byte) (s : State) : State :=
  swContinue { advance 1 s with swDec := { s.swDec with flags := f, bit := 0 } }

/-- SW.LIT (R183): the byte is emitted and pushed into the window. -/
def swLitState (b : Byte) (s : State) : State :=
  swContinue
    { histPushState b (advance 1 s) with
      swDec := { s.swDec with res := s.swDec.res ++ [b], bit := s.swDec.bit + 1 } }

/-- The copy steps `k`, `k + 1`, … of a match (R147, R184-R186), `n` of them at most: before each byte the stop condition
is tested, then one byte is read from the window, pushed and emitted. -/
def copySteps (size : Nat) (off : WinPos) : Nat → Nat → History → List Byte → History × List Byte
  | 0, _, h, res => (h, res)
  | n + 1, k, h, res =>
    if size ≤ res.length then (h, res)
    else
      let b := h.read (off.toNat + k)
      copySteps size off n (k + 1) (h.push b) (res ++ [b])

/-- SW.MATCH (R184, R185): LEN bytes are copied from the absolute window position OFF, byte by byte. -/
def swMatchState (off : WinPos) (len : Nat) (s : State) : State :=
  let hr := copySteps s.swDec.size.toNat off len 0 s.hist s.swDec.res
  swContinue
    { advance 2 s with hist := hr.1, swDec := { s.swDec with res := hr.2, bit := s.swDec.bit + 1 } }

/-- End of data in SW_DECODE (R188, R222): SOURCE_EXHAUSTED at the position of the failed read. -/
def swEndOfData (s : State) : State := failCommand .sourceExhausted s.srcPos s.posBefore s

/-- SW.HDR (R181). -/
def execSwHdr (size : BitVec Config.sizeBits) (s : State) : Host.Outcome State Fault Refusal := .next (swHdrState size s)

/-- SW.FLAGS (R182). -/
def execSwFlags (f : Byte) (s : State) : Host.Outcome State Fault Refusal := .next (swFlagsState f s)

/-- SW.LIT (R183). -/
def execSwLit (b : Byte) (s : State) : Host.Outcome State Fault Refusal := .next (swLitState b s)

/-- SW.MATCH (R184). -/
def execSwMatch (off : WinPos) (len : Nat) (s : State) : Host.Outcome State Fault Refusal :=
  .next (swMatchState off len s)

end Sys2Proof.Machine
end

