-- ==== Sys2Proof/Machine/Stream.lean ====
section
/-! DEFINITION. A running DECODE: one stream element after another, with SRC_POS as the program counter (R21), until the
command ends (R120, R180). -/

namespace Sys2Proof.Machine

/-- End of data at a stream read (R55): an implicit terminator in RM_DECODE (R127), SOURCE_EXHAUSTED in SW_DECODE (R188).
In an idle state nothing is being read. -/
def endOfData (s : State) : State :=
  match s.phase with
  | .idle => s
  | .rmCount => rmEndOfData s
  | .rmEntry => rmEndOfData s
  | .rmLit => rmEndOfData s
  | .swHdr => swEndOfData s
  | .swFlags => swEndOfData s
  | .swToken => swEndOfData s

/-- The effect of a stream element. The host commands and the port operations are no stream elements: the decoder reads
none of them at a stream position, and they have no effect here. -/
def elementEffect (i : Instr) (s : State) : State :=
  match i with
  | .rmChain c => rmChainState c s
  | .rmEntry v m => rmEntryState v m s
  | .rmLit b => rmLitState b s
  | .rmTerm => rmTermState s
  | .swHdr size => swHdrState size s
  | .swFlags f => swFlagsState f s
  | .swLit b => swLitState b s
  | .swMatch off len => swMatchState off len s
  | .cmdNop => s
  | .cmdSelect => s
  | .cmdEncode => s
  | .cmdDecode => s
  | .histSeed _ _ => s
  | .histPush _ => s
  | .histRead _ => s

/-- One round of a running DECODE: the element at SRC_POS takes its effect, or end-of-data does. -/
def elementStep (s : State) : State :=
  match streamPosition s with
  | none => s
  | some p =>
    match elementAt p s with
    | some i => elementEffect i s
    | none => endOfData s

/-- The rounds of a running DECODE until the command has ended, `n` of them at most. -/
def runElements : Nat → State → State
  | 0, s => s
  | n + 1, s => if s.phase = .idle then s else runElements n (elementStep s)

/-- A bound on the rounds of a DECODE: every element reads at least one byte before SRC_LEN, and end-of-data ends the
command (R132, R190, R210). -/
def elementBound (s : State) : Nat := s.srcLen - s.srcPos + 1

end Sys2Proof.Machine
end

