-- ==== Sys2Proof/Machine/Commands.lean ====
section
/-! DEFINITION. Sub-block 6, the codec selector, and the host commands NOP, SELECT, ENCODE and DECODE (R200-R213). Each
command runs to completion as one transaction (R210). -/

namespace Sys2Proof.Machine

/-- REGISTRY_LOOKUP (R201, R202): the ENG code of the entry whose identifier equals the name byte for byte. -/
def registryLookup (p : Config.Params) (name : List Byte) : Option (BitVec 2) :=
  if name = p.nameRm.bytes then some 1
  else if name = p.nameSwA.bytes then some 2
  else if name = p.nameSwB.bytes then some 3
  else none

/-- SELECT (R200, R203). -/
def selectCommand (s : State) : State :=
  match registryLookup s.params (identifier s) with
  | none => failCommand .unknownAlgorithm 0 s.srcPos { s with engine := engineWord 0 }
  | some eng => { s with engine := engineWord eng, status := statusDone, errPos := 0 }

/-- ENCODE by the Run/Mask engine (R100, R109, R212): the result, and SRC_POS past the last whole Chunk. -/
def encodeRm (s : State) : State :=
  let raw := rawBlock s
  let e := rmEncode raw
  finishCommand e.res s.srcPos
    { s with rmEnc := e, srcPos := s.srcStart + Config.chunkLen * (raw.length / Config.chunkLen) }

/-- ENCODE by the Sliding-Window engine (R160, R161, R171, R212): INPUT_TOO_LONG before any input is read, else the
result, and SRC_POS at SRC_LEN. -/
def encodeSw (s : State) : State :=
  let raw := rawBlock s
  if Config.maxRaw < raw.length then failCommand .inputTooLong 0 s.srcPos s
  else
    let he := swEncode s.params.histFill s.params.swTie raw
    finishCommand he.2.res s.srcPos { s with hist := he.1, swEnc := he.2, srcPos := s.srcLen }

/-- ENCODE (R206, R212), its checks in the order of R229. -/
def encodeCommand (s : State) : State :=
  if engField s.engine = 0 then failCommand .noCodec 0 s.srcPos s
  else if badRange s then failCommand .badRange 0 s.srcPos s
  else if engField s.engine = 1 then encodeRm s
  else encodeSw s

/-- DECODE has passed its checks (R213): SRC_POS is at SRC_START, its old value is kept for a failure (R230), and the
engine's working state is initialised (R252). -/
def beginDecode (s : State) : State :=
  if engField s.engine = 1 then
    { s with posBefore := s.srcPos, srcPos := s.srcStart, rmDec := RmDecoder.initial, phase := .rmCount }
  else
    { s with posBefore := s.srcPos, srcPos := s.srcStart, swDec := SwDecoder.initial, phase := .swHdr }

/-- DECODE (R206, R213), its checks in the order of R229, then the whole stream. -/
def decodeStream (s : State) : State :=
  if engField s.engine = 0 then failCommand .noCodec 0 s.srcPos s
  else if badRange s then failCommand .badRange 0 s.srcPos s
  else runElements (elementBound (beginDecode s)) (beginDecode s)

/-- CMD.NOP (R211): no state changes. -/
def execCmdNop (s : State) : Host.Outcome State Fault Refusal := .next s

/-- CMD.SELECT (R200). -/
def execCmdSelect (s : State) : Host.Outcome State Fault Refusal := .next (selectCommand s)

/-- CMD.ENCODE (R212). -/
def execCmdEncode (s : State) : Host.Outcome State Fault Refusal := .next (encodeCommand s)

/-- CMD.DECODE (R213). -/
def execCmdDecode (s : State) : Host.Outcome State Fault Refusal := .next (decodeStream s)

/-- A CMD write with a reserved value (R225). -/
def illegalCommand (s : State) : State := failCommand .illegalCommand 0 s.srcPos s

end Sys2Proof.Machine
end

