-- ==== Sys2Proof/Machine/Dispatch.lean ====
section
/-! DEFINITION. The meaning of every instruction: one arm per constructor of Instr. -/

namespace Sys2Proof.Machine

def exec (i : Instr) (s : State) : Host.Outcome State Fault Refusal :=
  match i with
  | .rmChain c => Sys2Proof.Machine.execRmChain c s
  | .rmEntry v m => Sys2Proof.Machine.execRmEntry v m s
  | .rmLit b => Sys2Proof.Machine.execRmLit b s
  | .rmTerm => Sys2Proof.Machine.execRmTerm s
  | .swHdr size => Sys2Proof.Machine.execSwHdr size s
  | .swFlags f => Sys2Proof.Machine.execSwFlags f s
  | .swLit b => Sys2Proof.Machine.execSwLit b s
  | .swMatch off len => Sys2Proof.Machine.execSwMatch off len s
  | .cmdNop => Sys2Proof.Machine.execCmdNop s
  | .cmdSelect => Sys2Proof.Machine.execCmdSelect s
  | .cmdEncode => Sys2Proof.Machine.execCmdEncode s
  | .cmdDecode => Sys2Proof.Machine.execCmdDecode s
  | .histSeed fill cursor => Sys2Proof.Machine.execHistSeed fill cursor s
  | .histPush data => Sys2Proof.Machine.execHistPush data s
  | .histRead addr => Sys2Proof.Machine.execHistRead addr s

end Sys2Proof.Machine
end

