-- ==== Sys2Proof/Machine/Fetch.lean ====
section
/-! DEFINITION. What a step does next: the fetch of an instruction (a request at the history port, the stream element at
SRC_POS of a running DECODE, or the command of a host write to CMD), the other host accesses, and how a word is placed
where the fetch finds it. -/

namespace Sys2Proof.Machine

/-- What one step has before it. -/
inductive Fetched where
  /-- Nothing: CORE waits for the host (R251). -/
  | wait
  /-- An instruction, and the state it runs on. -/
  | instr (i : Instr) (t : State)
  /-- A CMD write with a reserved value (R225), and the state it fails on. -/
  | illegal (t : State)
  /-- End of data at the next stream read (R55). -/
  | endOfData (t : State)
  /-- A host access other than a CMD write, and the state it acts on. -/
  | access (a : HostAccess) (t : State)
  /-- The reserved operation code at the history port (R91). -/
  | reservedPort
  deriving DecidableEq, Repr

/-- The command byte of a host access, when it is a write to CMD (R22, R23). -/
def commandByte : HostAccess → Option Byte
  | .writeReg number value => if regOfNumber number = some .cmd then some (BitVec.ofNat 8 value) else none
  | .readReg _ => none
  | .writeSrc _ _ => none
  | .readSrc _ => none
  | .readOut _ => none
  | .writeName _ _ => none
  | .readName _ => none

/-- The fetch from the host's accesses (R62, R210): the oldest is taken off `bus`; a CMD write issues the command its byte
encodes. -/
def fetchHost (s : State) : Fetched :=
  match s.bus with
  | [] => .wait
  | a :: rest =>
    match commandByte a with
    | none => .access a { s with bus := rest }
    | some v =>
      match decode .command [v] with
      | .ok (i, _) => .instr i { s with bus := rest }
      | .error _ => .illegal { s with bus := rest }

/-- The fetch: a pending request at the history port first (log 6), then the next element of a running DECODE, which no
host access interrupts (R210), then the host. -/
def fetch (s : State) : Fetched :=
  match s.port with
  | some r =>
    match decode .histPort r.toBytes with
    | .ok (i, _) => .instr i { s with port := none }
    | .error _ => .reservedPort
  | none =>
    match streamPosition s with
    | some p =>
      match elementAt p s with
      | some i => .instr i s
      | none => .endOfData s
    | none => fetchHost s

/-- A host access other than a CMD write (R22, R31-R33, R58): its effect, or a fault when it names nothing that exists
(log 7). A read leaves the value in `busData`. -/
def hostAccess (a : HostAccess) (s : State) : Host.Outcome State Fault Refusal :=
  match a with
  | .writeReg number value =>
    match regOfNumber number with
    | some r => .next (writeReg s value r)
    | none => .fault (.noSuchRegister number)
  | .readReg number =>
    match regOfNumber number with
    | some r => .next { s with busData := readReg s r }
    | none => .fault (.noSuchRegister number)
  | .writeSrc addr b =>
    if addr < s.params.srcCap then .next { s with src := s.src.store addr b } else .fault (.noSuchSrcAddress addr)
  | .readSrc addr =>
    if addr < s.params.srcCap then .next { s with busData := (srcByte s addr).toNat }
    else .fault (.noSuchSrcAddress addr)
  | .readOut addr =>
    if addr < s.params.outCap then .next { s with busData := (outByte s addr).toNat }
    else .fault (.noSuchOutAddress addr)
  | .writeName addr b =>
    if addr < Config.nameCap then .next { s with name := s.name.store addr b } else .fault (.noSuchNameAddress addr)
  | .readName addr =>
    if addr < Config.nameCap then .next { s with busData := (nameByte s addr).toNat }
    else .fault (.noSuchNameAddress addr)

/-- The memory with bytes stored at `a`, `a + 1`, … -/
def Memory.storeAll : Memory → Nat → List Byte → Memory
  | m, _, [] => m
  | m, a, b :: bs => Memory.storeAll (m.store a b) (a + 1) bs

/-- A state in the middle of a DECODE, with the bytes `bs` at SRC_POS and nothing after them. -/
def placeElement (engine : BitVec 2) (phase : Phase) (bs : List Byte) (s : State) : State :=
  { s with
    port := none
    engine := engineWord engine
    phase := phase
    src := s.src.storeAll s.srcPos bs
    srcLen := s.srcPos + bs.length }

/-- A table word placed where the next step fetches it (log 5, log 9): a command byte as the host's next access, a stream
element at SRC_POS of a running DECODE, a port operation as the pending port request. -/
def placeWord (s : State) (nbits w : Nat) : State :=
  match tablePosition nbits w with
  | .command => { s with port := none, phase := .idle, bus := .writeReg 0 w :: s.bus }
  | .rmCount => placeElement 1 .rmCount (wordBytes longestElement w) s
  | .rmEntry =>
    placeElement 1 .rmEntry (wordBytes longestElement w) { s with rmDec := { s.rmDec with left := 1 } }
  | .rmLit => placeElement 1 .rmLit (wordBytes longestElement w) s
  | .swHdr => placeElement 2 .swHdr (wordBytes longestElement w) s
  | .swFlags =>
    placeElement 2 .swFlags (wordBytes longestElement w) { s with swDec := { s.swDec with size := 0xFFFF } }
  | .swLit =>
    placeElement 2 .swToken (wordBytes longestElement w)
      { s with swDec := { s.swDec with size := 0xFFFF, flags := 0xFF, bit := 0 } }
  | .swMatch =>
    placeElement 2 .swToken (wordBytes longestElement w)
      { s with swDec := { s.swDec with size := 0xFFFF, flags := 0x00, bit := 0 } }
  | .histPort =>
    { s with port := match wordBytes 3 w with
                     | [b0, b1, b2] => some (PortReq.ofBytes b0 b1 b2)
                     | _ => none }

end Sys2Proof.Machine
end

