-- ==== Sys2Proof/Machine/Step.lean ====
section
/-! DEFINITION. One step of CORE, and how a table word is placed where the next step fetches it. -/

namespace Sys2Proof.Machine

/-- One step: the fetched instruction runs, the fetched host access is performed, an error is taken, or CORE waits. -/
def step (s : State) : Host.Outcome State Fault Refusal :=
  match fetch s with
  | .wait => .next s
  | .instr i t => exec i t
  | .illegal t => .next (illegalCommand t)
  | .endOfData t => .next (endOfData t)
  | .access a t => hostAccess a t
  | .reservedPort => .refused .reservedPortOp

/-- The state with a table word stored where `step` fetches its next instruction (log 5, log 9). -/
def State.withFetchWord (s : State) (nbits w : Nat) : State := placeWord s nbits w

end Sys2Proof.Machine
end

