-- ==== Sys2Proof/Safety.lean ====
section
/-! DEFINITION. The terms the statements are made in: the invariant of the machine, and what an instruction leaves
unchanged. -/

namespace Sys2Proof.Machine

/-- The part of the invariant that holds whether or not a DECODE is running: legal parameters (R9, R201), registers
within their widths (R22), reserved fields at 0 and legal STATUS values (R24, R25, R220, I10), memories in canonical form
and inside their capacities (R31-R33, R58), OUT listed exactly below OUT_LEN (R32), the History Window in canonical form
(R140). -/
structure State.Sound (s : State) : Prop where
  /-- The parameters are legal. -/
  params_legal : s.params.legal = true
  /-- SRC_START has AW bits. -/
  srcStart_lt : s.srcStart < 2 ^ s.params.aw
  /-- SRC_LEN has AW bits. -/
  srcLen_lt : s.srcLen < 2 ^ s.params.aw
  /-- SRC_POS has AW bits. -/
  srcPos_lt : s.srcPos < 2 ^ s.params.aw
  /-- OUT_LEN has AW bits. -/
  outLen_lt : s.outLen < 2 ^ s.params.aw
  /-- ERR_POS has AW bits. -/
  errPos_lt : s.errPos < 2 ^ s.params.aw
  /-- OUT_LEN is at most OUT_CAP. -/
  outLen_le : s.outLen ≤ s.params.outCap
  /-- STATUS[3:2] reads 0. -/
  status_reserved : statusReserved s.status = 0
  /-- STATUS.STATE is never 3. -/
  status_state : stateField s.status ≠ 3
  /-- STATUS.ERR is 0 unless STATE is ERROR. -/
  status_err : stateField s.status ≠ 2 → errField s.status = 0
  /-- STATUS.ERR codes 8 to 15 are never produced. -/
  status_err_le : (errField s.status).toNat ≤ 7
  /-- ENGINE[7:2] reads 0. -/
  engine_reserved : s.engine.extractLsb' 2 6 = 0
  /-- SRC is canonical. -/
  src_wf : s.src.wf = true
  /-- SRC has SRC_CAP bytes. -/
  src_below : s.src.below s.params.srcCap = true
  /-- OUT is canonical. -/
  out_wf : s.out.wf = true
  /-- OUT lists exactly the addresses below OUT_LEN. -/
  out_listed : ∀ a, (s.out.lookup a).isSome = true ↔ a < s.outLen
  /-- NAME is canonical. -/
  name_wf : s.name.wf = true
  /-- NAME has 255 bytes. -/
  name_below : s.name.below Config.nameCap = true
  /-- The History Window is canonical. -/
  hist_wf : s.hist.wf = true

/-- What holds inside a running DECODE: SRC_POS is in the source range (R21, R55), the engine is the one that reads the
stream (R206), the Run/Mask result is a whole number of Chunks (R125, R132), and the Sliding-Window result has not
reached SIZE while another element is to be read (R186). -/
structure State.Running (s : State) : Prop where
  /-- The source range is inside SRC. -/
  srcLen_le : s.srcLen ≤ s.params.srcCap
  /-- SRC_POS is at most SRC_LEN. -/
  srcPos_le : s.srcPos ≤ s.srcLen
  /-- The saved SRC_POS has AW bits. -/
  posBefore_lt : s.posBefore < 2 ^ s.params.aw
  /-- A Run/Mask stream is read by the Run/Mask engine, a whole number of Chunks is done, and the Chunk has 32 slots. -/
  rm : s.phase = .rmCount ∨ s.phase = .rmEntry ∨ s.phase = .rmLit →
    engField s.engine = 1 ∧ s.rmDec.chunk.length = 32 ∧ s.rmDec.res.length % 32 = 0
  /-- An entry is read only while the chain has entries left. -/
  rm_entry : s.phase = .rmEntry → 0 < s.rmDec.left
  /-- A literal fills a slot whose PATTERN bit is 0. -/
  rm_lit : s.phase = .rmLit → s.rmDec.slot < 32 ∧ s.rmDec.pattern.getMsbD s.rmDec.slot = false
  /-- A Sliding-Window stream is read by the Sliding-Window engine. -/
  sw : s.phase = .swHdr ∨ s.phase = .swFlags ∨ s.phase = .swToken → engField s.engine = 2 ∨ engField s.engine = 3
  /-- Nothing has been emitted before the header. -/
  sw_hdr : s.phase = .swHdr → s.swDec.res = []
  /-- A flag byte or a token is read only while |RES| is below SIZE. -/
  sw_size : s.phase = .swFlags ∨ s.phase = .swToken → s.swDec.res.length < s.swDec.size.toNat
  /-- A token belongs to one of the 8 flag bits. -/
  sw_bit : s.phase = .swToken → s.swDec.bit < 8

/-- The invariant of CORE. -/
def State.Ok (s : State) : Prop := s.Sound ∧ (s.phase ≠ .idle → s.Running)

/-- What no stream element and no port operation changes unless it ends a command: every interface register but SRC_POS,
every byte of SRC, OUT and NAME, and everything outside CORE. -/
structure Frame (s t : State) : Prop where
  /-- STATUS is unchanged. -/
  status : t.status = s.status
  /-- ENGINE is unchanged. -/
  engine : t.engine = s.engine
  /-- SRC_START is unchanged. -/
  srcStart : t.srcStart = s.srcStart
  /-- SRC_LEN is unchanged. -/
  srcLen : t.srcLen = s.srcLen
  /-- OUT_LEN is unchanged. -/
  outLen : t.outLen = s.outLen
  /-- ERR_POS is unchanged. -/
  errPos : t.errPos = s.errPos
  /-- NAME_LEN is unchanged. -/
  nameLen : t.nameLen = s.nameLen
  /-- Every byte of SRC reads as before. -/
  src : ∀ a, srcByte t a = srcByte s a
  /-- Every byte of OUT reads as before. -/
  out : ∀ a, outByte t a = outByte s a
  /-- Every byte of NAME reads as before. -/
  name : ∀ a, nameByte t a = nameByte s a
  /-- The parameters are unchanged. -/
  params : t.params = s.params
  /-- The host's pending accesses are unchanged. -/
  bus : t.bus = s.bus
  /-- The host's read data is unchanged. -/
  busData : t.busData = s.busData
  /-- The port request is unchanged. -/
  port : t.port = s.port
  /-- The port's data lines are unchanged. -/
  portData : t.portData = s.portData

/-- What no command changes, whether it succeeds or fails (R22, R41, R56, R230, R254): the host-written registers, every
byte of SRC and NAME, and everything outside CORE. ENGINE, STATUS, SRC_POS, OUT_LEN, ERR_POS and OUT are said where a
statement uses it. -/
structure CommandFrame (s t : State) : Prop where
  /-- SRC_START is unchanged. -/
  srcStart : t.srcStart = s.srcStart
  /-- SRC_LEN is unchanged. -/
  srcLen : t.srcLen = s.srcLen
  /-- NAME_LEN is unchanged. -/
  nameLen : t.nameLen = s.nameLen
  /-- Every byte of SRC reads as before. -/
  src : ∀ a, srcByte t a = srcByte s a
  /-- Every byte of NAME reads as before. -/
  name : ∀ a, nameByte t a = nameByte s a
  /-- The parameters are unchanged. -/
  params : t.params = s.params
  /-- The host's pending accesses are unchanged. -/
  bus : t.bus = s.bus
  /-- The host's read data is unchanged. -/
  busData : t.busData = s.busData
  /-- The port request is unchanged. -/
  port : t.port = s.port
  /-- The port's data lines are unchanged. -/
  portData : t.portData = s.portData

/-- A command has succeeded with the result `res` (R212, R213): STATUS = 0x01, ERR_POS = 0, and OUT holds `res`. -/
structure Done (res : List Byte) (t : State) : Prop where
  /-- STATE = DONE, ERR = 0. -/
  status : t.status = 0x01#8
  /-- ERR_POS = 0. -/
  errPos : t.errPos = 0
  /-- OUT_LEN is the result's length. -/
  outLen : t.outLen = res.length
  /-- OUT holds the result. -/
  out : outBytes t 0 res.length = res
  /-- No command is running. -/
  phase : t.phase = .idle

/-- A command has failed with error code `err` at `pos` (R230): STATE = ERROR, ERR, ERR_POS, and OUT_LEN = 0. -/
structure Failed (err : BitVec 4) (pos : Nat) (t : State) : Prop where
  /-- STATE = ERROR. -/
  state : stateField t.status = 2
  /-- The reserved bits are 0. -/
  reserved : statusReserved t.status = 0
  /-- ERR is the code. -/
  err : errField t.status = err
  /-- ERR_POS. -/
  errPos : t.errPos = pos
  /-- OUT_LEN = 0. -/
  outLen : t.outLen = 0
  /-- No command is running. -/
  phase : t.phase = .idle

end Sys2Proof.Machine
end

