-- ==== Sys2Proof/Reference.lean ====
section
/-! DEFINITION. Reference functions on byte lists, written from the formats and pseudocode of the spec without State, a
History Window or a cursor, for the statements that say what a whole ENCODE or DECODE computes. -/

namespace Sys2Proof.Reference

open Sys2Proof.Machine

/-! ### Run/Mask (R71-R74, R120) -/

/-- The entries of a chain at the front of `bs`, `c` of them (R71): the entries, how many bytes are read, and the bytes
after them, `none` when end-of-data cuts an entry (R120, R127: a cut mask leaves its value byte read). -/
def readEntries : Nat → List Byte → List (Byte × Mask) × Nat × Option (List Byte)
  | 0, bs => ([], 0, some bs)
  | c + 1, v :: m0 :: m1 :: m2 :: m3 :: bs =>
    let r := readEntries c bs
    ((v, be32 m0 m1 m2 m3) :: r.1, 5 + r.2.1, r.2.2)
  | _ + 1, [] => ([], 0, none)
  | _ + 1, _ :: _ => ([], 1, none)

/-- P, the OR of the masks (R71, R123). -/
def patternOf (es : List (Byte × Mask)) : Mask := es.foldl (fun p e => p ||| e.2) 0

/-- How many 0 bits P has at MSB-first positions below `i` (R73). -/
def zerosBelow (p : Mask) (i : Nat) : Nat := ((List.range i).filter fun j => !p.getMsbD j).length

/-- Slot `i` of a Chunk (R73, R122, R130): the value of the last entry whose mask covers the slot, else the literal whose
number is the count of uncovered slots before it. -/
def slotByte (es : List (Byte × Mask)) (lits : List Byte) (i : Nat) : Byte :=
  match es.reverse.find? fun e => e.2.getMsbD i with
  | some e => e.1
  | none => lits.getD (zerosBelow (patternOf es) i) 0

/-- The Chunk of a chain (R71, R125). -/
def chunkOf (es : List (Byte × Mask)) (lits : List Byte) : List Byte := (List.range 32).map (slotByte es lits)

/-- RM_DECODE (R120) on the bytes from SRC_START to SRC_LEN: the result, and how many bytes are read. The first argument
bounds the number of chains. -/
def rmDecodeFuel : Nat → List Byte → List Byte × Nat
  | 0, _ => ([], 0)
  | _ + 1, [] => ([], 0)
  | n + 1, c :: bs =>
    if c = 0xFF#8 then ([], 1)
    else
      match readEntries c.toNat bs with
      | (_, k, none) => ([], 1 + k)
      | (es, k, some rest) =>
        let lits := zerosBelow (patternOf es) 32
        if rest.length < lits then ([], 1 + k + rest.length)
        else
          let r := rmDecodeFuel n (rest.drop lits)
          (chunkOf es (rest.take lits) ++ r.1, 1 + k + lits + r.2)

/-- RM_DECODE (R120); each chain reads at least one byte. -/
def rmDecode (bs : List Byte) : List Byte × Nat := rmDecodeFuel bs.length bs

/-- The Chunks of a RawBlock (R101): Chunk `k` is `raw[32k .. 32k+32)`, and there are ⌊n/32⌋ of them. -/
def chunks (raw : List Byte) : List (List Byte) :=
  (List.range (raw.length / 32)).map fun k => (raw.drop (32 * k)).take 32

/-- RM_ENCODE (R100): the Chunks' chains in order, then the terminator bytes. -/
def rmEncodeStream (raw : List Byte) : List Byte :=
  let body := (chunks raw).flatMap rmChainBytes
  body ++ rmTerminate body.length

/-! ### Sliding-Window (R76-R81, R146, R160, R180) -/

/-- The byte a decoder's window holds at position `p` after it has emitted `out` (R144, R146): the last byte emitted at an
index congruent to `p − 0xFEE` modulo 4096, else the fill byte. -/
def windowByte (fill : Byte) (out : List Byte) (p : Nat) : Byte :=
  let age := (0xFEE + out.length + 4095 - p % 4096) % 4096
  if age < out.length then out.getD (out.length - 1 - age) 0 else fill

/-- `n` bytes of a match copied from window position `p` on, one at a time, stopping at SIZE (R147, R184-R186). -/
def copyBytes (fill : Byte) (size : Nat) : Nat → Nat → List Byte → List Byte
  | 0, _, out => out
  | n + 1, p, out =>
    if size ≤ out.length then out else copyBytes fill size n (p + 1) (out ++ [windowByte fill out p])

/-- How a Sliding-Window decode ends: with the result and the number of bytes read, or by end-of-data after that many
bytes (R180, R188). -/
inductive SwResult where
  /-- The result has SIZE bytes. -/
  | done (out : List Byte) (read : Nat)
  /-- A read met end-of-data. -/
  | exhausted (read : Nat)
  deriving DecidableEq, Repr

/-- The rest of SW_DECODE (R180) when `bit` flag bits of `flags` are used up, `read` bytes have been read and `out` has
been emitted. -/
def swTokens (fill : Byte) (size : Nat) : Byte → Nat → List Byte → Nat → List Byte → SwResult
  | _, _, [], read, out => if size ≤ out.length then .done out read else .exhausted read
  | flags, bit, b0 :: bs, read, out =>
    if size ≤ out.length then .done out read
    else if 8 ≤ bit then swTokens fill size b0 0 bs (read + 1) out
    else if flags.getLsbD bit then swTokens fill size flags (bit + 1) bs (read + 1) (out ++ [b0])
    else
      match bs with
      | [] => .exhausted read
      | b1 :: rest =>
        swTokens fill size flags (bit + 1) rest (read + 2)
          (copyBytes fill size (tokenLen (be16 b0 b1)) (tokenOff (be16 b0 b1)).toNat out)

/-- SW_DECODE (R180). -/
def swDecode (fill : Byte) : List Byte → SwResult
  | b0 :: b1 :: bs => swTokens fill (be16 b0 b1).toNat 0 8 bs 2 []
  | _ => .exhausted 0

/-- A token of a Sliding-Window stream (R79, R80). -/
inductive Token where
  /-- A literal. -/
  | lit (b : Byte)
  /-- A match. -/
  | copy (p : WinPos) (len : Nat)
  deriving DecidableEq, Repr

/-- A token's bytes (R79, R80). -/
def Token.bytes : Token → List Byte
  | .lit b => [b]
  | .copy p len => [p.extractLsb' 0 8, p.extractLsb' 8 4 ++ BitVec.ofNat 4 (len - 3)]

/-- A group's flag byte as a number (R78, R167): bit `j` is 1 exactly when token `j` is a literal. -/
def flagNumber : List Token → Nat
  | [] => 0
  | .lit _ :: ts => 1 + 2 * flagNumber ts
  | .copy _ _ :: ts => 2 * flagNumber ts

/-- A group: its flag byte and its tokens' bytes (R76, R168). -/
def groupBytes (g : List Token) : List Byte := BitVec.ofNat 8 (flagNumber g) :: g.flatMap Token.bytes

/-- The tokens in groups of 8, the last group of 1 to 8 (R168); the first argument bounds the number of groups. -/
def groups : Nat → List Token → List (List Token)
  | 0, _ => []
  | _ + 1, [] => []
  | n + 1, t :: ts => (t :: ts).take 8 :: groups n ((t :: ts).drop 8)

/-- The tokens SW_ENCODE emits for the input `rest` when the input `before` has been consumed (R160): the window holds
what has been consumed, the longest match is taken when its length is 3 or more (R164), else a literal. The first
argument bounds the number of tokens. -/
def tokens (fill : Byte) (tie : Config.Tie) : Nat → List Byte → List Byte → List Token
  | 0, _, _ => []
  | _ + 1, _, [] => []
  | n + 1, before, b :: bs =>
    let found := swSearch tie ((History.seed fill 0xFEE#12).pushAll before) (b :: bs)
    if 3 ≤ found.2 then
      .copy found.1 found.2 :: tokens fill tie n (before ++ (b :: bs).take found.2) ((b :: bs).drop found.2)
    else .lit b :: tokens fill tie n (before ++ [b]) bs

/-- SW_ENCODE (R160): the header, then the tokens in groups. -/
def swEncodeStream (fill : Byte) (tie : Config.Tie) (raw : List Byte) : List Byte :=
  let ts := tokens fill tie raw.length [] raw
  bytes16 (BitVec.ofNat 16 raw.length) ++ (groups ts.length ts).flatMap groupBytes

end Sys2Proof.Reference
end

