-- ==== Sys2Proof/Certificates/Slice0/Obligations.lean ====
section
/-! DEFINITION. The statements for the provers, from the numbered rules of the spec. -/

open Sys2Proof Sys2Proof.Machine Sys2Proof.Reference

/-! ### Encoding -/

/-- Decoding an encoded well-formed instruction gives it back, whatever bytes follow (R71, R74, R77-R80, R90; for the
history port in the packing of log 6, R91). -/
def Obligations.DecodeOfEncodeIsTheInstruction : Prop :=
  ∀ (i : Instr) (rest : List Byte), i.WellFormed = true →
    decode i.position (encode i ++ rest) = .ok (i, rest)

/-- Outside the history port, whose unused operand lines are not part of an instruction, a decoded instruction is well
formed, stands at the position it was read at, and encodes to the bytes read (R71-R80, R90). -/
def Obligations.EncodeOfDecodeIsTheBytesRead : Prop :=
  ∀ (p : Position) (bs : List Byte) (i : Instr) (rest : List Byte), p ≠ .histPort →
    decode p bs = .ok (i, rest) → i.WellFormed = true ∧ i.position = p ∧ encode i ++ rest = bs

/-- Every byte sequence that is long enough is a legal element at every stream position, of exactly the position's width
(R84, R86-R88). -/
def Obligations.EveryStreamByteSequenceIsAnElement : Prop :=
  ∀ (p : Position) (bs : List Byte), p ≠ .command → p ≠ .histPort → p.width ≤ bs.length →
    ∃ i, decode p bs = .ok (i, bs.drop p.width)

/-- The fields of a match token and the encoder's two bytes (R80). -/
def Obligations.MatchTokenFields : Prop :=
  (∀ B0 B1 : Byte,
    let T : BitVec 16 := (B0.setWidth 16 <<< 8) ||| B1.setWidth 16
    ∃ (off : WinPos) (len : Nat), decode .swMatch [B0, B1] = .ok (.swMatch off len, []) ∧
      len = (T &&& 0xF).toNat + 3 ∧
      off.setWidth 16 = ((T &&& 0xF0) <<< 4) ||| (T >>> 8) ∧
      off.extractLsb' 0 8 = T.extractLsb' 8 8 ∧ off.extractLsb' 8 4 = T.extractLsb' 4 4 ∧
      off.toNat = B1.toNat / 16 * 256 + B0.toNat ∧ 3 ≤ len ∧ len ≤ 18) ∧
  ∀ (off : WinPos) (len : Nat), 3 ≤ len → len ≤ 18 →
    encode (.swMatch off len) =
      [off.extractLsb' 0 8, ((off.extractLsb' 8 4).setWidth 8 <<< 4) ||| BitVec.ofNat 8 (len - 3)]

/-- Source reads of 1, 2 and 4 bytes, up to the last byte of the source, are big-endian, and mixed-width views agree
(R51). -/
def Obligations.SourceReadsAreBigEndian : Prop :=
  ∀ (s : State) (a : Nat),
    (a + 1 ≤ s.srcLen → memRead s a 1 = some [srcByte s a]) ∧
    (a + 2 ≤ s.srcLen → memRead s a 2 = some [srcByte s a, srcByte s (a + 1)]) ∧
    (a + 4 ≤ s.srcLen →
      memRead s a 4 = some [srcByte s a, srcByte s (a + 1), srcByte s (a + 2), srcByte s (a + 3)]) ∧
    be16 (srcByte s a) (srcByte s (a + 1)) =
      ((srcByte s a).setWidth 16 <<< 8) ||| (srcByte s (a + 1)).setWidth 16 ∧
    be32 (srcByte s a) (srcByte s (a + 1)) (srcByte s (a + 2)) (srcByte s (a + 3)) =
      ((srcByte s a).setWidth 32 <<< 24) ||| ((srcByte s (a + 1)).setWidth 32 <<< 16) |||
        ((srcByte s (a + 2)).setWidth 32 <<< 8) ||| (srcByte s (a + 3)).setWidth 32 ∧
    be32 (srcByte s a) (srcByte s (a + 1)) (srcByte s (a + 2)) (srcByte s (a + 3)) =
      ((be16 (srcByte s a) (srcByte s (a + 1))).setWidth 32 <<< 16) |||
        (be16 (srcByte s (a + 2)) (srcByte s (a + 3))).setWidth 32

/-- Words written out from the spec's encodings decode to the instructions they stand for (R71, R74, R77-R80, R90, R91;
P1, P2). -/
def Obligations.WordsOfTheSpecDecode : Prop :=
  decode .rmCount [0x02] = .ok (.rmChain 2, []) ∧
  decode .rmEntry [0x11, 0xFC, 0x00, 0x00, 0x00] = .ok (.rmEntry 0x11 0xFC000000, []) ∧
  decode .rmCount [0xFF, 0x01] = .ok (.rmTerm, [0x01]) ∧
  decode .swHdr [0x01, 0x2C] = .ok (.swHdr 300, []) ∧
  decode .swMatch [0xEE, 0xF0] = .ok (.swMatch 0xFEE 3, []) ∧
  decode .swMatch [0xFE, 0xF1] = .ok (.swMatch 0xFFE 4, []) ∧
  decode .command [0x02] = .ok (.cmdEncode, []) ∧
  decode .command [0x13] = .error .reservedCommand

/-! ### The step -/

/-- A step runs the decoded instruction: the element at SRC_POS of a running DECODE (R21), the command of the host's next
access when that is a write to CMD (R210), with the access taken off `bus`, and a request at the history port (R91), with
the request taken off the port. The model's choices in it: that an element of a running DECODE is a step (log 11), that
the host's accesses stand in `bus` (log 5), that a CMD write of a value wider than 8 bits issues its low 8 bits (log 10),
and that a port request is served first, in every phase and whatever else is pending (log 6). -/
def Obligations.StepRunsDecodedInstruction : Prop :=
  (∀ (s : State) (p : Position) (i : Instr) (rest : List Byte), s.port = none → streamPosition s = some p →
    s.srcPos + p.width ≤ s.srcLen → decode p (srcBytes s s.srcPos p.width) = .ok (i, rest) →
    step s = exec i s) ∧
  (∀ (s : State) (n v : Nat) (more : List HostAccess) (i : Instr) (rest : List Byte), s.port = none →
    s.phase = .idle → s.bus = .writeReg n v :: more → regOfNumber n = some .cmd →
    decode .command [BitVec.ofNat 8 v] = .ok (i, rest) → step s = exec i { s with bus := more }) ∧
  ∀ (s : State) (r : PortReq) (i : Instr), s.port = some r → decodePort r = .ok i →
    step s = exec i { s with port := none }

/-- A CMD write with a nonzero high nibble or a low nibble of 4 or more is ILLEGAL_COMMAND, and nothing else changes but
OUT_LEN (R225); OUT's bytes become unspecified (R230). That a write of a value wider than 8 bits is the write of its low
8 bits is the model's choice (log 10), as is the place of the write in `bus` (log 5). -/
def Obligations.ReservedCommandIsIllegal : Prop :=
  ∀ (s : State) (v : Nat) (more : List HostAccess), s.port = none → s.phase = .idle →
    s.bus = .writeReg 0 v :: more →
    ((BitVec.ofNat 8 v).extractLsb' 4 4 ≠ 0 ∨ 4 ≤ ((BitVec.ofNat 8 v).extractLsb' 0 4).toNat) →
    ∃ t, step s = .next t ∧ Failed 5 0 t ∧ t.status = 0x52 ∧
      t = { s with bus := more, status := t.status, errPos := t.errPos, outLen := t.outLen, out := t.out, outEpoch := t.outEpoch }

/-- With no command running, no port request and no host access pending, CORE waits and nothing changes (R239, R251). -/
def Obligations.CoreWaitsForTheHost : Prop :=
  ∀ s : State, s.port = none → s.phase = .idle → s.bus = [] → step s = .next s

/-- An operation code 11 at the history port is refused by name (R91, I11). -/
def Obligations.ReservedPortOperationIsRefused : Prop :=
  ∀ (s : State) (r : PortReq), s.port = some r → r.hop = 3 → step s = .refused .reservedPortOp

/-- End of data ends a Run/Mask decode successfully with the result built so far, SRC_POS being the position of the failed
read; a value byte whose mask is cut has been read (R127). A result longer than OUT_CAP is OUTPUT_OVERFLOW (R228). -/
def Obligations.RmEndOfDataIsATerminator : Prop :=
  ∀ s : State, s.port = none →
    ((s.phase = .rmCount ∨ s.phase = .rmLit) ∧ s.srcLen < s.srcPos + 1 ∨ s.phase = .rmEntry ∧ s.srcLen < s.srcPos + 5) →
    ∃ t, step s = .next t ∧ CommandFrame s t ∧ t.engine = s.engine ∧ t.hist = s.hist ∧
      (s.rmDec.res.length ≤ s.params.outCap → Done s.rmDec.res t ∧
        t.srcPos = if s.phase = .rmEntry ∧ s.srcPos + 1 ≤ s.srcLen then s.srcPos + 1 else s.srcPos) ∧
      (s.params.outCap < s.rmDec.res.length → Failed 7 0 t ∧ t.srcPos = s.posBefore)

/-- End of data in a Sliding-Window decode is SOURCE_EXHAUSTED at the position of the failed read (R188, R222). -/
def Obligations.SwEndOfDataIsSourceExhausted : Prop :=
  ∀ (s : State) (p : Position), s.port = none → streamPosition s = some p →
    (p = .swHdr ∨ p = .swFlags ∨ p = .swLit ∨ p = .swMatch) → s.srcLen < s.srcPos + p.width →
    ∃ t, step s = .next t ∧ Failed 2 s.srcPos t ∧ t.status = 0x22 ∧ t.srcPos = s.srcPos ∧ CommandFrame s t ∧
      t.engine = s.engine

/-! ### Reset and the invariant -/

/-- After reset every interface register reads 0, no codec is bound, no command is running, and no byte of SRC, OUT or
NAME has a value of its own (R42, R250). That no host access and no port request is pending is the model's choice (log 5,
log 6). -/
def Obligations.ResetValues : Prop :=
  (∀ r : Reg, readReg State.reset r = 0) ∧ State.reset.phase = .idle ∧
  (∀ a, State.reset.src.lookup a = none ∧ State.reset.out.lookup a = none ∧ State.reset.name.lookup a = none) ∧
  State.reset.bus = [] ∧ State.reset.port = none

/-- The invariant holds after reset. -/
def Obligations.ResetIsOk : Prop := State.reset.Ok

/-- Every step keeps the invariant, between commands and inside a running DECODE (R22, R24, R25, R27, R28, R31-R34, R125,
R132, R186). -/
def Obligations.StepKeepsOk : Prop := ∀ s t : State, s.Ok → step s = .next t → t.Ok

/-- A command runs to completion in one step: a step from a state in which no command is running ends in one (R210). -/
def Obligations.EveryCommandRunsToCompletion : Prop :=
  ∀ s t : State, s.phase = .idle → step s = .next t → t.phase = .idle

/-- The DECODE command is what its stream elements do, one step each, from the state in which it starts (R21, R57, R120,
R180, R210). -/
def Obligations.DecodeCommandIsItsElementSteps : Prop :=
  ∀ s : State, s.port = none → s.engine = 1 ∨ s.engine = 2 ∨ s.engine = 3 → s.srcLen ≤ s.params.srcCap →
    s.srcStart ≤ s.srcLen →
    ∃ (n : Nat) (t : State), n ≤ s.srcLen - s.srcStart + 1 ∧ core.run n (beginDecode s) = .next t ∧
      exec .cmdDecode s = .next t

/-! ### What no instruction does -/

/-- No instruction writes SRC, NAME, SRC_START, SRC_LEN or NAME_LEN (R22, R31, R33, R56, R254). -/
def Obligations.NoInstructionWritesTheSource : Prop :=
  ∀ (i : Instr) (s t : State), exec i s = .next t →
    t.srcStart = s.srcStart ∧ t.srcLen = s.srcLen ∧ t.nameLen = s.nameLen ∧
    (∀ a, srcByte t a = srcByte s a) ∧ (∀ a, nameByte t a = nameByte s a) ∧ t.params = s.params

/-- ENGINE is written by SELECT alone (R22, R25, R41). -/
def Obligations.OnlySelectWritesEngine : Prop :=
  ∀ (i : Instr) (s t : State), i ≠ .cmdSelect → exec i s = .next t → t.engine = s.engine

/-- A command that ends in ERROR has delivered nothing: OUT_LEN = 0; after SOURCE_EXHAUSTED SRC_POS equals ERR_POS (which
position that is, `SwEndOfDataIsSourceExhausted` and `SwDecodeDeliversTheBytes` say), else ERR_POS = 0 and SRC_POS is as
before the command; ENGINE is unchanged but after a failed SELECT,
which leaves NONE; nothing the host has written changes (R230). -/
def Obligations.FailureDeliversNothing : Prop :=
  ∀ (i : Instr) (s t : State), i = .cmdSelect ∨ i = .cmdEncode ∨ i = .cmdDecode → exec i s = .next t →
    stateField t.status = 2 →
    t.outLen = 0 ∧
    (errField t.status = 2 → t.srcPos = t.errPos) ∧
    (errField t.status ≠ 2 → t.errPos = 0 ∧ t.srcPos = s.srcPos) ∧
    (i = .cmdSelect → t.engine = 0) ∧ (i ≠ .cmdSelect → t.engine = s.engine) ∧ CommandFrame s t

/-- SW_A and SW_B are behaviourally identical: every instruction gives the same OUT, OUT_LEN, SRC_POS, STATUS and ERR_POS
with ENGINE = 2 and with ENGINE = 3 (R204). -/
def Obligations.SwIdentifiersBehaveAlike : Prop :=
  ∀ (i : Instr) (s t : State), exec i { s with engine := 2 } = .next t →
    ∃ u, exec i { s with engine := 3 } = .next u ∧ (∀ a, outByte u a = outByte t a) ∧ u.outLen = t.outLen ∧
      u.srcPos = t.srcPos ∧ u.status = t.status ∧ u.errPos = t.errPos ∧ { t with engine := u.engine } = u

/-- The outcome of ENCODE and DECODE depends only on ENGINE, the source range, the bytes SRC[0..SRC_LEN) and the
parameters, not on any earlier command (R41, R214, R252). -/
def Obligations.CommandsDependOnlyOnTheirInputs : Prop :=
  ∀ (i : Instr) (s s' t t' : State), i = .cmdEncode ∨ i = .cmdDecode → s'.engine = s.engine →
    s'.srcStart = s.srcStart → s'.srcLen = s.srcLen → s'.params = s.params →
    (∀ a, a < s.srcLen → srcByte s' a = srcByte s a) → exec i s = .next t → exec i s' = .next t' →
    t'.status = t.status ∧ t'.errPos = t.errPos ∧ t'.outLen = t.outLen ∧
    (∀ a, a < t.outLen → outByte t' a = outByte t a) ∧
    (stateField t.status = 1 → t'.srcPos = t.srcPos)

/-! ### The History Window -/

/-- HIST.SEED sets every position to the fill byte and the cursor, and changes nothing else (R141). -/
def Obligations.HistSeedFillsTheWindow : Prop :=
  ∀ (f : Byte) (c : WinPos) (s : State), ∃ t, exec (.histSeed f c) s = .next t ∧
    (∀ a, t.hist.read a = f) ∧ t.hist.pos = c ∧ t = { s with hist := t.hist }

/-- HIST.PUSH writes the byte at the cursor and advances the cursor modulo 4096, and changes nothing else (R142). -/
def Obligations.HistPushWritesAtTheCursor : Prop :=
  ∀ (b : Byte) (s : State), s.hist.wf = true → ∃ t, exec (.histPush b) s = .next t ∧
    (∀ a, a < 4096 → t.hist.read a = if a = s.hist.pos.toNat then b else s.hist.read a) ∧
    t.hist.pos.toNat = (s.hist.pos.toNat + 1) % 4096 ∧ t = { s with hist := t.hist }

/-- HIST.READ returns the byte at the address, reduced modulo 4096, and changes no state; the byte is on the port's data
lines (R91, R143). -/
def Obligations.HistReadChangesNoState : Prop :=
  (∀ (a : WinPos) (s : State), exec (.histRead a) s = .next { s with portData := s.hist.read a.toNat }) ∧
  ∀ (h : History) (a : Nat), h.read a = h.read (a % 4096)

/-- After `k` pushes since a seed, the cursor is `(c + k) mod 4096`, the last 4096 pushed bytes stand before it in order,
and every other position holds the fill byte (R146). -/
def Obligations.WindowIsACircularFifo : Prop :=
  ∀ (f : Byte) (c : WinPos) (bs : List Byte),
    let h := (History.seed f c).pushAll bs
    h.pos.toNat = (c.toNat + bs.length) % 4096 ∧
    (∀ j, j < bs.length → j < 4096 → bs[bs.length - 1 - j]? = some (h.read (c.toNat + (bs.length - 1 - j)))) ∧
    ∀ a, a < 4096 → (∀ j, j < bs.length → j < 4096 → (c.toNat + (bs.length - 1 - j)) % 4096 ≠ a) → h.read a = f

/-- The byte that step `k` of a copy from `p` returns is Dview(p, k), evaluated before step 0 (R147, R148). -/
def Obligations.CopyStepsReturnDview : Prop :=
  ∀ (h : History) (p : WinPos), h.wf = true →
    (∀ k, k < 18 →
      let d := (h.pos - p).toNat
      h.dview p k = if 0 < d ∧ d ≤ k then h.dview p (k - d) else h.read ((p.toNat + k) % 4096)) ∧
    ∀ (n size : Nat) (res : List Byte), n ≤ 18 → res.length + n ≤ size →
      (copySteps size p n 0 h res).2 = res ++ (List.range n).map (h.dview p) ∧
      (copySteps size p n 0 h res).1 = h.pushAll ((List.range n).map (h.dview p))

/-! ### Run/Mask decoder elements -/

/-- RM.CHAIN: COUNT is `c` and PATTERN is 0, `c` entries follow, or with `c = 0` the 32 literals from slot 0 on; SRC_POS
advances 1; RES, the other engines' working state, the History Window, the other interface registers and every byte of
SRC, OUT and NAME are unchanged (R85, R121). -/
def Obligations.RmChainStartsAChain : Prop :=
  ∀ (c : Byte) (s : State), ∃ t, exec (.rmChain c) s = .next t ∧
    t.srcPos = s.srcPos + 1 ∧ t.rmDec.count = c ∧ t.rmDec.pattern = 0 ∧ t.rmDec.res = s.rmDec.res ∧
    (c ≠ 0 → t.phase = .rmEntry ∧ t.rmDec.left = c.toNat) ∧
    (c = 0 → t.phase = .rmLit ∧ t.rmDec.slot = 0) ∧
    Frame s t ∧ t.hist = s.hist ∧ t.rmEnc = s.rmEnc ∧ t.swEnc = s.swEnc ∧ t.swDec = s.swDec ∧
    t.posBefore = s.posBefore

/-- RM.ENTRY: the mask joins PATTERN, and the value goes to exactly the slots whose mask bit 31 − i is 1; SRC_POS advances
5. The next element is another entry while the chain has one; after the last the first literal's slot is the lowest whose
PATTERN bit is 0, and with none the Chunk is appended to RES (R120, R122, R124, R125, R130). -/
def Obligations.RmEntryPlacesItsValue : Prop :=
  ∀ (v : Byte) (m : Mask) (s : State), s.rmDec.chunk.length = 32 → ∃ t, exec (.rmEntry v m) s = .next t ∧
    t.srcPos = s.srcPos + 5 ∧ t.rmDec.pattern = s.rmDec.pattern ||| m ∧
    (∀ i, i < 32 → t.rmDec.chunk[i]? = if m.getLsbD (31 - i) then some v else s.rmDec.chunk[i]?) ∧
    (1 < s.rmDec.left → t.phase = .rmEntry ∧ t.rmDec.left = s.rmDec.left - 1 ∧ t.rmDec.res = s.rmDec.res) ∧
    (s.rmDec.left = 1 → t.rmDec.pattern = 0xFFFFFFFF#32 →
      t.phase = .rmCount ∧ t.rmDec.res = s.rmDec.res ++ t.rmDec.chunk) ∧
    (s.rmDec.left = 1 → t.rmDec.pattern ≠ 0xFFFFFFFF#32 →
      t.phase = .rmLit ∧ t.rmDec.res = s.rmDec.res ∧ t.rmDec.slot < 32 ∧
      t.rmDec.pattern.getLsbD (31 - t.rmDec.slot) = false ∧
      ∀ j, j < t.rmDec.slot → t.rmDec.pattern.getLsbD (31 - j) = true) ∧
    Frame s t ∧ t.hist = s.hist ∧ t.rmEnc = s.rmEnc ∧ t.swEnc = s.swEnc ∧ t.swDec = s.swDec ∧
    t.rmDec.count = s.rmDec.count ∧ t.posBefore = s.posBefore

/-- RM.LIT: the byte fills the current slot and no other; SRC_POS advances 1. The next literal's slot is the next one whose
PATTERN bit is 0; with none left the Chunk is appended to RES (R73, R124, R125). -/
def Obligations.RmLiteralFillsItsSlot : Prop :=
  ∀ (b : Byte) (s : State), s.rmDec.chunk.length = 32 → s.rmDec.slot < 32 → ∃ t, exec (.rmLit b) s = .next t ∧
    t.srcPos = s.srcPos + 1 ∧ t.rmDec.pattern = s.rmDec.pattern ∧
    (∀ i, i < 32 → t.rmDec.chunk[i]? = if i = s.rmDec.slot then some b else s.rmDec.chunk[i]?) ∧
    ((∃ j, s.rmDec.slot < j ∧ j < 32 ∧ s.rmDec.pattern.getLsbD (31 - j) = false) →
      t.phase = .rmLit ∧ t.rmDec.res = s.rmDec.res ∧ s.rmDec.slot < t.rmDec.slot ∧ t.rmDec.slot < 32 ∧
      s.rmDec.pattern.getLsbD (31 - t.rmDec.slot) = false ∧
      ∀ j, s.rmDec.slot < j → j < t.rmDec.slot → s.rmDec.pattern.getLsbD (31 - j) = true) ∧
    ((∀ j, s.rmDec.slot < j → j < 32 → s.rmDec.pattern.getLsbD (31 - j) = true) →
      t.phase = .rmCount ∧ t.rmDec.res = s.rmDec.res ++ t.rmDec.chunk) ∧
    Frame s t ∧ t.hist = s.hist ∧ t.rmEnc = s.rmEnc ∧ t.swEnc = s.swEnc ∧ t.swDec = s.swDec ∧
    t.rmDec.count = s.rmDec.count ∧ t.posBefore = s.posBefore

/-- RM.TERM: the decode ends with RES, SRC_POS just past the byte (R126); a RES longer than OUT_CAP is OUTPUT_OVERFLOW
(R228). -/
def Obligations.RmTermEndsTheDecode : Prop :=
  ∀ s : State,
    (s.rmDec.res.length ≤ s.params.outCap → ∃ t, exec .rmTerm s = .next t ∧ Done s.rmDec.res t ∧
      t.srcPos = s.srcPos + 1 ∧ CommandFrame s t ∧ t.engine = s.engine ∧ t.hist = s.hist) ∧
    (s.params.outCap < s.rmDec.res.length → ∃ t, exec .rmTerm s = .next t ∧ Failed 7 0 t ∧
      t.srcPos = s.posBefore ∧ CommandFrame s t ∧ t.engine = s.engine ∧ t.hist = s.hist)

/-! ### Sliding-Window decoder elements -/

/-- SW.HDR: SIZE is set, the window is seeded with HIST_FILL and the cursor 0xFEE, SRC_POS advances 2, and a flag byte
follows; with SIZE = 0 the command ends with the empty result (R141, R181, R187). -/
def Obligations.SwHeaderSeedsTheWindow : Prop :=
  ∀ (size : BitVec 16) (s : State), s.swDec.res = [] → ∃ t, exec (.swHdr size) s = .next t ∧
    t.srcPos = s.srcPos + 2 ∧ t.swDec.size = size ∧ t.hist.pos = 0xFEE ∧
    (∀ a, t.hist.read a = s.params.histFill) ∧ t.swDec.res = [] ∧ CommandFrame s t ∧ t.engine = s.engine ∧
    t.rmEnc = s.rmEnc ∧ t.rmDec = s.rmDec ∧ t.swEnc = s.swEnc ∧ t.posBefore = s.posBefore ∧
    (size ≠ 0 → t.phase = .swFlags ∧ Frame s t) ∧
    (size = 0 → Done [] t)

/-- SW.FLAGS: the flag byte opens a group whose first token is the one bit 0 describes; SRC_POS advances 1 (R182). -/
def Obligations.SwFlagsOpensAGroup : Prop :=
  ∀ (f : Byte) (s : State), s.swDec.res.length < s.swDec.size.toNat → ∃ t, exec (.swFlags f) s = .next t ∧
    t.srcPos = s.srcPos + 1 ∧ t.swDec = { s.swDec with flags := f, bit := 0 } ∧ t.phase = .swToken ∧
    streamPosition t = some (if f.getLsbD 0 then .swLit else .swMatch) ∧
    Frame s t ∧ t.hist = s.hist ∧ t.rmEnc = s.rmEnc ∧ t.rmDec = s.rmDec ∧ t.swEnc = s.swEnc ∧
    t.posBefore = s.posBefore

/-- SW.LIT: the byte is emitted and pushed into the window, and SRC_POS advances 1; then the next flag bit's token follows,
or a flag byte after the eighth, or the command ends when SIZE bytes are out (R182, R183, R186). -/
def Obligations.SwLiteralEmitsAndPushes : Prop :=
  ∀ (b : Byte) (s : State), s.hist.wf = true → s.swDec.res.length < s.swDec.size.toNat →
    ∃ t, exec (.swLit b) s = .next t ∧
      t.swDec = { s.swDec with res := s.swDec.res ++ [b], bit := s.swDec.bit + 1 } ∧
      (∀ a, a < 4096 → t.hist.read a = if a = s.hist.pos.toNat then b else s.hist.read a) ∧
      t.hist.pos.toNat = (s.hist.pos.toNat + 1) % 4096 ∧
      CommandFrame s t ∧ t.engine = s.engine ∧ t.rmEnc = s.rmEnc ∧ t.rmDec = s.rmDec ∧ t.swEnc = s.swEnc ∧
      t.posBefore = s.posBefore ∧
      (s.swDec.res.length + 1 < s.swDec.size.toNat → t.srcPos = s.srcPos + 1 ∧ Frame s t ∧
        t.phase = if s.swDec.bit + 1 < 8 then .swToken else .swFlags) ∧
      (s.swDec.res.length + 1 = s.swDec.size.toNat → s.swDec.size.toNat ≤ s.params.outCap →
        t.srcPos = s.srcPos + 1 ∧ Done (s.swDec.res ++ [b]) t) ∧
      (s.swDec.res.length + 1 = s.swDec.size.toNat → s.params.outCap < s.swDec.size.toNat →
        t.srcPos = s.posBefore ∧ Failed 7 0 t)

/-- SW.MATCH: LEN bytes, or as many as SIZE leaves room for, are copied byte by byte from window position OFF, each being
Dview of the window before the token, and each is emitted and pushed; SRC_POS advances 2; then the decode goes on as
after a literal (R147, R184-R186). -/
def Obligations.SwMatchCopiesFromTheWindow : Prop :=
  ∀ (off : WinPos) (len : Nat) (s : State), len ≤ 18 → s.hist.wf = true →
    s.swDec.res.length < s.swDec.size.toNat →
    let copied := (List.range (min len (s.swDec.size.toNat - s.swDec.res.length))).map (s.hist.dview off)
    ∃ t, exec (.swMatch off len) s = .next t ∧
      t.swDec = { s.swDec with res := s.swDec.res ++ copied, bit := s.swDec.bit + 1 } ∧
      t.hist = s.hist.pushAll copied ∧
      CommandFrame s t ∧ t.engine = s.engine ∧ t.rmEnc = s.rmEnc ∧ t.rmDec = s.rmDec ∧ t.swEnc = s.swEnc ∧
      t.posBefore = s.posBefore ∧
      (s.swDec.res.length + len < s.swDec.size.toNat → t.srcPos = s.srcPos + 2 ∧ Frame s t ∧
        t.phase = if s.swDec.bit + 1 < 8 then .swToken else .swFlags) ∧
      (s.swDec.size.toNat ≤ s.swDec.res.length + len → s.swDec.size.toNat ≤ s.params.outCap →
        t.srcPos = s.srcPos + 2 ∧ Done (s.swDec.res ++ copied) t) ∧
      (s.swDec.size.toNat ≤ s.swDec.res.length + len → s.params.outCap < s.swDec.size.toNat →
        t.srcPos = s.posBefore ∧ Failed 7 0 t)

/-! ### Commands -/

/-- NOP changes no state (R211). -/
def Obligations.NopChangesNothing : Prop := ∀ s : State, exec .cmdNop s = .next s

/-- SELECT with a registered identifier in NAME[0..NAME_LEN) binds its engine: 1 for NAME_RM, 2 for NAME_SW_A, 3 for
NAME_SW_B; STATUS = 0x01, ERR_POS = 0, and nothing else changes (R30, R200-R202). -/
def Obligations.SelectBindsTheNamedEngine : Prop :=
  ∀ s : State, s.params.legal = true →
    (nameBytes s 0 s.nameLen.toNat = s.params.nameRm.bytes →
      exec .cmdSelect s = .next { s with engine := 0x01, status := 0x01, errPos := 0 }) ∧
    (nameBytes s 0 s.nameLen.toNat = s.params.nameSwA.bytes →
      exec .cmdSelect s = .next { s with engine := 0x02, status := 0x01, errPos := 0 }) ∧
    (nameBytes s 0 s.nameLen.toNat = s.params.nameSwB.bytes →
      exec .cmdSelect s = .next { s with engine := 0x03, status := 0x01, errPos := 0 })

/-- SELECT with an identifier in NAME[0..NAME_LEN) that matches no registry entry fails with UNKNOWN_ALGORITHM and leaves no
engine bound; SRC_POS and what the host has written are unchanged (R203, R221, R230). -/
def Obligations.SelectOfAnUnknownNameFails : Prop :=
  ∀ s : State, nameBytes s 0 s.nameLen.toNat ≠ s.params.nameRm.bytes →
    nameBytes s 0 s.nameLen.toNat ≠ s.params.nameSwA.bytes →
    nameBytes s 0 s.nameLen.toNat ≠ s.params.nameSwB.bytes →
    ∃ t, exec .cmdSelect s = .next t ∧ Failed 1 0 t ∧ t.engine = 0x00 ∧ t.srcPos = s.srcPos ∧ CommandFrame s t ∧
      t.hist = s.hist

/-- Scenario C: the name "UNKNOWN" selects no codec and gives STATUS = 0x12; so does the empty identifier (R200, R207). -/
def Obligations.UnknownAndEmptyNamesSelectNothing : Prop :=
  ∀ s : State, s.params.legal = true →
    (s.nameLen = 7 ∧ nameBytes s 0 7 = [0x55, 0x4E, 0x4B, 0x4E, 0x4F, 0x57, 0x4E] ∨ s.nameLen = 0) →
    ∃ t, exec .cmdSelect s = .next t ∧ t.status = 0x12 ∧ t.engine = 0x00 ∧ t.outLen = 0 ∧ t.errPos = 0

/-- ENCODE and DECODE with no engine bound fail with NO_CODEC, whatever the source range (R224, R229). -/
def Obligations.NoCodecIsCheckedFirst : Prop :=
  ∀ (i : Instr) (s : State), i = .cmdEncode ∨ i = .cmdDecode → s.engine = 0x00 →
    ∃ t, exec i s = .next t ∧ Failed 4 0 t ∧ t.status = 0x42 ∧ t.srcPos = s.srcPos ∧ t.engine = 0x00 ∧
      CommandFrame s t ∧ t.hist = s.hist

/-- ENCODE and DECODE with an engine bound and a source range outside SRC fail with BAD_RANGE (R226, R229). -/
def Obligations.BadRangeIsCheckedBeforeTheEngine : Prop :=
  ∀ (i : Instr) (s : State), i = .cmdEncode ∨ i = .cmdDecode → s.engine = 1 ∨ s.engine = 2 ∨ s.engine = 3 →
    s.params.srcCap < s.srcLen ∨ s.srcLen < s.srcStart →
    ∃ t, exec i s = .next t ∧ Failed 6 0 t ∧ t.status = 0x62 ∧ t.srcPos = s.srcPos ∧ t.engine = s.engine ∧
      CommandFrame s t ∧ t.hist = s.hist

/-- A Sliding-Window ENCODE of more than 65535 bytes fails with INPUT_TOO_LONG, before any output (R161, R223). -/
def Obligations.LongInputIsRefusedBySwEncode : Prop :=
  ∀ s : State, s.engine = 2 ∨ s.engine = 3 → s.srcLen ≤ s.params.srcCap → 65535 < s.srcLen - s.srcStart →
    ∃ t, exec .cmdEncode s = .next t ∧ Failed 3 0 t ∧ t.status = 0x32 ∧ t.srcPos = s.srcPos ∧
      t.engine = s.engine ∧ CommandFrame s t ∧ t.hist = s.hist

/-- ENCODE with the Run/Mask engine delivers the chains of the RawBlock's Chunks and the terminator, SRC_POS past the last
whole Chunk; a result longer than OUT_CAP is OUTPUT_OVERFLOW (R100, R101, R108, R109, R212, R228). The terminator is one
byte 0xFF, or two when the length before it is odd (R108); `EncodedChainsAreCanonical` says what a chain's bytes are. -/
def Obligations.RmEncodeDeliversTheStream : Prop :=
  (∀ n : Nat, rmTerminate n = if n % 2 = 1 then [0xFF#8, 0xFF#8] else [0xFF#8]) ∧
  ∀ s : State, s.engine = 1 → s.srcLen ≤ s.params.srcCap → s.srcStart ≤ s.srcLen →
    let raw := srcBytes s s.srcStart (s.srcLen - s.srcStart)
    ∃ t, exec .cmdEncode s = .next t ∧ CommandFrame s t ∧ t.engine = s.engine ∧ t.hist = s.hist ∧
      ((rmEncodeStream raw).length ≤ s.params.outCap →
        Done (rmEncodeStream raw) t ∧ t.srcPos = s.srcStart + 32 * (raw.length / 32)) ∧
      (s.params.outCap < (rmEncodeStream raw).length → Failed 7 0 t ∧ t.srcPos = s.srcPos)

/-- ENCODE with the Sliding-Window engine delivers the header and the tokens in groups, SRC_POS at SRC_LEN; a result longer
than OUT_CAP is OUTPUT_OVERFLOW (R160, R162, R165-R168, R171, R212, R228). -/
def Obligations.SwEncodeDeliversTheStream : Prop :=
  ∀ s : State, s.engine = 2 ∨ s.engine = 3 → s.srcLen ≤ s.params.srcCap → s.srcStart ≤ s.srcLen →
    s.srcLen - s.srcStart ≤ 65535 →
    let out := swEncodeStream s.params.histFill s.params.swTie (srcBytes s s.srcStart (s.srcLen - s.srcStart))
    ∃ t, exec .cmdEncode s = .next t ∧ CommandFrame s t ∧ t.engine = s.engine ∧
      (out.length ≤ s.params.outCap → Done out t ∧ t.srcPos = s.srcLen) ∧
      (s.params.outCap < out.length → Failed 7 0 t ∧ t.srcPos = s.srcPos)

/-- DECODE with the Run/Mask engine delivers what the format's grammar says the stream stands for, SRC_POS past the last
byte read; it fails only with OUTPUT_OVERFLOW (R71, R73, R120, R127-R130, R213, R228). -/
def Obligations.RmDecodeDeliversTheChunks : Prop :=
  ∀ s : State, s.engine = 1 → s.srcLen ≤ s.params.srcCap → s.srcStart ≤ s.srcLen →
    let r := rmDecode (srcBytes s s.srcStart (s.srcLen - s.srcStart))
    ∃ t, exec .cmdDecode s = .next t ∧ CommandFrame s t ∧ t.engine = s.engine ∧ t.hist = s.hist ∧
      (r.1.length ≤ s.params.outCap → Done r.1 t ∧ t.srcPos = s.srcStart + r.2) ∧
      (s.params.outCap < r.1.length → Failed 7 0 t ∧ t.srcPos = s.srcPos)

/-- DECODE with the Sliding-Window engine delivers what the format's grammar says the stream stands for, SRC_POS past the
last byte read; a stream that ends early is SOURCE_EXHAUSTED at the failed read even when OUT_CAP is too small, and a
result longer than OUT_CAP is OUTPUT_OVERFLOW (R180-R189, R213, R222, R228, R229). -/
def Obligations.SwDecodeDeliversTheBytes : Prop :=
  ∀ s : State, s.engine = 2 ∨ s.engine = 3 → s.srcLen ≤ s.params.srcCap → s.srcStart ≤ s.srcLen →
    ∃ t, exec .cmdDecode s = .next t ∧ CommandFrame s t ∧ t.engine = s.engine ∧
      match swDecode s.params.histFill (srcBytes s s.srcStart (s.srcLen - s.srcStart)) with
      | .done out read =>
        (out.length ≤ s.params.outCap → Done out t ∧ t.srcPos = s.srcStart + read) ∧
        (s.params.outCap < out.length → Failed 7 0 t ∧ t.srcPos = s.srcPos)
      | .exhausted read => Failed 2 (s.srcStart + read) t ∧ t.srcPos = s.srcStart + read

/-- A Run/Mask DECODE never fails on the stream's content or length, and its result is a whole number of Chunks (R131,
R132). -/
def Obligations.RmDecodeNeverFailsOnContent : Prop :=
  ∀ s t : State, s.engine = 1 → s.srcLen ≤ s.params.srcCap → s.srcStart ≤ s.srcLen →
    exec .cmdDecode s = .next t → (t.status = 0x01 ∨ t.status = 0x72) ∧ t.outLen % 32 = 0

/-! ### The encoders -/

/-- The Occurrence Mask of a value has bit 31 − i at 1 exactly when Chunk byte `i` is the value; it has as many 1 bits as
the value occurs in the Chunk, and the masks of distinct values are disjoint (R104). -/
def Obligations.OccurrenceMaskBits : Prop :=
  ∀ (chunk : List Byte) (v : Byte), chunk.length = 32 →
    (∀ i, i < 32 → ((rmMask chunk v).getLsbD (31 - i) = true ↔ chunk[i]? = some v)) ∧
    ((List.range 32).filter fun i => (rmMask chunk v).getLsbD i).length = chunk.count v ∧
    ∀ w, w ≠ v → rmMask chunk v &&& rmMask chunk w = 0

/-- ORDER lists every Candidate, that is every value that occurs more than 5 times, once and in the order of its first
position in the Chunk (R103, R105). -/
def Obligations.OrderIsFirstOccurrenceOrder : Prop :=
  ∀ chunk : List Byte, (rmOrder chunk).Nodup ∧ (∀ v, v ∈ rmOrder chunk ↔ 5 < chunk.count v) ∧
    (rmOrder chunk).Pairwise fun a b => chunk.idxOf a < chunk.idxOf b

/-- The bytes of every chain the encoder produces: the count of the values in ORDER, then, read back as the format's
entries, each of these values in that order with its Occurrence Mask, then the Chunk's bytes that are no Candidates, in
order (R106, R107). The chain is canonical: at most 5 entries, so the count byte is never the terminator, masks that are
pairwise disjoint, each with at least 6 bits (R8, R89). -/
def Obligations.EncodedChainsAreCanonical : Prop :=
  ∀ chunk : List Byte, chunk.length = 32 →
    (rmOrder chunk).length ≤ 5 ∧ (rmChainBytes chunk).head? = some (BitVec.ofNat 8 (rmOrder chunk).length) ∧
    readEntries (rmOrder chunk).length (rmChainBytes chunk).tail =
      ((rmOrder chunk).map fun v => (v, rmMask chunk v), 5 * (rmOrder chunk).length,
        some (chunk.filter fun b => decide (chunk.count b ≤ 5))) ∧
    (∀ v, v ∈ rmOrder chunk → 6 ≤ ((List.range 32).filter fun i => (rmMask chunk v).getLsbD i).length) ∧
    ∀ v w, v ∈ rmOrder chunk → w ∈ rmOrder chunk → v ≠ w → rmMask chunk v &&& rmMask chunk w = 0

/-- A Run/Mask stream's length is odd and at most 33⌊n/32⌋ + 2 (R108, R110). -/
def Obligations.RmStreamLengthIsOdd : Prop :=
  ∀ s t : State, s.engine = 1 → exec .cmdEncode s = .next t → stateField t.status = 1 →
    t.outLen % 2 = 1 ∧ t.outLen ≤ 33 * ((s.srcLen - s.srcStart) / 32) + 2

/-- Run/Mask round trip: DECODE of what ENCODE delivered gives the RawBlock's whole Chunks (R110, R132). -/
def Obligations.RmDecodeOfEncodeIsTheRawBlock : Prop :=
  ∀ s t u : State, s.engine = 1 → exec .cmdEncode s = .next t → stateField t.status = 1 →
    u.engine = 1 → u.srcLen = u.srcStart + t.outLen → u.srcLen ≤ u.params.srcCap →
    srcBytes u u.srcStart t.outLen = outBytes t 0 t.outLen →
    let raw := srcBytes s s.srcStart (s.srcLen - s.srcStart)
    32 * (raw.length / 32) ≤ u.params.outCap →
    ∃ w, exec .cmdDecode u = .next w ∧ Done (raw.take (32 * (raw.length / 32))) w

/-- ML(p) is the largest length, at most 18 and at most what is left of the input, at which the copy from `p` reproduces
the input (R163). -/
def Obligations.MatchLengthIsTheLargest : Prop :=
  ∀ (h : History) (p : WinPos) (look : List Byte), matchLen h p look ≤ min 18 look.length ∧
    ∀ n, n ≤ min 18 look.length → ((∀ k, k < n → look[k]? = some (h.dview p k)) ↔ n ≤ matchLen h p look)

/-- SW_SEARCH's length is the largest ML of the 4096 positions; when that is 3 or more, its position has that ML and is the
one scanned last (BACKWARD_LAST) or first (BACKWARD_FIRST) among those that do, position `p` being scanned at
`k = (HPOS − 1 − p) mod 4096 + 1` (R164). -/
def Obligations.SearchFindsTheLongestMatch : Prop :=
  ∀ (tie : Config.Tie) (h : History) (look : List Byte),
    let found := swSearch tie h look
    let scan := fun q : WinPos => (h.pos - 1 - q).toNat + 1
    (∀ q, matchLen h q look ≤ found.2) ∧
    (3 ≤ found.2 → matchLen h found.1 look = found.2 ∧
      ∀ q, matchLen h q look = found.2 →
        match tie with
        | .backwardLast => scan q ≤ scan found.1
        | .backwardFirst => scan found.1 ≤ scan q)

/-- Every match token the encoder emits has a length of 3 to 18, every group has 1 to 8 tokens, and the header is the
input's length (R162, R169). -/
def Obligations.SwStreamBounds : Prop :=
  ∀ (fill : Byte) (tie : Config.Tie) (raw : List Byte), raw.length ≤ 65535 →
    let ts := tokens fill tie raw.length [] raw
    (∀ p len, Token.copy p len ∈ ts → 3 ≤ len ∧ len ≤ 18) ∧
    (∀ g, g ∈ groups ts.length ts → 1 ≤ g.length ∧ g.length ≤ 8) ∧
    ((swEncodeStream fill tie raw).take 2).map BitVec.toNat = [raw.length / 256, raw.length % 256]

/-- Sliding-Window round trip: for every HIST_FILL and SW_TIE, DECODE of what ENCODE delivered gives the RawBlock, whichever
of the two identifiers is bound, and reads the stream to its end (R170, R190). -/
def Obligations.SwDecodeOfEncodeIsTheRawBlock : Prop :=
  ∀ s t u : State, s.engine = 2 ∨ s.engine = 3 → exec .cmdEncode s = .next t → stateField t.status = 1 →
    u.engine = 2 ∨ u.engine = 3 → u.params.histFill = s.params.histFill →
    u.srcLen = u.srcStart + t.outLen → u.srcLen ≤ u.params.srcCap →
    srcBytes u u.srcStart t.outLen = outBytes t 0 t.outLen →
    let raw := srcBytes s s.srcStart (s.srcLen - s.srcStart)
    raw.length ≤ u.params.outCap →
    ∃ w, exec .cmdDecode u = .next w ∧ Done raw w ∧ w.srcPos = u.srcLen

/-! ### Host accesses -/

/-- What the host writes to a read/write register reads back, and nothing else changes (R22, R26, R30). -/
def Obligations.WrittenRegistersReadBack : Prop :=
  ∀ (s : State) (v : Nat) (more : List HostAccess), s.port = none → s.phase = .idle →
    (v < 2 ^ s.params.aw → s.bus = .writeReg 3 v :: .readReg 3 :: more →
      core.run 2 s = .next { s with srcStart := v, busData := v, bus := more }) ∧
    (v < 2 ^ s.params.aw → s.bus = .writeReg 4 v :: .readReg 4 :: more →
      core.run 2 s = .next { s with srcLen := v, busData := v, bus := more }) ∧
    (v < 256 → s.bus = .writeReg 8 v :: .readReg 8 :: more →
      core.run 2 s = .next { s with nameLen := BitVec.ofNat 8 v, busData := v, bus := more })

/-- A host write to a read-only register has no effect, and a host read of CMD returns 0 (R22). -/
def Obligations.ReadOnlyRegistersIgnoreWrites : Prop :=
  ∀ (s : State) (n v : Nat) (more : List HostAccess), s.port = none → s.phase = .idle →
    ((n = 1 ∨ n = 2 ∨ n = 5 ∨ n = 6 ∨ n = 7) → s.bus = .writeReg n v :: more →
      step s = .next { s with bus := more }) ∧
    (s.bus = .readReg 0 :: more → step s = .next { s with busData := 0, bus := more })

/-- A host write of a byte of SRC changes that byte and no other, and no register (R31, R62), and so does a host write of a
byte of NAME (R33); an address outside SRC or NAME faults, as does a write to a register number above 8, which is the
model's choice (log 7), as is the place of the writes in `bus` (log 5). -/
def Obligations.HostWritesOneSourceByte : Prop :=
  ∀ (s : State) (a : Nat) (b : Byte) (more : List HostAccess), s.port = none → s.phase = .idle →
    (s.bus = .writeSrc a b :: more →
      (a < s.params.srcCap → ∃ t, step s = .next t ∧ (∀ x, srcByte t x = if x = a then b else srcByte s x) ∧
        t = { s with src := t.src, bus := more }) ∧
      (s.params.srcCap ≤ a → step s = .fault (.noSuchSrcAddress a))) ∧
    (s.bus = .writeName a b :: more →
      (a < 255 → ∃ t, step s = .next t ∧ (∀ x, nameByte t x = if x = a then b else nameByte s x) ∧
        t = { s with name := t.name, bus := more }) ∧
      (255 ≤ a → step s = .fault (.noSuchNameAddress a))) ∧
    ∀ v, s.bus = .writeReg a v :: more → 8 < a → step s = .fault (.noSuchRegister a)

/-- A host read of a register, by its number in the register map, or of a byte of SRC, OUT or NAME, returns what is
there and changes nothing; register 0, CMD, reads 0 (R22, R31-R33, R56); a number or an address that does not exist
faults, which is the model's choice (log 7), as is the place the value is returned in (log 5). -/
def Obligations.HostReadsReturnWhatIsThere : Prop :=
  ∀ (s : State) (n : Nat) (more : List HostAccess), s.port = none → s.phase = .idle →
    (s.bus = .readReg n :: more →
      (∀ v, (n, v) ∈
          [(0, 0), (1, s.status.toNat), (2, s.engine.toNat), (3, s.srcStart), (4, s.srcLen), (5, s.srcPos),
            (6, s.outLen), (7, s.errPos), (8, s.nameLen.toNat)] →
        step s = .next { s with busData := v, bus := more }) ∧
      (8 < n → step s = .fault (.noSuchRegister n))) ∧
    (s.bus = .readSrc n :: more →
      (n < s.params.srcCap → step s = .next { s with busData := (srcByte s n).toNat, bus := more }) ∧
      (s.params.srcCap ≤ n → step s = .fault (.noSuchSrcAddress n))) ∧
    (s.bus = .readOut n :: more →
      (n < s.params.outCap → step s = .next { s with busData := (outByte s n).toNat, bus := more }) ∧
      (s.params.outCap ≤ n → step s = .fault (.noSuchOutAddress n))) ∧
    (s.bus = .readName n :: more →
      (n < 255 → step s = .next { s with busData := (nameByte s n).toNat, bus := more }) ∧
      (255 ≤ n → step s = .fault (.noSuchNameAddress n)))
end

