-- ==== Sys2Proof/Laws/Memory.lean ====
section
/-! SUPPORT. The byte memories: what a store, an erase and a listing read back as, and that each keeps the canonical form
and the bounds. -/

namespace Sys2Proof.Machine

/-- The canonical form of a memory with at least one entry: the rest is canonical and every address of it is higher. -/
theorem Memory.wf_cons (c : Host.Cell) (m : Memory) :
    Memory.wf (c :: m) = true ↔ Memory.wf m = true ∧ ∀ d ∈ m, c.1 < d.1 := by
  induction m generalizing c with
  | nil => simp [Memory.wf]
  | cons d m ih =>
    simp only [Memory.wf, Bool.and_eq_true, decide_eq_true_eq, List.mem_cons, forall_eq_or_imp]
    rw [ih d]
    constructor
    · rintro ⟨h, hw, hd⟩
      exact ⟨⟨hw, hd⟩, h, fun x hx => h.trans (hd x hx)⟩
    · rintro ⟨⟨hw, hd⟩, h, -⟩
      exact ⟨h, hw, hd⟩

/-- The canonical form is: addresses strictly rising. -/
theorem Memory.wf_iff (m : Memory) : Memory.wf m = true ↔ m.Pairwise fun c d => c.1 < d.1 := by
  induction m with
  | nil => simp [Memory.wf]
  | cons c m ih => rw [Memory.wf_cons, List.pairwise_cons, ih, and_comm]

@[simp] theorem Memory.lookup_nil (a : Nat) : Memory.lookup [] a = none := rfl

theorem Memory.lookup_cons (c : Host.Cell) (m : Memory) (a : Nat) :
    Memory.lookup (c :: m) a = if c.1 = a then some c.2 else Memory.lookup m a := rfl

/-- Nothing is listed at an address below every listed one. -/
theorem Memory.lookup_of_lt (m : Memory) (a : Nat) (h : ∀ d ∈ m, a < d.1) : Memory.lookup m a = none := by
  induction m with
  | nil => rfl
  | cons c m ih =>
    have hc : a < c.1 := h c (by simp)
    rw [Memory.lookup_cons, if_neg (by omega)]
    exact ih fun d hd => h d (by simp [hd])

/-- Read after write: a store lists the byte at its address and leaves every other address alone. -/
theorem Memory.lookup_store (m : Memory) (a x : Nat) (b : Byte) :
    Memory.lookup (Memory.store m a b) x = if x = a then some b else Memory.lookup m x := by
  induction m with
  | nil =>
    simp only [Memory.store, Memory.lookup_cons, Memory.lookup_nil]
    by_cases h : x = a
    · simp [h]
    · simp [h, Ne.symm h]
  | cons c m ih =>
    simp only [Memory.store]
    split
    · rw [Memory.lookup_cons]
      by_cases h : x = a
      · simp [h]
      · simp [h, Ne.symm h]
    · split
      · rename_i h1 h2
        simp only [Memory.lookup_cons]
        by_cases h : x = a
        · simp [h]
        · have : ¬ c.1 = x := by omega
          simp [h, Ne.symm h, this]
      · rename_i h1 h2
        simp only [Memory.lookup_cons, ih]
        by_cases h : c.1 = x
        · have : ¬ x = a := by omega
          simp [h, this]
        · simp [h]

/-- An erase of a canonical memory unlists its address and leaves every other address alone. -/
theorem Memory.lookup_erase (m : Memory) (a x : Nat) (hm : Memory.wf m = true) :
    Memory.lookup (Memory.erase m a) x = if x = a then none else Memory.lookup m x := by
  induction m with
  | nil => simp [Memory.erase]
  | cons c m ih =>
    obtain ⟨hw, hlt⟩ := (Memory.wf_cons c m).mp hm
    simp only [Memory.erase]
    split
    · rename_i h
      by_cases hx : x = a
      · subst hx
        rw [if_pos rfl, ← h]
        exact Memory.lookup_of_lt m c.1 hlt
      · have : ¬ c.1 = x := by omega
        simp [Memory.lookup_cons, hx, this]
    · rename_i h
      simp only [Memory.lookup_cons, ih hw]
      by_cases hx : c.1 = x
      · have : ¬ x = a := by omega
        simp [hx, this]
      · simp [hx]

/-- The addresses a store lists. -/
theorem Memory.mem_store {m : Memory} {a : Nat} {b : Byte} {d : Host.Cell} (h : d ∈ Memory.store m a b) :
    d = (a, b) ∨ d ∈ m := by
  induction m with
  | nil => simpa [Memory.store] using h
  | cons c m ih =>
    simp only [Memory.store] at h
    split at h
    · simpa using h
    · split at h
      · rcases List.mem_cons.mp h with h | h
        · exact .inl h
        · exact .inr (by simp [h])
      · rcases List.mem_cons.mp h with h | h
        · exact .inr (by simp [h])
        · exact (ih h).imp_right fun h => by simp [h]

/-- An erase lists nothing new. -/
theorem Memory.mem_erase {m : Memory} {a : Nat} {d : Host.Cell} (h : d ∈ Memory.erase m a) : d ∈ m := by
  induction m with
  | nil => simp [Memory.erase] at h
  | cons c m ih =>
    simp only [Memory.erase] at h
    split at h
    · simp [h]
    · rcases List.mem_cons.mp h with h | h
      · simp [h]
      · simp [ih h]

/-- A store keeps the canonical form. -/
theorem Memory.wf_store (m : Memory) (a : Nat) (b : Byte) (hm : Memory.wf m = true) :
    Memory.wf (Memory.store m a b) = true := by
  induction m with
  | nil => rfl
  | cons c m ih =>
    obtain ⟨hw, hlt⟩ := (Memory.wf_cons c m).mp hm
    simp only [Memory.store]
    split
    · rename_i h
      refine (Memory.wf_cons _ _).mpr ⟨hm, fun d hd => ?_⟩
      rcases List.mem_cons.mp hd with rfl | hd
      · exact h
      · exact h.trans (hlt d hd)
    · split
      · rename_i h
        exact (Memory.wf_cons _ _).mpr ⟨hw, fun d hd => h ▸ hlt d hd⟩
      · refine (Memory.wf_cons _ _).mpr ⟨ih hw, fun d hd => ?_⟩
        rcases Memory.mem_store hd with rfl | hd
        · show c.1 < a
          omega
        · exact hlt d hd

/-- An erase keeps the canonical form. -/
theorem Memory.wf_erase (m : Memory) (a : Nat) (hm : Memory.wf m = true) : Memory.wf (Memory.erase m a) = true := by
  induction m with
  | nil => rfl
  | cons c m ih =>
    obtain ⟨hw, hlt⟩ := (Memory.wf_cons c m).mp hm
    simp only [Memory.erase]
    split
    · exact hw
    · exact (Memory.wf_cons _ _).mpr ⟨ih hw, fun d hd => hlt d (Memory.mem_erase hd)⟩

/-- A bound on the listed addresses. -/
theorem Memory.below_iff (m : Memory) (n : Nat) : Memory.below m n = true ↔ ∀ d ∈ m, d.1 < n := by
  simp [Memory.below]

/-- A store below the bound keeps it. -/
theorem Memory.below_store (m : Memory) (a n : Nat) (b : Byte) (hm : Memory.below m n = true) (ha : a < n) :
    Memory.below (Memory.store m a b) n = true := by
  rw [Memory.below_iff] at hm ⊢
  intro d hd
  rcases Memory.mem_store hd with rfl | hd
  · exact ha
  · exact hm d hd

/-- An erase keeps the bound. -/
theorem Memory.below_erase (m : Memory) (a n : Nat) (hm : Memory.below m n = true) :
    Memory.below (Memory.erase m a) n = true := by
  rw [Memory.below_iff] at hm ⊢
  exact fun d hd => hm d (Memory.mem_erase hd)

/-- A listing reads back as its bytes, and nothing else is listed. -/
theorem Memory.lookup_ofBytes (bs : List Byte) (base a : Nat) :
    Memory.lookup (Memory.ofBytes base bs) a = if base ≤ a then bs[a - base]? else none := by
  induction bs generalizing base with
  | nil => simp [Memory.ofBytes]
  | cons b bs ih =>
    simp only [Memory.ofBytes, Memory.lookup_cons, ih]
    by_cases h : base = a
    · simp [h]
    · by_cases h' : base ≤ a
      · have h1 : base + 1 ≤ a := by omega
        have h2 : a - base = (a - (base + 1)) + 1 := by omega
        simp [h, h', h1, h2]
      · have h1 : ¬ base + 1 ≤ a := by omega
        simp [h, h', h1]

/-- Every address of a listing is at or above its base. -/
theorem Memory.base_le_ofBytes (bs : List Byte) (base : Nat) : ∀ d ∈ Memory.ofBytes base bs, base ≤ d.1 := by
  induction bs generalizing base with
  | nil => simp [Memory.ofBytes]
  | cons b bs ih =>
    intro d hd
    rcases List.mem_cons.mp hd with rfl | hd
    · exact le_rfl
    · have := ih (base + 1) d hd
      omega

/-- A listing is canonical. -/
theorem Memory.wf_ofBytes (bs : List Byte) (base : Nat) : Memory.wf (Memory.ofBytes base bs) = true := by
  induction bs generalizing base with
  | nil => rfl
  | cons b bs ih =>
    exact (Memory.wf_cons _ _).mpr ⟨ih (base + 1), fun d hd => Memory.base_le_ofBytes bs (base + 1) d hd⟩

/-- The listed addresses of a listing at 0 are those below its length. -/
theorem Memory.listed_ofBytes (bs : List Byte) (a : Nat) :
    (Memory.lookup (Memory.ofBytes 0 bs) a).isSome = true ↔ a < bs.length := by
  rw [Memory.lookup_ofBytes]
  simp

/-- Storing a run of bytes keeps the canonical form. -/
theorem Memory.wf_storeAll (bs : List Byte) (m : Memory) (a : Nat) (hm : Memory.wf m = true) :
    Memory.wf (Memory.storeAll m a bs) = true := by
  induction bs generalizing m a with
  | nil => exact hm
  | cons b bs ih => exact ih (m.store a b) (a + 1) (Memory.wf_store m a b hm)

/-- The memories of the reset state are canonical. -/
theorem reset_memories_wf :
    State.reset.src.wf = true ∧ State.reset.out.wf = true ∧ State.reset.name.wf = true ∧ State.reset.hist.wf = true := by
  decide

/-! ### Reading runs of bytes -/

theorem srcBytes_eq_map (s : State) (a n : Nat) : srcBytes s a n = (List.range n).map fun k => srcByte s (a + k) := by
  induction n generalizing a with
  | zero => rfl
  | succ n ih => simp [srcBytes, ih, List.range_succ_eq_map, Function.comp_def, Nat.add_comm, Nat.add_left_comm]

theorem nameBytes_eq_map (s : State) (a n : Nat) :
    nameBytes s a n = (List.range n).map fun k => nameByte s (a + k) := by
  induction n generalizing a with
  | zero => rfl
  | succ n ih => simp [nameBytes, ih, List.range_succ_eq_map, Function.comp_def, Nat.add_comm, Nat.add_left_comm]

theorem outBytes_eq_map (s : State) (a n : Nat) : outBytes s a n = (List.range n).map fun k => outByte s (a + k) := by
  induction n generalizing a with
  | zero => rfl
  | succ n ih => simp [outBytes, ih, List.range_succ_eq_map, Function.comp_def, Nat.add_comm, Nat.add_left_comm]

@[simp] theorem length_srcBytes (s : State) (a n : Nat) : (srcBytes s a n).length = n := by simp [srcBytes_eq_map]

@[simp] theorem length_nameBytes (s : State) (a n : Nat) : (nameBytes s a n).length = n := by simp [nameBytes_eq_map]

@[simp] theorem length_outBytes (s : State) (a n : Nat) : (outBytes s a n).length = n := by simp [outBytes_eq_map]

/-- A run of SRC splits where its length does. -/
theorem srcBytes_add (s : State) (a m n : Nat) : srcBytes s a (m + n) = srcBytes s a m ++ srcBytes s (a + m) n := by
  induction m generalizing a with
  | zero => simp [srcBytes]
  | succ m ih => simp [srcBytes, ih, Nat.succ_add, Nat.add_assoc]

/-- SRC reads the same in two states with the same SRC and the same free values. -/
theorem srcByte_congr {s t : State} (h : t.src = s.src) (hp : t.powerOn = s.powerOn) (a : Nat) :
    srcByte t a = srcByte s a := by simp [srcByte, h, hp]

/-- NAME reads the same in two states with the same NAME and the same free values. -/
theorem nameByte_congr {s t : State} (h : t.name = s.name) (hp : t.powerOn = s.powerOn) (a : Nat) :
    nameByte t a = nameByte s a := by simp [nameByte, h, hp]

/-- OUT reads the same in two states with the same OUT and the same free values. -/
theorem outByte_congr {s t : State} (h : t.out = s.out) (hp : t.outEpoch = s.outEpoch) (a : Nat) :
    outByte t a = outByte s a := by simp [outByte, h, hp]

/-- A run of SRC depends only on the bytes in it. -/
theorem srcBytes_congr {s t : State} {a n : Nat} (h : ∀ k, k < n → srcByte t (a + k) = srcByte s (a + k)) :
    srcBytes t a n = srcBytes s a n := by
  simp only [srcBytes_eq_map]
  exact List.map_congr_left fun k hk => h k (List.mem_range.mp hk)

end Sys2Proof.Machine
end

