-- ==== Sys2Proof/Laws/History.lean ====
section
/-! SUPPORT. The History Window: what a seed, a write and a push read back as, and that each keeps the canonical form. -/

namespace Sys2Proof.Machine

/-- A window position as a number, with the bound written out for `omega` (R140). -/
theorem winPos_toNat_lt (p : WinPos) : p.toNat < 4096 := p.isLt

/-- The canonical form of a window, clause by clause. -/
theorem History.wf_iff (h : History) :
    h.wf = true ↔ Memory.wf h.cells = true ∧ Memory.below h.cells 4096 = true ∧ ∀ c ∈ h.cells, c.2 ≠ h.fill := by
  simp [History.wf, and_assoc]

@[simp] theorem History.seed_pos (f : Byte) (c : WinPos) : (History.seed f c).pos = c := rfl

@[simp] theorem History.seed_fill (f : Byte) (c : WinPos) : (History.seed f c).fill = f := rfl

/-- After a seed every position reads as the fill byte (R141). -/
@[simp] theorem History.read_seed (f : Byte) (c : WinPos) (a : Nat) : (History.seed f c).read a = f := rfl

theorem History.wf_seed (f : Byte) (c : WinPos) : (History.seed f c).wf = true := rfl

/-- An address is reduced modulo 4096 (R143). -/
theorem History.read_mod (h : History) (a : Nat) : h.read (a % 4096) = h.read a := by
  simp [History.read]

@[simp] theorem History.write_pos (h : History) (a : Nat) (b : Byte) : (h.write a b).pos = h.pos := by
  unfold History.write; split <;> rfl

@[simp] theorem History.write_fill (h : History) (a : Nat) (b : Byte) : (h.write a b).fill = h.fill := by
  unfold History.write; split <;> rfl

/-- Read after write: the written position reads as the byte, every other as before. -/
theorem History.read_write (h : History) (a x : Nat) (b : Byte) (hw : h.wf = true) :
    (h.write a b).read x = if x % 4096 = a then b else h.read x := by
  obtain ⟨hc, -, -⟩ := h.wf_iff.mp hw
  unfold History.write
  by_cases hb : b = h.fill
  · simp only [if_pos hb, History.read, Config.winSize, Memory.lookup_erase _ _ _ hc]
    split
    · simp [hb]
    · rfl
  · simp only [if_neg hb, History.read, Config.winSize, Memory.lookup_store]
    split <;> rfl

/-- A write inside the window keeps the canonical form. -/
theorem History.wf_write (h : History) (a : Nat) (b : Byte) (hw : h.wf = true) (ha : a < 4096) :
    (h.write a b).wf = true := by
  obtain ⟨hc, hbl, hf⟩ := h.wf_iff.mp hw
  unfold History.write
  by_cases hb : b = h.fill
  · rw [if_pos hb]
    exact (History.wf_iff _).mpr ⟨Memory.wf_erase _ _ hc, Memory.below_erase _ _ _ hbl, fun c hm => hf c (Memory.mem_erase hm)⟩
  · rw [if_neg hb]
    refine (History.wf_iff _).mpr ⟨Memory.wf_store _ _ _ hc, Memory.below_store _ _ _ _ hbl ha, fun c hm => ?_⟩
    rcases Memory.mem_store hm with rfl | hm
    · exact hb
    · exact hf c hm

@[simp] theorem History.push_pos (h : History) (b : Byte) : (h.push b).pos = h.pos + 1 := rfl

@[simp] theorem History.push_fill (h : History) (b : Byte) : (h.push b).fill = h.fill := h.write_fill _ _

/-- The cursor after a push, as a number (R142). -/
theorem History.push_pos_toNat (h : History) (b : Byte) : (h.push b).pos.toNat = (h.pos.toNat + 1) % 4096 := by
  simp [BitVec.toNat_add]

/-- A push writes at the cursor (R142); every other position reads as before. -/
theorem History.read_push (h : History) (b : Byte) (x : Nat) (hw : h.wf = true) :
    (h.push b).read x = if x % 4096 = h.pos.toNat then b else h.read x := h.read_write _ x b hw

/-- A push keeps the canonical form. -/
theorem History.wf_push (h : History) (b : Byte) (hw : h.wf = true) : (h.push b).wf = true :=
  h.wf_write _ b hw h.pos.isLt

@[simp] theorem History.pushAll_nil (h : History) : h.pushAll [] = h := rfl

@[simp] theorem History.pushAll_cons (h : History) (b : Byte) (bs : List Byte) :
    h.pushAll (b :: bs) = (h.push b).pushAll bs := rfl

theorem History.pushAll_append (h : History) (bs cs : List Byte) :
    h.pushAll (bs ++ cs) = (h.pushAll bs).pushAll cs := by
  induction bs generalizing h with
  | nil => rfl
  | cons b bs ih => exact ih (h.push b)

@[simp] theorem History.pushAll_fill (h : History) (bs : List Byte) : (h.pushAll bs).fill = h.fill := by
  induction bs generalizing h with
  | nil => rfl
  | cons b bs ih => rw [History.pushAll_cons, ih, History.push_fill]

theorem History.pushAll_pos_toNat (h : History) (bs : List Byte) :
    (h.pushAll bs).pos.toNat = (h.pos.toNat + bs.length) % 4096 := by
  induction bs generalizing h with
  | nil =>
    have := winPos_toNat_lt h.pos
    simp only [History.pushAll_nil, List.length_nil]
    omega
  | cons b bs ih =>
    rw [History.pushAll_cons, ih, History.push_pos_toNat, List.length_cons]
    omega

/-- Pushes keep the canonical form. -/
theorem History.wf_pushAll (h : History) (bs : List Byte) (hw : h.wf = true) : (h.pushAll bs).wf = true := by
  induction bs generalizing h with
  | nil => exact hw
  | cons b bs ih => exact ih _ (h.wf_push b hw)

/-- Copy steps keep the canonical form. -/
theorem wf_copySteps (size : Nat) (off : WinPos) (n k : Nat) (h : History) (res : List Byte) (hw : h.wf = true) :
    (copySteps size off n k h res).1.wf = true := by
  induction n generalizing k h res with
  | zero => exact hw
  | succ n ih =>
    simp only [copySteps]
    split
    · exact hw
    · exact ih _ _ _ (h.wf_push _ hw)

/-- Copy steps push exactly the bytes they emit, at most `n` of them and never past SIZE (R147, R186). -/
theorem copySteps_spec (size : Nat) (off : WinPos) (n k : Nat) (h : History) (res : List Byte) :
    ∃ bs, (copySteps size off n k h res).2 = res ++ bs ∧ (copySteps size off n k h res).1 = h.pushAll bs ∧
      bs.length = min n (size - res.length) := by
  induction n generalizing k h res with
  | zero => exact ⟨[], by simp [copySteps]⟩
  | succ n ih =>
    simp only [copySteps]
    split
    · rename_i hs
      exact ⟨[], by simp, rfl, by simp; omega⟩
    · rename_i hs
      obtain ⟨bs, h1, h2, h3⟩ := ih (k + 1) (h.push (h.read (off.toNat + k))) (res ++ [h.read (off.toNat + k)])
      refine ⟨h.read (off.toNat + k) :: bs, by simp [h1], by simp [h2], ?_⟩
      simp only [List.length_append, List.length_singleton] at h3
      simp only [List.length_cons]
      omega

end Sys2Proof.Machine
end

