-- ==== Sys2Proof/Laws/PerInstr.lean ====
section
/-! SUPPORT. Statements about every instruction as syntax, one lemma per constructor. -/

namespace Sys2Proof.Laws

/-- Every instruction encodes to exactly the bytes its position reads (R84, R85, R90). -/
def EncodeWidth.Statement (i : Instr) : Prop := (encode i).length = i.position.width

theorem EncodeWidth.rmChain (c : Byte) : EncodeWidth.Statement (.rmChain c) := rfl

theorem EncodeWidth.rmEntry (v : Byte) (m : Mask) : EncodeWidth.Statement (.rmEntry v m) := rfl

theorem EncodeWidth.rmLit (b : Byte) : EncodeWidth.Statement (.rmLit b) := rfl

theorem EncodeWidth.rmTerm : EncodeWidth.Statement .rmTerm := rfl

theorem EncodeWidth.swHdr (size : BitVec 16) : EncodeWidth.Statement (.swHdr size) := rfl

theorem EncodeWidth.swFlags (f : Byte) : EncodeWidth.Statement (.swFlags f) := rfl

theorem EncodeWidth.swLit (b : Byte) : EncodeWidth.Statement (.swLit b) := rfl

theorem EncodeWidth.swMatch (off : WinPos) (len : Nat) : EncodeWidth.Statement (.swMatch off len) := rfl

theorem EncodeWidth.cmdNop : EncodeWidth.Statement .cmdNop := rfl

theorem EncodeWidth.cmdSelect : EncodeWidth.Statement .cmdSelect := rfl

theorem EncodeWidth.cmdEncode : EncodeWidth.Statement .cmdEncode := rfl

theorem EncodeWidth.cmdDecode : EncodeWidth.Statement .cmdDecode := rfl

theorem EncodeWidth.histSeed (fill : Byte) (cursor : WinPos) : EncodeWidth.Statement (.histSeed fill cursor) := rfl

theorem EncodeWidth.histPush (data : Byte) : EncodeWidth.Statement (.histPush data) := rfl

theorem EncodeWidth.histRead (addr : WinPos) : EncodeWidth.Statement (.histRead addr) := rfl

end Sys2Proof.Laws
end

