-- ==== Sys2Proof/Laws/State.lean ====
section
/-! SUPPORT. The fields of State after each named update: one lemma per field and update. The provers' simp set never has
to unfold an update. -/

namespace Sys2Proof.Machine


/-! ### advance (R13) -/

@[simp] theorem advance_status (n : Nat) (s : State) : (advance n s).status = s.status := rfl
@[simp] theorem advance_engine (n : Nat) (s : State) : (advance n s).engine = s.engine := rfl
@[simp] theorem advance_srcStart (n : Nat) (s : State) : (advance n s).srcStart = s.srcStart := rfl
@[simp] theorem advance_srcLen (n : Nat) (s : State) : (advance n s).srcLen = s.srcLen := rfl
@[simp] theorem advance_srcPos (n : Nat) (s : State) : (advance n s).srcPos = s.srcPos + n := rfl
@[simp] theorem advance_outLen (n : Nat) (s : State) : (advance n s).outLen = s.outLen := rfl
@[simp] theorem advance_errPos (n : Nat) (s : State) : (advance n s).errPos = s.errPos := rfl
@[simp] theorem advance_nameLen (n : Nat) (s : State) : (advance n s).nameLen = s.nameLen := rfl
@[simp] theorem advance_src (n : Nat) (s : State) : (advance n s).src = s.src := rfl
@[simp] theorem advance_out (n : Nat) (s : State) : (advance n s).out = s.out := rfl
@[simp] theorem advance_name (n : Nat) (s : State) : (advance n s).name = s.name := rfl
@[simp] theorem advance_hist (n : Nat) (s : State) : (advance n s).hist = s.hist := rfl
@[simp] theorem advance_rmEnc (n : Nat) (s : State) : (advance n s).rmEnc = s.rmEnc := rfl
@[simp] theorem advance_rmDec (n : Nat) (s : State) : (advance n s).rmDec = s.rmDec := rfl
@[simp] theorem advance_swEnc (n : Nat) (s : State) : (advance n s).swEnc = s.swEnc := rfl
@[simp] theorem advance_swDec (n : Nat) (s : State) : (advance n s).swDec = s.swDec := rfl
@[simp] theorem advance_phase (n : Nat) (s : State) : (advance n s).phase = s.phase := rfl
@[simp] theorem advance_posBefore (n : Nat) (s : State) : (advance n s).posBefore = s.posBefore := rfl
@[simp] theorem advance_params (n : Nat) (s : State) : (advance n s).params = s.params := rfl
@[simp] theorem advance_bus (n : Nat) (s : State) : (advance n s).bus = s.bus := rfl
@[simp] theorem advance_busData (n : Nat) (s : State) : (advance n s).busData = s.busData := rfl
@[simp] theorem advance_port (n : Nat) (s : State) : (advance n s).port = s.port := rfl
@[simp] theorem advance_portData (n : Nat) (s : State) : (advance n s).portData = s.portData := rfl
@[simp] theorem advance_powerOn (n : Nat) (s : State) : (advance n s).powerOn = s.powerOn := rfl
@[simp] theorem advance_outEpoch (n : Nat) (s : State) : (advance n s).outEpoch = s.outEpoch := rfl

/-! ### The history port (R141, R142) -/

@[simp] theorem histSeedState_status (f : Byte) (c : WinPos) (s : State) : (histSeedState f c s).status = s.status := rfl
@[simp] theorem histSeedState_engine (f : Byte) (c : WinPos) (s : State) : (histSeedState f c s).engine = s.engine := rfl
@[simp] theorem histSeedState_srcStart (f : Byte) (c : WinPos) (s : State) : (histSeedState f c s).srcStart = s.srcStart := rfl
@[simp] theorem histSeedState_srcLen (f : Byte) (c : WinPos) (s : State) : (histSeedState f c s).srcLen = s.srcLen := rfl
@[simp] theorem histSeedState_srcPos (f : Byte) (c : WinPos) (s : State) : (histSeedState f c s).srcPos = s.srcPos := rfl
@[simp] theorem histSeedState_outLen (f : Byte) (c : WinPos) (s : State) : (histSeedState f c s).outLen = s.outLen := rfl
@[simp] theorem histSeedState_errPos (f : Byte) (c : WinPos) (s : State) : (histSeedState f c s).errPos = s.errPos := rfl
@[simp] theorem histSeedState_nameLen (f : Byte) (c : WinPos) (s : State) : (histSeedState f c s).nameLen = s.nameLen := rfl
@[simp] theorem histSeedState_src (f : Byte) (c : WinPos) (s : State) : (histSeedState f c s).src = s.src := rfl
@[simp] theorem histSeedState_out (f : Byte) (c : WinPos) (s : State) : (histSeedState f c s).out = s.out := rfl
@[simp] theorem histSeedState_name (f : Byte) (c : WinPos) (s : State) : (histSeedState f c s).name = s.name := rfl
@[simp] theorem histSeedState_hist (f : Byte) (c : WinPos) (s : State) : (histSeedState f c s).hist = History.seed f c := rfl
@[simp] theorem histSeedState_rmEnc (f : Byte) (c : WinPos) (s : State) : (histSeedState f c s).rmEnc = s.rmEnc := rfl
@[simp] theorem histSeedState_rmDec (f : Byte) (c : WinPos) (s : State) : (histSeedState f c s).rmDec = s.rmDec := rfl
@[simp] theorem histSeedState_swEnc (f : Byte) (c : WinPos) (s : State) : (histSeedState f c s).swEnc = s.swEnc := rfl
@[simp] theorem histSeedState_swDec (f : Byte) (c : WinPos) (s : State) : (histSeedState f c s).swDec = s.swDec := rfl
@[simp] theorem histSeedState_phase (f : Byte) (c : WinPos) (s : State) : (histSeedState f c s).phase = s.phase := rfl
@[simp] theorem histSeedState_posBefore (f : Byte) (c : WinPos) (s : State) : (histSeedState f c s).posBefore = s.posBefore := rfl
@[simp] theorem histSeedState_params (f : Byte) (c : WinPos) (s : State) : (histSeedState f c s).params = s.params := rfl
@[simp] theorem histSeedState_bus (f : Byte) (c : WinPos) (s : State) : (histSeedState f c s).bus = s.bus := rfl
@[simp] theorem histSeedState_busData (f : Byte) (c : WinPos) (s : State) : (histSeedState f c s).busData = s.busData := rfl
@[simp] theorem histSeedState_port (f : Byte) (c : WinPos) (s : State) : (histSeedState f c s).port = s.port := rfl
@[simp] theorem histSeedState_portData (f : Byte) (c : WinPos) (s : State) : (histSeedState f c s).portData = s.portData := rfl
@[simp] theorem histSeedState_powerOn (f : Byte) (c : WinPos) (s : State) : (histSeedState f c s).powerOn = s.powerOn := rfl
@[simp] theorem histSeedState_outEpoch (f : Byte) (c : WinPos) (s : State) : (histSeedState f c s).outEpoch = s.outEpoch := rfl
@[simp] theorem histPushState_status (b : Byte) (s : State) : (histPushState b s).status = s.status := rfl
@[simp] theorem histPushState_engine (b : Byte) (s : State) : (histPushState b s).engine = s.engine := rfl
@[simp] theorem histPushState_srcStart (b : Byte) (s : State) : (histPushState b s).srcStart = s.srcStart := rfl
@[simp] theorem histPushState_srcLen (b : Byte) (s : State) : (histPushState b s).srcLen = s.srcLen := rfl
@[simp] theorem histPushState_srcPos (b : Byte) (s : State) : (histPushState b s).srcPos = s.srcPos := rfl
@[simp] theorem histPushState_outLen (b : Byte) (s : State) : (histPushState b s).outLen = s.outLen := rfl
@[simp] theorem histPushState_errPos (b : Byte) (s : State) : (histPushState b s).errPos = s.errPos := rfl
@[simp] theorem histPushState_nameLen (b : Byte) (s : State) : (histPushState b s).nameLen = s.nameLen := rfl
@[simp] theorem histPushState_src (b : Byte) (s : State) : (histPushState b s).src = s.src := rfl
@[simp] theorem histPushState_out (b : Byte) (s : State) : (histPushState b s).out = s.out := rfl
@[simp] theorem histPushState_name (b : Byte) (s : State) : (histPushState b s).name = s.name := rfl
@[simp] theorem histPushState_hist (b : Byte) (s : State) : (histPushState b s).hist = s.hist.push b := rfl
@[simp] theorem histPushState_rmEnc (b : Byte) (s : State) : (histPushState b s).rmEnc = s.rmEnc := rfl
@[simp] theorem histPushState_rmDec (b : Byte) (s : State) : (histPushState b s).rmDec = s.rmDec := rfl
@[simp] theorem histPushState_swEnc (b : Byte) (s : State) : (histPushState b s).swEnc = s.swEnc := rfl
@[simp] theorem histPushState_swDec (b : Byte) (s : State) : (histPushState b s).swDec = s.swDec := rfl
@[simp] theorem histPushState_phase (b : Byte) (s : State) : (histPushState b s).phase = s.phase := rfl
@[simp] theorem histPushState_posBefore (b : Byte) (s : State) : (histPushState b s).posBefore = s.posBefore := rfl
@[simp] theorem histPushState_params (b : Byte) (s : State) : (histPushState b s).params = s.params := rfl
@[simp] theorem histPushState_bus (b : Byte) (s : State) : (histPushState b s).bus = s.bus := rfl
@[simp] theorem histPushState_busData (b : Byte) (s : State) : (histPushState b s).busData = s.busData := rfl
@[simp] theorem histPushState_port (b : Byte) (s : State) : (histPushState b s).port = s.port := rfl
@[simp] theorem histPushState_portData (b : Byte) (s : State) : (histPushState b s).portData = s.portData := rfl
@[simp] theorem histPushState_powerOn (b : Byte) (s : State) : (histPushState b s).powerOn = s.powerOn := rfl
@[simp] theorem histPushState_outEpoch (b : Byte) (s : State) : (histPushState b s).outEpoch = s.outEpoch := rfl

/-! ### failCommand (R230) -/

@[simp] theorem failCommand_status (e : ErrorCode) (pos before : Nat) (s : State) : (failCommand e pos before s).status = statusError e := rfl
@[simp] theorem failCommand_engine (e : ErrorCode) (pos before : Nat) (s : State) : (failCommand e pos before s).engine = s.engine := rfl
@[simp] theorem failCommand_srcStart (e : ErrorCode) (pos before : Nat) (s : State) : (failCommand e pos before s).srcStart = s.srcStart := rfl
@[simp] theorem failCommand_srcLen (e : ErrorCode) (pos before : Nat) (s : State) : (failCommand e pos before s).srcLen = s.srcLen := rfl
@[simp] theorem failCommand_srcPos (e : ErrorCode) (pos before : Nat) (s : State) : (failCommand e pos before s).srcPos = if e = .sourceExhausted then pos else before := rfl
@[simp] theorem failCommand_outLen (e : ErrorCode) (pos before : Nat) (s : State) : (failCommand e pos before s).outLen = 0 := rfl
@[simp] theorem failCommand_errPos (e : ErrorCode) (pos before : Nat) (s : State) : (failCommand e pos before s).errPos = pos := rfl
@[simp] theorem failCommand_nameLen (e : ErrorCode) (pos before : Nat) (s : State) : (failCommand e pos before s).nameLen = s.nameLen := rfl
@[simp] theorem failCommand_src (e : ErrorCode) (pos before : Nat) (s : State) : (failCommand e pos before s).src = s.src := rfl
@[simp] theorem failCommand_out (e : ErrorCode) (pos before : Nat) (s : State) : (failCommand e pos before s).out = [] := rfl
@[simp] theorem failCommand_name (e : ErrorCode) (pos before : Nat) (s : State) : (failCommand e pos before s).name = s.name := rfl
@[simp] theorem failCommand_hist (e : ErrorCode) (pos before : Nat) (s : State) : (failCommand e pos before s).hist = s.hist := rfl
@[simp] theorem failCommand_rmEnc (e : ErrorCode) (pos before : Nat) (s : State) : (failCommand e pos before s).rmEnc = s.rmEnc := rfl
@[simp] theorem failCommand_rmDec (e : ErrorCode) (pos before : Nat) (s : State) : (failCommand e pos before s).rmDec = s.rmDec := rfl
@[simp] theorem failCommand_swEnc (e : ErrorCode) (pos before : Nat) (s : State) : (failCommand e pos before s).swEnc = s.swEnc := rfl
@[simp] theorem failCommand_swDec (e : ErrorCode) (pos before : Nat) (s : State) : (failCommand e pos before s).swDec = s.swDec := rfl
@[simp] theorem failCommand_phase (e : ErrorCode) (pos before : Nat) (s : State) : (failCommand e pos before s).phase = .idle := rfl
@[simp] theorem failCommand_posBefore (e : ErrorCode) (pos before : Nat) (s : State) : (failCommand e pos before s).posBefore = s.posBefore := rfl
@[simp] theorem failCommand_params (e : ErrorCode) (pos before : Nat) (s : State) : (failCommand e pos before s).params = s.params := rfl
@[simp] theorem failCommand_bus (e : ErrorCode) (pos before : Nat) (s : State) : (failCommand e pos before s).bus = s.bus := rfl
@[simp] theorem failCommand_busData (e : ErrorCode) (pos before : Nat) (s : State) : (failCommand e pos before s).busData = s.busData := rfl
@[simp] theorem failCommand_port (e : ErrorCode) (pos before : Nat) (s : State) : (failCommand e pos before s).port = s.port := rfl
@[simp] theorem failCommand_portData (e : ErrorCode) (pos before : Nat) (s : State) : (failCommand e pos before s).portData = s.portData := rfl
@[simp] theorem failCommand_powerOn (e : ErrorCode) (pos before : Nat) (s : State) : (failCommand e pos before s).powerOn = s.powerOn := rfl
@[simp] theorem failCommand_outEpoch (e : ErrorCode) (pos before : Nat) (s : State) : (failCommand e pos before s).outEpoch = s.outEpoch + 1 := rfl

/-! ### finishCommand (R212, R213) -/

@[simp] theorem finishCommand_engine (res : List Byte) (before : Nat) (s : State) :
    (finishCommand res before s).engine = s.engine := by unfold finishCommand; split <;> rfl
@[simp] theorem finishCommand_srcStart (res : List Byte) (before : Nat) (s : State) :
    (finishCommand res before s).srcStart = s.srcStart := by unfold finishCommand; split <;> rfl
@[simp] theorem finishCommand_srcLen (res : List Byte) (before : Nat) (s : State) :
    (finishCommand res before s).srcLen = s.srcLen := by unfold finishCommand; split <;> rfl
@[simp] theorem finishCommand_nameLen (res : List Byte) (before : Nat) (s : State) :
    (finishCommand res before s).nameLen = s.nameLen := by unfold finishCommand; split <;> rfl
@[simp] theorem finishCommand_src (res : List Byte) (before : Nat) (s : State) :
    (finishCommand res before s).src = s.src := by unfold finishCommand; split <;> rfl
@[simp] theorem finishCommand_name (res : List Byte) (before : Nat) (s : State) :
    (finishCommand res before s).name = s.name := by unfold finishCommand; split <;> rfl
@[simp] theorem finishCommand_hist (res : List Byte) (before : Nat) (s : State) :
    (finishCommand res before s).hist = s.hist := by unfold finishCommand; split <;> rfl
@[simp] theorem finishCommand_rmEnc (res : List Byte) (before : Nat) (s : State) :
    (finishCommand res before s).rmEnc = s.rmEnc := by unfold finishCommand; split <;> rfl
@[simp] theorem finishCommand_rmDec (res : List Byte) (before : Nat) (s : State) :
    (finishCommand res before s).rmDec = s.rmDec := by unfold finishCommand; split <;> rfl
@[simp] theorem finishCommand_swEnc (res : List Byte) (before : Nat) (s : State) :
    (finishCommand res before s).swEnc = s.swEnc := by unfold finishCommand; split <;> rfl
@[simp] theorem finishCommand_swDec (res : List Byte) (before : Nat) (s : State) :
    (finishCommand res before s).swDec = s.swDec := by unfold finishCommand; split <;> rfl
@[simp] theorem finishCommand_phase (res : List Byte) (before : Nat) (s : State) :
    (finishCommand res before s).phase = .idle := by unfold finishCommand; split <;> rfl
@[simp] theorem finishCommand_posBefore (res : List Byte) (before : Nat) (s : State) :
    (finishCommand res before s).posBefore = s.posBefore := by unfold finishCommand; split <;> rfl
@[simp] theorem finishCommand_params (res : List Byte) (before : Nat) (s : State) :
    (finishCommand res before s).params = s.params := by unfold finishCommand; split <;> rfl
@[simp] theorem finishCommand_bus (res : List Byte) (before : Nat) (s : State) :
    (finishCommand res before s).bus = s.bus := by unfold finishCommand; split <;> rfl
@[simp] theorem finishCommand_busData (res : List Byte) (before : Nat) (s : State) :
    (finishCommand res before s).busData = s.busData := by unfold finishCommand; split <;> rfl
@[simp] theorem finishCommand_port (res : List Byte) (before : Nat) (s : State) :
    (finishCommand res before s).port = s.port := by unfold finishCommand; split <;> rfl
@[simp] theorem finishCommand_portData (res : List Byte) (before : Nat) (s : State) :
    (finishCommand res before s).portData = s.portData := by unfold finishCommand; split <;> rfl
@[simp] theorem finishCommand_powerOn (res : List Byte) (before : Nat) (s : State) :
    (finishCommand res before s).powerOn = s.powerOn := by unfold finishCommand; split <;> rfl
@[simp] theorem finishCommand_outEpoch (res : List Byte) (before : Nat) (s : State) :
    (finishCommand res before s).outEpoch = s.outEpoch + 1 := by unfold finishCommand; split <;> rfl

/-! ### completeChunk, toLiteral, afterEntry (R121-R125) -/

@[simp] theorem completeChunk_status (s : State) : (completeChunk s).status = s.status := rfl
@[simp] theorem completeChunk_engine (s : State) : (completeChunk s).engine = s.engine := rfl
@[simp] theorem completeChunk_srcStart (s : State) : (completeChunk s).srcStart = s.srcStart := rfl
@[simp] theorem completeChunk_srcLen (s : State) : (completeChunk s).srcLen = s.srcLen := rfl
@[simp] theorem completeChunk_srcPos (s : State) : (completeChunk s).srcPos = s.srcPos := rfl
@[simp] theorem completeChunk_outLen (s : State) : (completeChunk s).outLen = s.outLen := rfl
@[simp] theorem completeChunk_errPos (s : State) : (completeChunk s).errPos = s.errPos := rfl
@[simp] theorem completeChunk_nameLen (s : State) : (completeChunk s).nameLen = s.nameLen := rfl
@[simp] theorem completeChunk_src (s : State) : (completeChunk s).src = s.src := rfl
@[simp] theorem completeChunk_out (s : State) : (completeChunk s).out = s.out := rfl
@[simp] theorem completeChunk_name (s : State) : (completeChunk s).name = s.name := rfl
@[simp] theorem completeChunk_hist (s : State) : (completeChunk s).hist = s.hist := rfl
@[simp] theorem completeChunk_rmEnc (s : State) : (completeChunk s).rmEnc = s.rmEnc := rfl
@[simp] theorem completeChunk_swEnc (s : State) : (completeChunk s).swEnc = s.swEnc := rfl
@[simp] theorem completeChunk_swDec (s : State) : (completeChunk s).swDec = s.swDec := rfl
@[simp] theorem completeChunk_phase (s : State) : (completeChunk s).phase = .rmCount := rfl
@[simp] theorem completeChunk_posBefore (s : State) : (completeChunk s).posBefore = s.posBefore := rfl
@[simp] theorem completeChunk_params (s : State) : (completeChunk s).params = s.params := rfl
@[simp] theorem completeChunk_bus (s : State) : (completeChunk s).bus = s.bus := rfl
@[simp] theorem completeChunk_busData (s : State) : (completeChunk s).busData = s.busData := rfl
@[simp] theorem completeChunk_port (s : State) : (completeChunk s).port = s.port := rfl
@[simp] theorem completeChunk_portData (s : State) : (completeChunk s).portData = s.portData := rfl
@[simp] theorem completeChunk_powerOn (s : State) : (completeChunk s).powerOn = s.powerOn := rfl
@[simp] theorem completeChunk_outEpoch (s : State) : (completeChunk s).outEpoch = s.outEpoch := rfl
@[simp] theorem toLiteral_status (i : Nat) (s : State) : (toLiteral i s).status = s.status := by
  unfold toLiteral; split <;> rfl
@[simp] theorem toLiteral_engine (i : Nat) (s : State) : (toLiteral i s).engine = s.engine := by
  unfold toLiteral; split <;> rfl
@[simp] theorem toLiteral_srcStart (i : Nat) (s : State) : (toLiteral i s).srcStart = s.srcStart := by
  unfold toLiteral; split <;> rfl
@[simp] theorem toLiteral_srcLen (i : Nat) (s : State) : (toLiteral i s).srcLen = s.srcLen := by
  unfold toLiteral; split <;> rfl
@[simp] theorem toLiteral_srcPos (i : Nat) (s : State) : (toLiteral i s).srcPos = s.srcPos := by
  unfold toLiteral; split <;> rfl
@[simp] theorem toLiteral_outLen (i : Nat) (s : State) : (toLiteral i s).outLen = s.outLen := by
  unfold toLiteral; split <;> rfl
@[simp] theorem toLiteral_errPos (i : Nat) (s : State) : (toLiteral i s).errPos = s.errPos := by
  unfold toLiteral; split <;> rfl
@[simp] theorem toLiteral_nameLen (i : Nat) (s : State) : (toLiteral i s).nameLen = s.nameLen := by
  unfold toLiteral; split <;> rfl
@[simp] theorem toLiteral_src (i : Nat) (s : State) : (toLiteral i s).src = s.src := by
  unfold toLiteral; split <;> rfl
@[simp] theorem toLiteral_out (i : Nat) (s : State) : (toLiteral i s).out = s.out := by
  unfold toLiteral; split <;> rfl
@[simp] theorem toLiteral_name (i : Nat) (s : State) : (toLiteral i s).name = s.name := by
  unfold toLiteral; split <;> rfl
@[simp] theorem toLiteral_hist (i : Nat) (s : State) : (toLiteral i s).hist = s.hist := by
  unfold toLiteral; split <;> rfl
@[simp] theorem toLiteral_rmEnc (i : Nat) (s : State) : (toLiteral i s).rmEnc = s.rmEnc := by
  unfold toLiteral; split <;> rfl
@[simp] theorem toLiteral_swEnc (i : Nat) (s : State) : (toLiteral i s).swEnc = s.swEnc := by
  unfold toLiteral; split <;> rfl
@[simp] theorem toLiteral_swDec (i : Nat) (s : State) : (toLiteral i s).swDec = s.swDec := by
  unfold toLiteral; split <;> rfl
@[simp] theorem toLiteral_posBefore (i : Nat) (s : State) : (toLiteral i s).posBefore = s.posBefore := by
  unfold toLiteral; split <;> rfl
@[simp] theorem toLiteral_params (i : Nat) (s : State) : (toLiteral i s).params = s.params := by
  unfold toLiteral; split <;> rfl
@[simp] theorem toLiteral_bus (i : Nat) (s : State) : (toLiteral i s).bus = s.bus := by
  unfold toLiteral; split <;> rfl
@[simp] theorem toLiteral_busData (i : Nat) (s : State) : (toLiteral i s).busData = s.busData := by
  unfold toLiteral; split <;> rfl
@[simp] theorem toLiteral_port (i : Nat) (s : State) : (toLiteral i s).port = s.port := by
  unfold toLiteral; split <;> rfl
@[simp] theorem toLiteral_portData (i : Nat) (s : State) : (toLiteral i s).portData = s.portData := by
  unfold toLiteral; split <;> rfl
@[simp] theorem toLiteral_powerOn (i : Nat) (s : State) : (toLiteral i s).powerOn = s.powerOn := by
  unfold toLiteral; split <;> rfl
@[simp] theorem toLiteral_outEpoch (i : Nat) (s : State) : (toLiteral i s).outEpoch = s.outEpoch := by
  unfold toLiteral; split <;> rfl
@[simp] theorem afterEntry_status (s : State) : (afterEntry s).status = s.status := by
  unfold afterEntry; split
  · split <;> simp
  · rfl
@[simp] theorem afterEntry_engine (s : State) : (afterEntry s).engine = s.engine := by
  unfold afterEntry; split
  · split <;> simp
  · rfl
@[simp] theorem afterEntry_srcStart (s : State) : (afterEntry s).srcStart = s.srcStart := by
  unfold afterEntry; split
  · split <;> simp
  · rfl
@[simp] theorem afterEntry_srcLen (s : State) : (afterEntry s).srcLen = s.srcLen := by
  unfold afterEntry; split
  · split <;> simp
  · rfl
@[simp] theorem afterEntry_srcPos (s : State) : (afterEntry s).srcPos = s.srcPos := by
  unfold afterEntry; split
  · split <;> simp
  · rfl
@[simp] theorem afterEntry_outLen (s : State) : (afterEntry s).outLen = s.outLen := by
  unfold afterEntry; split
  · split <;> simp
  · rfl
@[simp] theorem afterEntry_errPos (s : State) : (afterEntry s).errPos = s.errPos := by
  unfold afterEntry; split
  · split <;> simp
  · rfl
@[simp] theorem afterEntry_nameLen (s : State) : (afterEntry s).nameLen = s.nameLen := by
  unfold afterEntry; split
  · split <;> simp
  · rfl
@[simp] theorem afterEntry_src (s : State) : (afterEntry s).src = s.src := by
  unfold afterEntry; split
  · split <;> simp
  · rfl
@[simp] theorem afterEntry_out (s : State) : (afterEntry s).out = s.out := by
  unfold afterEntry; split
  · split <;> simp
  · rfl
@[simp] theorem afterEntry_name (s : State) : (afterEntry s).name = s.name := by
  unfold afterEntry; split
  · split <;> simp
  · rfl
@[simp] theorem afterEntry_hist (s : State) : (afterEntry s).hist = s.hist := by
  unfold afterEntry; split
  · split <;> simp
  · rfl
@[simp] theorem afterEntry_rmEnc (s : State) : (afterEntry s).rmEnc = s.rmEnc := by
  unfold afterEntry; split
  · split <;> simp
  · rfl
@[simp] theorem afterEntry_swEnc (s : State) : (afterEntry s).swEnc = s.swEnc := by
  unfold afterEntry; split
  · split <;> simp
  · rfl
@[simp] theorem afterEntry_swDec (s : State) : (afterEntry s).swDec = s.swDec := by
  unfold afterEntry; split
  · split <;> simp
  · rfl
@[simp] theorem afterEntry_posBefore (s : State) : (afterEntry s).posBefore = s.posBefore := by
  unfold afterEntry; split
  · split <;> simp
  · rfl
@[simp] theorem afterEntry_params (s : State) : (afterEntry s).params = s.params := by
  unfold afterEntry; split
  · split <;> simp
  · rfl
@[simp] theorem afterEntry_bus (s : State) : (afterEntry s).bus = s.bus := by
  unfold afterEntry; split
  · split <;> simp
  · rfl
@[simp] theorem afterEntry_busData (s : State) : (afterEntry s).busData = s.busData := by
  unfold afterEntry; split
  · split <;> simp
  · rfl
@[simp] theorem afterEntry_port (s : State) : (afterEntry s).port = s.port := by
  unfold afterEntry; split
  · split <;> simp
  · rfl
@[simp] theorem afterEntry_portData (s : State) : (afterEntry s).portData = s.portData := by
  unfold afterEntry; split
  · split <;> simp
  · rfl
@[simp] theorem afterEntry_powerOn (s : State) : (afterEntry s).powerOn = s.powerOn := by
  unfold afterEntry; split
  · split <;> simp
  · rfl
@[simp] theorem afterEntry_outEpoch (s : State) : (afterEntry s).outEpoch = s.outEpoch := by
  unfold afterEntry; split
  · split <;> simp
  · rfl

/-! ### swContinue (R186) -/

@[simp] theorem swContinue_engine (s : State) : (swContinue s).engine = s.engine := by
  unfold swContinue; split
  · simp
  · split <;> rfl
@[simp] theorem swContinue_srcStart (s : State) : (swContinue s).srcStart = s.srcStart := by
  unfold swContinue; split
  · simp
  · split <;> rfl
@[simp] theorem swContinue_srcLen (s : State) : (swContinue s).srcLen = s.srcLen := by
  unfold swContinue; split
  · simp
  · split <;> rfl
@[simp] theorem swContinue_nameLen (s : State) : (swContinue s).nameLen = s.nameLen := by
  unfold swContinue; split
  · simp
  · split <;> rfl
@[simp] theorem swContinue_src (s : State) : (swContinue s).src = s.src := by
  unfold swContinue; split
  · simp
  · split <;> rfl
@[simp] theorem swContinue_name (s : State) : (swContinue s).name = s.name := by
  unfold swContinue; split
  · simp
  · split <;> rfl
@[simp] theorem swContinue_hist (s : State) : (swContinue s).hist = s.hist := by
  unfold swContinue; split
  · simp
  · split <;> rfl
@[simp] theorem swContinue_rmEnc (s : State) : (swContinue s).rmEnc = s.rmEnc := by
  unfold swContinue; split
  · simp
  · split <;> rfl
@[simp] theorem swContinue_rmDec (s : State) : (swContinue s).rmDec = s.rmDec := by
  unfold swContinue; split
  · simp
  · split <;> rfl
@[simp] theorem swContinue_swEnc (s : State) : (swContinue s).swEnc = s.swEnc := by
  unfold swContinue; split
  · simp
  · split <;> rfl
@[simp] theorem swContinue_swDec (s : State) : (swContinue s).swDec = s.swDec := by
  unfold swContinue; split
  · simp
  · split <;> rfl
@[simp] theorem swContinue_posBefore (s : State) : (swContinue s).posBefore = s.posBefore := by
  unfold swContinue; split
  · simp
  · split <;> rfl
@[simp] theorem swContinue_params (s : State) : (swContinue s).params = s.params := by
  unfold swContinue; split
  · simp
  · split <;> rfl
@[simp] theorem swContinue_bus (s : State) : (swContinue s).bus = s.bus := by
  unfold swContinue; split
  · simp
  · split <;> rfl
@[simp] theorem swContinue_busData (s : State) : (swContinue s).busData = s.busData := by
  unfold swContinue; split
  · simp
  · split <;> rfl
@[simp] theorem swContinue_port (s : State) : (swContinue s).port = s.port := by
  unfold swContinue; split
  · simp
  · split <;> rfl
@[simp] theorem swContinue_portData (s : State) : (swContinue s).portData = s.portData := by
  unfold swContinue; split
  · simp
  · split <;> rfl
@[simp] theorem swContinue_powerOn (s : State) : (swContinue s).powerOn = s.powerOn := by
  unfold swContinue; split
  · simp
  · split <;> rfl

end Sys2Proof.Machine
end

