-- ==== Sys2Proof/Laws/Stream.lean ====
section
/-! SUPPORT. What the shared operations of a command can do, said once: the two ends of a command, the next literal slot,
the fetch of a stream element, and the rounds of a running DECODE. -/

namespace Sys2Proof.Machine

/-- A command whose result fits ends with it (R212, R213). -/
theorem finishCommand_of_le {res : List Byte} {s : State} (before : Nat) (h : res.length ≤ s.params.outCap) :
    finishCommand res before s =
      { s with
        status := statusDone
        errPos := 0
        outLen := res.length
        out := Memory.ofBytes 0 res
        outEpoch := s.outEpoch + 1
        phase := .idle } := if_neg (Nat.not_lt.mpr h)

/-- A command whose result does not fit fails (R228). -/
theorem finishCommand_of_lt {res : List Byte} {s : State} (before : Nat) (h : s.params.outCap < res.length) :
    finishCommand res before s = failCommand .outputOverflow 0 before s := if_pos h

/-- OUT after a successful end reads as the result (R32). -/
theorem outByte_finishCommand {res : List Byte} {s : State} (before : Nat) (h : res.length ≤ s.params.outCap)
    {a : Nat} (ha : a < res.length) : outByte (finishCommand res before s) a = res[a] := by
  simp [finishCommand_of_le before h, outByte, Memory.lookup_ofBytes, List.getElem?_eq_getElem ha]

/-- OUT after a successful end reads as the result (R32), as one run of bytes. -/
theorem outBytes_finishCommand {res : List Byte} {s : State} (before : Nat) (h : res.length ≤ s.params.outCap) :
    outBytes (finishCommand res before s) 0 res.length = res := by
  rw [outBytes_eq_map]
  refine List.ext_getElem (by simp) fun i h1 h2 => ?_
  simpa using outByte_finishCommand before h h2

/-- The STATUS words of the two ends (R24). -/
theorem statusDone_eq : statusDone = 0x01#8 := by decide

/-- The fields of an error's STATUS word (R24, R220). -/
theorem statusError_fields (e : ErrorCode) :
    stateField (statusError e) = 2 ∧ statusReserved (statusError e) = 0 ∧ errField (statusError e) = e.code := by
  cases e <;> decide

/-- MSB-first slot `i` of a mask is bit 31 − i (R10). -/
theorem mask_getMsbD (m : Mask) {i : Nat} (h : i < 32) : m.getMsbD i = m.getLsbD (31 - i) := by
  simp [BitVec.getMsbD, h]

/-- The next free slot: it lies in the range searched, every slot before it is covered, and it is free unless the range is
used up (R73). -/
theorem nextFree_spec (p : Mask) (i n : Nat) :
    i ≤ nextFree p i n ∧ nextFree p i n ≤ i + n ∧ (∀ j, i ≤ j → j < nextFree p i n → p.getMsbD j = true) ∧
      (nextFree p i n < i + n → p.getMsbD (nextFree p i n) = false) := by
  induction n generalizing i with
  | zero => simp only [nextFree]; exact ⟨le_rfl, le_rfl, fun j h1 h2 => by omega, fun h => by omega⟩
  | succ n ih =>
    simp only [nextFree]
    split
    · rename_i hp
      obtain ⟨h1, h2, h3, h4⟩ := ih (i + 1)
      refine ⟨by omega, by omega, fun j hj hj' => ?_, fun h => h4 (by omega)⟩
      by_cases hji : j = i
      · exact hji ▸ hp
      · exact h3 j (by omega) hj'
    · rename_i hp
      exact ⟨le_rfl, by omega, fun j h1 h2 => by omega, fun _ => by simpa using hp⟩

/-- Placing a value keeps the number of slots. -/
@[simp] theorem length_placeFrom (m : Mask) (v : Byte) (i : Nat) (bs : List Byte) :
    (placeFrom m v i bs).length = bs.length := by
  induction bs generalizing i with
  | nil => rfl
  | cons b bs ih => simp [placeFrom, ih]

/-- Placing a value changes exactly the slots of the mask (R122). -/
theorem getElem?_placeFrom (m : Mask) (v : Byte) (i k : Nat) (bs : List Byte) :
    (placeFrom m v i bs)[k]? = bs[k]?.map fun b => if m.getMsbD (i + k) then v else b := by
  induction bs generalizing i k with
  | nil => simp [placeFrom]
  | cons b bs ih =>
    cases k with
    | zero => simp [placeFrom]
    | succ k => simp [placeFrom, ih, Nat.add_assoc, Nat.add_comm 1 k]

/-- An element is read only when all its bytes lie below SRC_LEN, and it is what the decoder reads there (R55). -/
theorem elementAt_eq_some {p : Position} {s : State} {i : Instr} (h : elementAt p s = some i) :
    s.srcPos + p.width ≤ s.srcLen ∧ ∃ rest, decode p (srcBytes s s.srcPos p.width) = .ok (i, rest) := by
  unfold elementAt memRead at h
  split at h
  · simp at h
  · rename_i bs hbs
    split at hbs
    · rename_i hle
      refine ⟨hle, ?_⟩
      cases hbs
      split at h
      · rename_i j rest hd
        cases h
        exact ⟨rest, hd⟩
      · simp at h
    · simp at hbs

/-- An induction over the rounds of a running DECODE: what every round keeps holds after them. -/
theorem runElements_induction {P : State → Prop} (hstep : ∀ s, P s → s.phase ≠ .idle → P (elementStep s)) (n : Nat)
    {s : State} (hs : P s) : P (runElements n s) := by
  induction n generalizing s with
  | zero => exact hs
  | succ n ih =>
    simp only [runElements]
    split
    · exact hs
    · rename_i h
      exact ih (hstep s hs h)

/-- An idle state has no more rounds. -/
theorem runElements_of_idle (n : Nat) {s : State} (h : s.phase = .idle) : runElements n s = s := by
  cases n with
  | zero => rfl
  | succ n => exact if_pos h

/-- A running DECODE's first round. -/
theorem runElements_succ (n : Nat) {s : State} (h : s.phase ≠ .idle) :
    runElements (n + 1) s = runElements n (elementStep s) := if_neg h

/-- A stream position is read exactly while a DECODE runs. -/
theorem streamPosition_eq_none_iff (s : State) : streamPosition s = none ↔ s.phase = .idle := by
  unfold streamPosition
  cases s.phase <;> simp

/-- Inside a running DECODE, with no port request, a step of the machine is a round of the DECODE when the round reads an
element: the step runs the element's instruction. -/
theorem fetch_of_element {s : State} {p : Position} {i : Instr} (hport : s.port = none)
    (hp : streamPosition s = some p) (hi : elementAt p s = some i) : fetch s = .instr i s := by
  simp [fetch, hport, hp, hi]

/-- Inside a running DECODE, with no port request, end of data at the next read is what the step finds. -/
theorem fetch_of_end {s : State} {p : Position} (hport : s.port = none) (hp : streamPosition s = some p)
    (hi : elementAt p s = none) : fetch s = .endOfData s := by
  simp [fetch, hport, hp, hi]

end Sys2Proof.Machine
end

