-- ==== Sys2Proof/Tests/Slice0.lean ====
section
/-! SUPPORT. Tests: ill-formed instructions are refused; words written out from the spec's encodings decode; one command or
one element at a time against the spec's vectors (95_test_vectors.md); and for every statement with hypotheses a concrete
state and operands that meet them. -/

namespace Sys2Proof.Tests

open Sys2Proof.Machine Sys2Proof.Reference

/-! ### WellFormed refuses ill-formed terms -/

theorem test_chain_of_terminator_is_ill_formed : (Instr.rmChain 0xFF).WellFormed = false := by decide

theorem test_match_of_length_2_is_ill_formed : (Instr.swMatch 0xFEE 2).WellFormed = false := by decide

theorem test_match_of_length_19_is_ill_formed : (Instr.swMatch 0xFEE 19).WellFormed = false := by decide

/-! ### Decoding of words written out from the spec's encodings -/

/-- R71, P1: COUNT byte 02. -/
theorem test_decode_rmChain : decode .rmCount [0x02, 0x11] = .ok (.rmChain 2, [0x11]) := by decide

/-- R71, R72, P1: value 33, mask 00 1F FF FF. -/
theorem test_decode_rmEntry : decode .rmEntry [0x33, 0x00, 0x1F, 0xFF, 0xFF] = .ok (.rmEntry 0x33 0x001FFFFF, []) := by
  decide

/-- R71: a literal may be 0xFF (R74). -/
theorem test_decode_rmLit : decode .rmLit [0xFF] = .ok (.rmLit 0xFF, []) := by decide

/-- R74. -/
theorem test_decode_rmTerm : decode .rmCount [0xFF, 0xFF] = .ok (.rmTerm, [0xFF]) := by decide

/-- R77, R162: `01 2C` is 300. -/
theorem test_decode_swHdr : decode .swHdr [0x01, 0x2C] = .ok (.swHdr 300, []) := by decide

/-- R78. -/
theorem test_decode_swFlags : decode .swFlags [0x0F] = .ok (.swFlags 0x0F, []) := by decide

/-- R79. -/
theorem test_decode_swLit : decode .swLit [0x42] = .ok (.swLit 0x42, []) := by decide

/-- W9: `EE F0` is OFF = 0xFEE, L = 3. -/
theorem test_decode_swMatch : decode .swMatch [0xEE, 0xF0] = .ok (.swMatch 0xFEE 3, []) := by decide

/-- W9 and R165: `12 00` is OFF = 0x012, L = 3; `FE F1` is OFF = 0xFFE, L = 4; `EE FF` is OFF = 0xFEE, L = 18. -/
theorem test_decode_swMatch_more :
    decode .swMatch [0x12, 0x00] = .ok (.swMatch 0x012 3, []) ∧
    decode .swMatch [0xFE, 0xF1] = .ok (.swMatch 0xFFE 4, []) ∧
    decode .swMatch [0xEE, 0xFF] = .ok (.swMatch 0xFEE 18, []) := by decide

/-- R90. -/
theorem test_decode_commands :
    decode .command [0x00] = .ok (.cmdNop, []) ∧ decode .command [0x01] = .ok (.cmdSelect, []) ∧
    decode .command [0x02] = .ok (.cmdEncode, []) ∧ decode .command [0x03] = .ok (.cmdDecode, []) ∧
    decode .command [0x04] = .error .reservedCommand ∧ decode .command [0x13] = .error .reservedCommand := by decide

/-- R91, in the packing of log 6: SEED with fill AA and cursor FEE is `A8 BA 3F`. -/
theorem test_decode_histSeed : decode .histPort [0xA8, 0xBA, 0x3F] = .ok (.histSeed 0xAA 0xFEE, []) := by decide

/-- R91, in the packing of log 6: PUSH of 41 is `05 01 00`. -/
theorem test_decode_histPush : decode .histPort [0x05, 0x01, 0x00] = .ok (.histPush 0x41, []) := by decide

/-- R91, in the packing of log 6: READ of 123 is `02 8C 04`. -/
theorem test_decode_histRead : decode .histPort [0x02, 0x8C, 0x04] = .ok (.histRead 0x123, []) := by decide

/-- R91: operation code 11 is reserved. -/
theorem test_decode_hist_reserved : decode .histPort [0x03, 0x00, 0x00] = .error .reservedPortOp := by decide

/-- Table words (log 9). -/
theorem test_table_words :
    decodeTableWord 8 0xFF = some .rmTerm ∧ decodeTableWord 8 0x03 = some .cmdDecode ∧
    decodeTableWord 16 0x2C01 = some (.swHdr 300) := by decide

/-! ### Small states -/

/-- Parameters for the tests, HIST_FILL as in 95_test_vectors.md. -/
def testParams : Config.Params :=
  { histFill := 0xAA, nameRm := ⟨0x52, [0x4D]⟩, nameSwA := ⟨0x41, []⟩, nameSwB := ⟨0x42, []⟩, swTie := .backwardLast,
    srcCap := 256, outCap := 256, aw := 9 }

/-- After reset, with an engine bound and bytes in SRC from address 0 on. -/
def loaded (engine : Byte) (bs : List Byte) : State :=
  { State.reset with params := testParams, engine := engine, src := Memory.ofBytes 0 bs, srcLen := bs.length }

/-- After reset, with an identifier in NAME. -/
def named (bs : List Byte) : State :=
  { State.reset with params := testParams, name := Memory.ofBytes 0 bs, nameLen := BitVec.ofNat 8 bs.length }

/-- After reset, with host accesses pending. -/
def hosted (accesses : List HostAccess) : State := { State.reset with params := testParams, bus := accesses }

/-- A running DECODE: bytes in SRC and a place in the grammar. -/
def running (engine : Byte) (phase : Phase) (bs : List Byte) : State := { loaded engine bs with phase := phase }

/-- A running Sliding-Window DECODE of `size` bytes at a token. -/
def runningSw (size : BitVec 16) (flags : Byte) (bs : List Byte) : State :=
  { running 2 .swToken bs with
    hist := History.seed 0xAA 0xFEE, swDec := { SwDecoder.initial with size := size, flags := flags } }

/-- A state with an OUT of `n` bytes. -/
def smallOut (n : Nat) (s : State) : State := { s with params := { s.params with outCap := n } }

/-- A decoder whose result is longer than an OUT of one byte. -/
def overflowing : RmDecoder := { RmDecoder.initial with res := emptyChunk }

/-- The next state of an outcome; the reset state where there is none. -/
def nextOf : Host.Outcome State Fault Refusal → State
  | .next t => t
  | .fault _ => State.reset
  | .refused _ => State.reset

/-- What the host sees of a command: OUT[0..OUT_LEN), SRC_POS, STATUS and ERR_POS. -/
def seen (t : State) : List Byte × Nat × Byte × Nat := (outBytes t 0 t.outLen, t.srcPos, t.status, t.errPos)

/-! ### Vectors of 95_test_vectors.md, one command each -/

/-- V1. -/
theorem test_V1_rm_encode : seen (nextOf (exec .cmdEncode (loaded 1 (List.replicate 40 0)))) =
    ([0x01, 0x00, 0xFF, 0xFF, 0xFF, 0xFF, 0xFF], 32, 0x01, 0) := by decide +kernel

/-- V3. -/
theorem test_V3_rm_encode :
    seen (nextOf (exec .cmdEncode
      (loaded 1 (List.replicate 6 0x11 ++ List.replicate 5 0x22 ++ List.replicate 21 0x33)))) =
    ([0x02, 0x11, 0xFC, 0x00, 0x00, 0x00, 0x33, 0x00, 0x1F, 0xFF, 0xFF, 0x22, 0x22, 0x22, 0x22, 0x22, 0xFF], 32, 0x01, 0) := by
  decide +kernel

/-- V17: end of data inside a mask. -/
theorem test_V17_rm_decode : seen (nextOf (exec .cmdDecode (loaded 1 [0x01, 0x00, 0xFF, 0xFF]))) = ([], 2, 0x01, 0) := by
  decide +kernel

/-- V19c: overlapping masks, the later entry wins. -/
theorem test_V19c_rm_decode :
    seen (nextOf (exec .cmdDecode (loaded 1 [0x02, 0x05, 0xFF, 0xFF, 0x00, 0x00, 0x06, 0x00, 0xFF, 0xFF, 0xFF]))) =
    (List.replicate 8 0x05 ++ List.replicate 24 0x06, 11, 0x01, 0) := by decide +kernel

/-- V20's stream (W2, Scenario B). -/
theorem test_V20_sw_decode :
    seen (nextOf (exec .cmdDecode (loaded 2 [0x00, 0x07, 0x0F, 0x41, 0x41, 0x41, 0x42, 0xEE, 0xF0]))) =
    ([0x41, 0x41, 0x41, 0x42, 0x41, 0x41, 0x41], 9, 0x01, 0) := by decide +kernel

/-- V39: a token cut by end-of-data. -/
theorem test_V39_sw_decode : seen (nextOf (exec .cmdDecode (loaded 2 [0x00, 0x05, 0x01, 0x41]))) = ([], 4, 0x22, 4) := by
  decide +kernel

/-- V21. -/
theorem test_V21_sw_encode : seen (nextOf (exec .cmdEncode (loaded 3 []))) = ([0x00, 0x00], 0, 0x01, 0) := by
  decide +kernel

/-- From R163's overlapping match: `41 41 41 41` is one literal and a match of length 3 at 0xFEE. -/
theorem test_sw_encode_overlap : seen (nextOf (exec .cmdEncode (loaded 2 [0x41, 0x41, 0x41, 0x41]))) =
    ([0x00, 0x04, 0x01, 0x41, 0xEE, 0xF0], 4, 0x01, 0) := by decide +kernel

/-- V50, V52. -/
theorem test_V50_V52_select :
    (nextOf (exec .cmdSelect (named [0x52, 0x4D]))).engine = 0x01 ∧
    (nextOf (exec .cmdSelect (named [0x42]))).engine = 0x03 := by decide

/-- V54: one extra byte, the binding is lost. -/
theorem test_V54_select :
    (nextOf (exec .cmdSelect { named [0x41, 0x00] with engine := 2 })).engine = 0x00 ∧
    (nextOf (exec .cmdSelect { named [0x41, 0x00] with engine := 2 })).status = 0x12 := by decide

/-- V55. -/
theorem test_V55_nop : (nextOf (exec .cmdNop { State.reset with status := 0x12 })).status = 0x12 := by decide

/-- V65: the result is longer than OUT_CAP, SRC_POS is as before the command. -/
theorem test_V65_overflow :
    seen (nextOf (exec .cmdDecode
      { loaded 2 [0x00, 0x02, 0x01, 0x41, 0xEE, 0xF0] with srcPos := 5, params := { testParams with outCap := 1 } })) =
    ([], 5, 0x72, 0) := by decide +kernel

/-! ### One element or port operation each -/

/-- R121: `c = 0` goes on with the literal of slot 0. -/
theorem test_chain_of_0 : (nextOf (exec (.rmChain 0) (running 1 .rmCount [0x00]))).phase = .rmLit := by decide

/-- R122, P1: value 33 with mask 001FFFFF fills slots 11..31. -/
theorem test_entry_slots :
    ((nextOf (exec (.rmEntry 0x33 0x001FFFFF) (running 1 .rmEntry []))).rmDec.chunk[10]?,
      (nextOf (exec (.rmEntry 0x33 0x001FFFFF) (running 1 .rmEntry []))).rmDec.chunk[11]?) = (some 0, some 0x33) := by
  decide

/-- R124, P1: with PATTERN FC1FFFFF the literal after slot 6 goes to slot 7, and the one at slot 10 is the last. -/
theorem test_literal_slots :
    (nextOf (exec (.rmLit 0x22) { running 1 .rmLit [] with
      rmDec := { RmDecoder.initial with pattern := 0xFC1FFFFF, slot := 6 } })).rmDec.slot = 7 ∧
    (nextOf (exec (.rmLit 0x22) { running 1 .rmLit [] with
      rmDec := { RmDecoder.initial with pattern := 0xFC1FFFFF, slot := 10 } })).phase = .rmCount := by decide

/-- V14. -/
theorem test_V14_term : seen (nextOf (exec .rmTerm (running 1 .rmCount [0xFF]))) = ([], 1, 0x01, 0) := by decide

/-- V34: SIZE = 0 ends the command after the header. -/
theorem test_V34_header : seen (nextOf (exec (.swHdr 0) (running 2 .swHdr [0x00, 0x00]))) = ([], 2, 0x01, 0) := by decide

/-- R182: bit 0 of 0x0F is a literal, bit 0 of 0xF0 a match. -/
theorem test_flags_bit_order :
    streamPosition (nextOf (exec (.swFlags 0x0F) { runningSw 5 0 [] with phase := .swFlags })) = some .swLit ∧
    streamPosition (nextOf (exec (.swFlags 0xF0) { runningSw 5 0 [] with phase := .swFlags })) = some .swMatch := by
  decide

/-- V41 through a literal: W[0xFEE] = 0x41 and HPOS = 0xFEF. -/
theorem test_literal_pushes :
    (nextOf (exec (.swLit 0x41) (runningSw 5 0xFF [0x41]))).hist = { fill := 0xAA, cells := [(0xFEE, 0x41)], pos := 0xFEF } := by
  decide

/-- V46: nine 0x41 from one in the window, HPOS = 0xFF8. -/
theorem test_V46_self_referential_copy :
    (nextOf (exec (.swMatch 0xFEE 9) { runningSw 100 0 [] with hist := (History.seed 0xAA 0xFEE).push 0x41 })).swDec.res =
      List.replicate 9 0x41 ∧
    (nextOf (exec (.swMatch 0xFEE 9)
      { runningSw 100 0 [] with hist := (History.seed 0xAA 0xFEE).push 0x41 })).hist.pos = 0xFF8 := by decide

/-- V47: a copy from the cursor's own position reads the fill. -/
theorem test_V47_copy_at_the_cursor :
    (nextOf (exec (.swMatch 0xFEE 3) (runningSw 100 0 []))).swDec.res = [0xAA, 0xAA, 0xAA] := by decide

/-- V40. -/
theorem test_V40_seed_and_read :
    (nextOf (exec (.histRead 0x123) (nextOf (exec (.histSeed 0xAA 0xFEE) State.reset)))).portData = 0xAA := by decide

/-- R142: a push at 0xFFF wraps the cursor to 0. -/
theorem test_push_wraps :
    (nextOf (exec (.histPush 0x41) { State.reset with hist := History.seed 0xAA 0xFFF })).hist =
      { fill := 0xAA, cells := [(0xFFF, 0x41)], pos := 0x000 } := by decide

/-- V45: Dview(0xFFE, 3) after 19 pushes is W[0xFFE]. -/
theorem test_V45_dview :
    ((History.seed 0xAA 0xFEE).pushAll ((List.range 19).map fun k => BitVec.ofNat 8 (k + 1))).dview 0xFFE 3 = 0x11 := by
  decide

/-- R22: a host access to a register number that does not exist faults (log 7). -/
theorem test_no_register_9 : step (hosted [.readReg 9]) = .fault (.noSuchRegister 9) := by rfl

/-! ### The hypotheses of the statements can be met

One theorem for each statement with hypotheses, named after it; its operands are boundary values where a clause has a
range. -/

theorem test_meets_DecodeOfEncodeIsTheInstruction :
    (Instr.swMatch 0xFFF 3).WellFormed = true ∧ (Instr.swMatch 0x000 18).WellFormed = true ∧
    (Instr.rmChain 0xFE).WellFormed = true := by decide

theorem test_meets_EncodeOfDecodeIsTheBytesRead :
    Position.swMatch ≠ .histPort ∧ decode .swMatch [0xFF, 0xFF] = .ok (.swMatch 0xFFF 18, []) ∧
    decode .rmCount [0xFE, 0x00] = .ok (.rmChain 0xFE, [0x00]) := by decide

theorem test_meets_EveryStreamByteSequenceIsAnElement :
    Position.rmEntry ≠ .command ∧ Position.rmEntry ≠ .histPort ∧
    Position.rmEntry.width ≤ ([0x00, 0xFF, 0xFF, 0xFF, 0xFF] : List Byte).length := by decide

theorem test_meets_MatchTokenFields : (3 ≤ 3 ∧ 3 ≤ 18) ∧ 3 ≤ 18 ∧ 18 ≤ 18 := by decide

theorem test_meets_SourceReadsAreBigEndian :
    0 + 4 ≤ (loaded 1 [0x01, 0x02, 0x03, 0x04]).srcLen ∧ 2 + 2 ≤ (loaded 1 [0x01, 0x02, 0x03, 0x04]).srcLen ∧
    3 + 1 ≤ (loaded 1 [0x01, 0x02, 0x03, 0x04]).srcLen := by decide

theorem test_meets_StepRunsDecodedInstruction_element :
    (running 1 .rmCount [0xFF]).port = none ∧ streamPosition (running 1 .rmCount [0xFF]) = some .rmCount ∧
    (running 1 .rmCount [0xFF]).srcPos + Position.rmCount.width ≤ (running 1 .rmCount [0xFF]).srcLen ∧
    decode .rmCount (srcBytes (running 1 .rmCount [0xFF]) (running 1 .rmCount [0xFF]).srcPos Position.rmCount.width) =
      .ok (.rmTerm, []) := by decide

theorem test_meets_StepRunsDecodedInstruction_command :
    (hosted [.writeReg 0 3]).port = none ∧ (hosted [.writeReg 0 3]).phase = .idle ∧
    (hosted [.writeReg 0 3]).bus = .writeReg 0 3 :: [] ∧ regOfNumber 0 = some .cmd ∧
    decode .command [BitVec.ofNat 8 3] = .ok (.cmdDecode, []) := by decide

theorem test_meets_StepRunsDecodedInstruction_port :
    ({ State.reset with port := some ⟨2, 0, 0xFFF⟩ } : State).port = some ⟨2, 0, 0xFFF⟩ ∧
    decodePort ⟨2, 0, 0xFFF⟩ = .ok (.histRead 0xFFF) := by decide

theorem test_meets_ReservedCommandIsIllegal :
    (hosted [.writeReg 0 4]).port = none ∧ (hosted [.writeReg 0 4]).phase = .idle ∧
    (hosted [.writeReg 0 4]).bus = .writeReg 0 4 :: [] ∧ 4 ≤ ((BitVec.ofNat 8 4).extractLsb' 0 4).toNat ∧
    (hosted [.writeReg 0 0x13]).bus = .writeReg 0 0x13 :: [] ∧ (BitVec.ofNat 8 0x13).extractLsb' 4 4 ≠ 0 := by decide

theorem test_meets_CoreWaitsForTheHost :
    State.reset.port = none ∧ State.reset.phase = .idle ∧ State.reset.bus = [] := by decide

theorem test_meets_ReservedPortOperationIsRefused :
    ({ State.reset with port := some ⟨3, 0, 0⟩ } : State).port = some ⟨3, 0, 0⟩ ∧ (⟨3, 0, 0⟩ : PortReq).hop = 3 := by
  decide

theorem test_meets_RmEndOfDataIsATerminator :
    (running 1 .rmCount []).port = none ∧
    ((running 1 .rmCount []).phase = .rmCount ∧ (running 1 .rmCount []).srcLen < (running 1 .rmCount []).srcPos + 1) ∧
    ((running 1 .rmLit []).phase = .rmLit ∧ (running 1 .rmLit []).srcLen < (running 1 .rmLit []).srcPos + 1) ∧
    ((running 1 .rmEntry [0, 0, 0, 0]).phase = .rmEntry ∧
      (running 1 .rmEntry [0, 0, 0, 0]).srcLen < (running 1 .rmEntry [0, 0, 0, 0]).srcPos + 5) ∧
    (running 1 .rmCount []).rmDec.res.length ≤ (running 1 .rmCount []).params.outCap ∧
    ({ smallOut 1 (running 1 .rmCount []) with rmDec := overflowing } : State).params.outCap <
      ({ smallOut 1 (running 1 .rmCount []) with rmDec := overflowing } : State).rmDec.res.length := by decide

theorem test_meets_SwEndOfDataIsSourceExhausted :
    (runningSw 5 0 [0xEE]).port = none ∧ streamPosition (runningSw 5 0 [0xEE]) = some .swMatch ∧
    (runningSw 5 0 [0xEE]).srcLen < (runningSw 5 0 [0xEE]).srcPos + Position.swMatch.width := by decide

/-- The clauses of the invariant for a small state. -/
theorem loaded_sound : (loaded 1 [0xFF]).Sound where
  params_legal := by decide
  srcStart_lt := by decide
  srcLen_lt := by decide
  srcPos_lt := by decide
  outLen_lt := by decide
  errPos_lt := by decide
  outLen_le := by decide
  status_reserved := by decide
  status_state := by decide
  status_err := by decide
  status_err_le := by decide
  engine_reserved := by decide
  src_wf := by decide
  src_below := by decide
  out_wf := by decide
  out_listed := fun a => ⟨fun h => Bool.noConfusion h, fun h => absurd h (Nat.not_lt_zero a)⟩
  name_wf := by decide
  name_below := by decide
  hist_wf := by decide

/-- The invariant holds in a state between commands, from which a step goes on. -/
theorem test_meets_StepKeepsOk_idle :
    (loaded 1 [0xFF]).Ok ∧ ∃ t, step (loaded 1 [0xFF]) = .next t :=
  ⟨⟨loaded_sound, fun h => absurd rfl h⟩, _, rfl⟩

/-- The invariant holds in a state inside a running DECODE, from which a step goes on. -/
theorem test_meets_StepKeepsOk_running :
    (beginDecode (loaded 1 [0xFF])).Ok ∧ ∃ t, step (beginDecode (loaded 1 [0xFF])) = .next t := by
  have h := loaded_sound
  refine ⟨⟨⟨h.1, h.2, h.3, by decide, h.5, h.6, h.7, h.8, h.9, h.10, h.11, h.12, h.13, h.14, h.15, h.16, h.17, h.18, h.19⟩,
    fun _ => ?_⟩, _, rfl⟩
  exact {
    srcLen_le := by decide
    srcPos_le := by decide
    posBefore_lt := by decide
    rm := by decide
    rm_entry := by decide
    rm_lit := by decide
    sw := by decide
    sw_hdr := by decide
    sw_size := by decide
    sw_bit := by decide }

theorem test_meets_EveryCommandRunsToCompletion :
    (hosted [.writeReg 0 3]).phase = .idle ∧ ∃ t, step (hosted [.writeReg 0 3]) = .next t := ⟨rfl, _, rfl⟩

theorem test_meets_DecodeCommandIsItsElementSteps :
    (loaded 1 [0xFF]).port = none ∧ (loaded 1 [0xFF]).engine = 1 ∧
    (loaded 1 [0xFF]).srcLen ≤ (loaded 1 [0xFF]).params.srcCap ∧ (loaded 1 [0xFF]).srcStart ≤ (loaded 1 [0xFF]).srcLen := by
  decide

theorem test_meets_NoInstructionWritesTheSource : ∃ t, exec .cmdDecode (loaded 1 [0xFF]) = .next t := ⟨_, rfl⟩

theorem test_meets_OnlySelectWritesEngine :
    Instr.cmdDecode ≠ .cmdSelect ∧ ∃ t, exec .cmdDecode (loaded 1 [0xFF]) = .next t := ⟨by decide, _, rfl⟩

theorem test_meets_FailureDeliversNothing :
    exec .cmdSelect (named [0x00]) = .next (selectCommand (named [0x00])) ∧
    stateField (selectCommand (named [0x00])).status = 2 ∧ errField (selectCommand (named [0x00])).status ≠ 2 ∧
    exec .cmdDecode (loaded 2 []) = .next (decodeStream (loaded 2 [])) ∧
    stateField (decodeStream (loaded 2 [])).status = 2 ∧ errField (decodeStream (loaded 2 [])).status = 2 :=
  ⟨rfl, by decide, by decide, rfl, by decide, by decide⟩

theorem test_meets_SwIdentifiersBehaveAlike :
    ∃ t, exec .cmdEncode { loaded 1 [0x41] with engine := 2 } = .next t := ⟨_, rfl⟩

theorem test_meets_CommandsDependOnlyOnTheirInputs :
    (∀ a, a < (loaded 1 [0xFF]).srcLen →
      srcByte { loaded 1 [0xFF] with outLen := 3, src := [(0, 0xFF), (1, 0)] } a = srcByte (loaded 1 [0xFF]) a) ∧
    (∃ t, exec .cmdDecode (loaded 1 [0xFF]) = .next t) ∧
    ∃ t, exec .cmdDecode { loaded 1 [0xFF] with outLen := 3, src := [(0, 0xFF), (1, 0)] } = .next t := by
  refine ⟨fun a ha => ?_, ⟨_, rfl⟩, _, rfl⟩
  obtain rfl : a = 0 := by simpa [loaded] using ha
  rfl

theorem test_meets_HistPushWritesAtTheCursor : State.reset.hist.wf = true := by decide

theorem test_meets_WindowIsACircularFifo : 0 < [(0x41 : Byte)].length ∧ 0 < 4096 ∧ (0xFEE + (1 - 1 - 0)) % 4096 ≠ 0x000 := by
  decide

theorem test_meets_CopyStepsReturnDview :
    ((History.seed 0xAA 0xFEE).push 0x41).wf = true ∧ 17 < 18 ∧ 18 ≤ 18 ∧ ([] : List Byte).length + 18 ≤ 18 := by decide

theorem test_meets_RmEntryPlacesItsValue_more :
    ({ running 1 .rmEntry [] with rmDec := { RmDecoder.initial with left := 2 } } : State).rmDec.chunk.length = 32 ∧
    1 < ({ running 1 .rmEntry [] with rmDec := { RmDecoder.initial with left := 2 } } : State).rmDec.left := by decide

theorem test_meets_RmEntryPlacesItsValue_last :
    ({ running 1 .rmEntry [] with rmDec := { RmDecoder.initial with left := 1 } } : State).rmDec.chunk.length = 32 ∧
    ({ running 1 .rmEntry [] with rmDec := { RmDecoder.initial with left := 1 } } : State).rmDec.left = 1 ∧
    (nextOf (exec (.rmEntry 0x00 0xFFFFFFFF) { running 1 .rmEntry [] with
      rmDec := { RmDecoder.initial with left := 1 } })).rmDec.pattern = 0xFFFFFFFF#32 ∧
    (nextOf (exec (.rmEntry 0x00 0x7FFFFFFF) { running 1 .rmEntry [] with
      rmDec := { RmDecoder.initial with left := 1 } })).rmDec.pattern ≠ 0xFFFFFFFF#32 := by decide

theorem test_meets_RmLiteralFillsItsSlot_more :
    (running 1 .rmLit []).rmDec.chunk.length = 32 ∧ (running 1 .rmLit []).rmDec.slot < 32 ∧
    ∃ j, (running 1 .rmLit []).rmDec.slot < j ∧ j < 32 ∧ (running 1 .rmLit []).rmDec.pattern.getLsbD (31 - j) = false :=
  ⟨by decide, by decide, 1, by decide⟩

theorem test_meets_RmLiteralFillsItsSlot_last :
    ({ running 1 .rmLit [] with rmDec := { RmDecoder.initial with slot := 31 } } : State).rmDec.chunk.length = 32 ∧
    ({ running 1 .rmLit [] with rmDec := { RmDecoder.initial with slot := 31 } } : State).rmDec.slot < 32 ∧
    ∀ j, 31 < j → j < 32 →
      ({ running 1 .rmLit [] with rmDec := { RmDecoder.initial with slot := 31 } } : State).rmDec.pattern.getLsbD (31 - j) =
        true := ⟨by decide, by decide, fun j h1 h2 => by omega⟩

theorem test_meets_RmTermEndsTheDecode :
    (running 1 .rmCount [0xFF]).rmDec.res.length ≤ (running 1 .rmCount [0xFF]).params.outCap ∧
    ({ smallOut 1 (running 1 .rmCount [0xFF]) with rmDec := overflowing } : State).params.outCap <
      ({ smallOut 1 (running 1 .rmCount [0xFF]) with rmDec := overflowing } : State).rmDec.res.length := by decide

theorem test_meets_SwHeaderSeedsTheWindow :
    (running 2 .swHdr [0x00, 0x01]).swDec.res = [] ∧ (1 : BitVec 16) ≠ 0 ∧ (0 : BitVec 16) = 0 := by decide

theorem test_meets_SwFlagsOpensAGroup : (runningSw 1 0 [0xFF]).swDec.res.length < (runningSw 1 0 [0xFF]).swDec.size.toNat := by
  decide

theorem test_meets_SwLiteralEmitsAndPushes_more :
    (runningSw 2 0xFF [0x41]).hist.wf = true ∧
    (runningSw 2 0xFF [0x41]).swDec.res.length + 1 < (runningSw 2 0xFF [0x41]).swDec.size.toNat := by decide

theorem test_meets_SwLiteralEmitsAndPushes_last :
    (runningSw 1 0xFF [0x41]).hist.wf = true ∧
    (runningSw 1 0xFF [0x41]).swDec.res.length < (runningSw 1 0xFF [0x41]).swDec.size.toNat ∧
    (runningSw 1 0xFF [0x41]).swDec.res.length + 1 = (runningSw 1 0xFF [0x41]).swDec.size.toNat ∧
    (runningSw 1 0xFF [0x41]).swDec.size.toNat ≤ (runningSw 1 0xFF [0x41]).params.outCap := by decide

/-- A result one byte longer than OUT_CAP: 256 bytes are out, the 257th is the last. -/
theorem test_meets_SwLiteralEmitsAndPushes_overflow :
    (256 : Nat) < (257 : BitVec 16).toNat ∧ 256 + 1 = (257 : BitVec 16).toNat ∧
    (runningSw 257 0xFF [0x41]).params.outCap < (runningSw 257 0xFF [0x41]).swDec.size.toNat ∧
    ({ runningSw 257 0xFF [0x41] with
        swDec := { (runningSw 257 0xFF [0x41]).swDec with res := List.replicate 256 0 } } : State).swDec.res.length = 256 := by
  decide +kernel

theorem test_meets_SwMatchCopiesFromTheWindow_more :
    3 ≤ 18 ∧ (runningSw 4 0 [0xEE, 0xF0]).hist.wf = true ∧
    (runningSw 4 0 [0xEE, 0xF0]).swDec.res.length < (runningSw 4 0 [0xEE, 0xF0]).swDec.size.toNat ∧
    (runningSw 4 0 [0xEE, 0xF0]).swDec.res.length + 3 < (runningSw 4 0 [0xEE, 0xF0]).swDec.size.toNat := by decide

theorem test_meets_SwMatchCopiesFromTheWindow_last :
    18 ≤ 18 ∧ (runningSw 18 0 [0xEE, 0xFF]).hist.wf = true ∧
    (runningSw 18 0 [0xEE, 0xFF]).swDec.res.length < (runningSw 18 0 [0xEE, 0xFF]).swDec.size.toNat ∧
    (runningSw 18 0 [0xEE, 0xFF]).swDec.size.toNat ≤ (runningSw 18 0 [0xEE, 0xFF]).swDec.res.length + 18 ∧
    (runningSw 18 0 [0xEE, 0xFF]).swDec.size.toNat ≤ (runningSw 18 0 [0xEE, 0xFF]).params.outCap := by decide

theorem test_meets_SwMatchCopiesFromTheWindow_overflow :
    ({ runningSw 18 0 [0xEE, 0xFF] with params := { testParams with outCap := 17 } } : State).hist.wf = true ∧
    ({ runningSw 18 0 [0xEE, 0xFF] with params := { testParams with outCap := 17 } } : State).swDec.size.toNat ≤
      ({ runningSw 18 0 [0xEE, 0xFF] with params := { testParams with outCap := 17 } } : State).swDec.res.length + 18 ∧
    ({ runningSw 18 0 [0xEE, 0xFF] with params := { testParams with outCap := 17 } } : State).params.outCap <
      ({ runningSw 18 0 [0xEE, 0xFF] with params := { testParams with outCap := 17 } } : State).swDec.size.toNat := by
  decide

theorem test_meets_SelectBindsTheNamedEngine :
    (named [0x52, 0x4D]).params.legal = true ∧
    nameBytes (named [0x52, 0x4D]) 0 (named [0x52, 0x4D]).nameLen.toNat = (named [0x52, 0x4D]).params.nameRm.bytes ∧
    nameBytes (named [0x41]) 0 (named [0x41]).nameLen.toNat = (named [0x41]).params.nameSwA.bytes ∧
    nameBytes (named [0x42]) 0 (named [0x42]).nameLen.toNat = (named [0x42]).params.nameSwB.bytes := by decide

theorem test_meets_SelectOfAnUnknownNameFails :
    nameBytes (named [0x00]) 0 (named [0x00]).nameLen.toNat ≠ (named [0x00]).params.nameRm.bytes ∧
    nameBytes (named [0x00]) 0 (named [0x00]).nameLen.toNat ≠ (named [0x00]).params.nameSwA.bytes ∧
    nameBytes (named [0x00]) 0 (named [0x00]).nameLen.toNat ≠ (named [0x00]).params.nameSwB.bytes := by decide

theorem test_meets_UnknownAndEmptyNamesSelectNothing :
    (named Config.unknownName).params.legal = true ∧ (named Config.unknownName).nameLen = 7 ∧
    nameBytes (named Config.unknownName) 0 7 = [0x55, 0x4E, 0x4B, 0x4E, 0x4F, 0x57, 0x4E] ∧
    (named []).params.legal = true ∧ (named []).nameLen = 0 := by decide

theorem test_meets_NoCodecIsCheckedFirst : State.reset.engine = 0x00 := by decide

theorem test_meets_BadRangeIsCheckedBeforeTheEngine :
    (loaded 1 []).engine = 1 ∧
    ({ loaded 1 [] with srcLen := 257 } : State).params.srcCap < ({ loaded 1 [] with srcLen := 257 } : State).srcLen ∧
    ({ loaded 1 [] with srcStart := 1 } : State).srcLen < ({ loaded 1 [] with srcStart := 1 } : State).srcStart := by
  decide

/-- A state with a large SRC. -/
def large (n : Nat) : State :=
  { loaded 2 [] with params := { testParams with srcCap := 65536, aw := 17 }, srcLen := n }

theorem test_meets_LongInputIsRefusedBySwEncode :
    (large 65536).engine = 2 ∧ (large 65536).srcLen ≤ (large 65536).params.srcCap ∧
    65535 < (large 65536).srcLen - (large 65536).srcStart := by decide

theorem test_meets_RmEncodeDeliversTheStream :
    (loaded 1 [0x00]).engine = 1 ∧ (loaded 1 [0x00]).srcLen ≤ (loaded 1 [0x00]).params.srcCap ∧
    (loaded 1 [0x00]).srcStart ≤ (loaded 1 [0x00]).srcLen ∧
    (rmEncodeStream (srcBytes (loaded 1 [0x00]) 0 1)).length ≤ (loaded 1 [0x00]).params.outCap ∧
    (smallOut 6 (loaded 1 emptyChunk)).engine = 1 ∧
    (smallOut 6 (loaded 1 emptyChunk)).params.outCap <
      (rmEncodeStream (srcBytes (smallOut 6 (loaded 1 emptyChunk)) 0 32)).length := by decide +kernel

theorem test_meets_SwEncodeDeliversTheStream :
    (loaded 2 []).engine = 2 ∧ (loaded 2 []).srcLen ≤ (loaded 2 []).params.srcCap ∧
    (loaded 2 []).srcStart ≤ (loaded 2 []).srcLen ∧ (loaded 2 []).srcLen - (loaded 2 []).srcStart ≤ 65535 ∧
    (swEncodeStream 0xAA .backwardLast (srcBytes (loaded 2 []) 0 0)).length ≤ (loaded 2 []).params.outCap ∧
    (smallOut 1 (loaded 2 [])).engine = 2 ∧
    (smallOut 1 (loaded 2 [])).params.outCap <
      (swEncodeStream 0xAA .backwardLast (srcBytes (smallOut 1 (loaded 2 [])) 0 0)).length := by decide +kernel

theorem test_meets_RmDecodeDeliversTheChunks :
    (loaded 1 [0x01, 0x00, 0xFF, 0xFF, 0xFF, 0xFF]).engine = 1 ∧
    (rmDecode (srcBytes (loaded 1 [0x01, 0x00, 0xFF, 0xFF, 0xFF, 0xFF]) 0 6)).1.length ≤ 256 ∧
    (smallOut 31 (loaded 1 [0x01, 0x00, 0xFF, 0xFF, 0xFF, 0xFF])).engine = 1 ∧
    (smallOut 31 (loaded 1 [0x01, 0x00, 0xFF, 0xFF, 0xFF, 0xFF])).params.outCap <
      (rmDecode (srcBytes (smallOut 31 (loaded 1 [0x01, 0x00, 0xFF, 0xFF, 0xFF, 0xFF])) 0 6)).1.length := by
  decide +kernel

theorem test_meets_SwDecodeDeliversTheBytes :
    (loaded 3 [0x00, 0x01, 0x01, 0x41]).engine = 3 ∧
    (loaded 3 [0x00, 0x01, 0x01, 0x41]).srcLen ≤ (loaded 3 [0x00, 0x01, 0x01, 0x41]).params.srcCap ∧
    (loaded 3 [0x00, 0x01, 0x01, 0x41]).srcStart ≤ (loaded 3 [0x00, 0x01, 0x01, 0x41]).srcLen ∧
    swDecode 0xAA (srcBytes (loaded 3 [0x00, 0x01, 0x01, 0x41]) 0 4) = .done [0x41] 4 ∧
    swDecode 0xAA (srcBytes (loaded 3 [0x00, 0x01, 0x01]) 0 3) = .exhausted 3 := by decide

theorem test_meets_RmDecodeNeverFailsOnContent :
    (loaded 1 [0xFF]).engine = 1 ∧ (loaded 1 [0xFF]).srcLen ≤ (loaded 1 [0xFF]).params.srcCap ∧
    (loaded 1 [0xFF]).srcStart ≤ (loaded 1 [0xFF]).srcLen ∧ ∃ t, exec .cmdDecode (loaded 1 [0xFF]) = .next t :=
  ⟨by decide, by decide, by decide, _, rfl⟩

theorem test_meets_OccurrenceMaskBits : emptyChunk.length = 32 ∧ 0 < 32 ∧ 31 < 32 ∧ (1 : Byte) ≠ 0 := by decide

/-- The terminator after an even and after an odd number of bytes (R108). -/
theorem test_terminate : rmTerminate 6 = [0xFF] ∧ rmTerminate 33 = [0xFF, 0xFF] := by decide

/-- The quantities that R8 derives from the fixed parameters, the widths among them. -/
theorem test_R8_quantities :
    Config.winCursor0.toNat = Config.winSize - Config.maxMatch ∧ Config.winSize = 2 ^ Config.offBits ∧
    Config.maxMatch - Config.minMatch + 1 = 2 ^ Config.lenBits ∧ Config.maxRaw = 2 ^ Config.sizeBits - 1 ∧
    Config.maskBits = Config.chunkLen := by decide

theorem test_meets_EncodedChainsAreCanonical : emptyChunk.length = 32 ∧ (0 : Byte) ∈ rmOrder emptyChunk := by decide +kernel

/-- A Run/Mask ENCODE that succeeds, and a state whose SRC holds what it delivered. -/
theorem test_meets_RmDecodeOfEncodeIsTheRawBlock :
    exec .cmdEncode (loaded 1 emptyChunk) = .next (encodeCommand (loaded 1 emptyChunk)) ∧
    stateField (encodeCommand (loaded 1 emptyChunk)).status = 1 ∧
    (loaded 1 [0x01, 0x00, 0xFF, 0xFF, 0xFF, 0xFF, 0xFF]).srcLen =
      (loaded 1 [0x01, 0x00, 0xFF, 0xFF, 0xFF, 0xFF, 0xFF]).srcStart + (encodeCommand (loaded 1 emptyChunk)).outLen ∧
    srcBytes (loaded 1 [0x01, 0x00, 0xFF, 0xFF, 0xFF, 0xFF, 0xFF])
        (loaded 1 [0x01, 0x00, 0xFF, 0xFF, 0xFF, 0xFF, 0xFF]).srcStart (encodeCommand (loaded 1 emptyChunk)).outLen =
      outBytes (encodeCommand (loaded 1 emptyChunk)) 0 (encodeCommand (loaded 1 emptyChunk)).outLen :=
  ⟨rfl, by decide +kernel, by decide +kernel, by decide +kernel⟩

theorem test_meets_RmStreamLengthIsOdd :
    exec .cmdEncode (loaded 1 emptyChunk) = .next (encodeCommand (loaded 1 emptyChunk)) ∧
    stateField (encodeCommand (loaded 1 emptyChunk)).status = 1 := ⟨rfl, by decide +kernel⟩

theorem test_meets_MatchLengthIsTheLargest : 1 ≤ min 18 ([0xAA] : List Byte).length ∧ 0 < 1 := by decide

/-- On a fresh window of fill 00 the input `00 00 00` matches with length 3. -/
theorem test_meets_SearchFindsTheLongestMatch :
    3 ≤ (searchFrom .backwardLast (History.seed 0x00 0xFEE) [0x00, 0x00, 0x00] 1 0xFED 0 0).2 ∧
    matchLen (History.seed 0x00 0xFEE) 0xFED [0x00, 0x00, 0x00] = 3 := by decide

theorem test_meets_SwStreamBounds : ([0x41] : List Byte).length ≤ 65535 := by decide

/-- A Sliding-Window ENCODE that succeeds, and a state whose SRC holds what it delivered. -/
theorem test_meets_SwDecodeOfEncodeIsTheRawBlock :
    exec .cmdEncode (loaded 2 [0x41]) = .next (encodeCommand (loaded 2 [0x41])) ∧
    stateField (encodeCommand (loaded 2 [0x41])).status = 1 ∧
    (loaded 3 [0x00, 0x01, 0x01, 0x41]).engine = 3 ∧
    (loaded 3 [0x00, 0x01, 0x01, 0x41]).srcLen =
      (loaded 3 [0x00, 0x01, 0x01, 0x41]).srcStart + (encodeCommand (loaded 2 [0x41])).outLen ∧
    srcBytes (loaded 3 [0x00, 0x01, 0x01, 0x41]) (loaded 3 [0x00, 0x01, 0x01, 0x41]).srcStart
        (encodeCommand (loaded 2 [0x41])).outLen =
      outBytes (encodeCommand (loaded 2 [0x41])) 0 (encodeCommand (loaded 2 [0x41])).outLen :=
  ⟨rfl, by decide +kernel, by decide, by decide +kernel, by decide +kernel⟩

theorem test_meets_WrittenRegistersReadBack :
    (hosted [.writeReg 3 511, .readReg 3]).port = none ∧ (hosted [.writeReg 3 511, .readReg 3]).phase = .idle ∧
    511 < 2 ^ (hosted [.writeReg 3 511, .readReg 3]).params.aw ∧
    (hosted [.writeReg 3 511, .readReg 3]).bus = .writeReg 3 511 :: .readReg 3 :: [] ∧
    (hosted [.writeReg 4 511, .readReg 4]).bus = .writeReg 4 511 :: .readReg 4 :: [] ∧
    (hosted [.writeReg 8 255, .readReg 8]).bus = .writeReg 8 255 :: .readReg 8 :: [] ∧ 255 < 256 := by decide

theorem test_meets_ReadOnlyRegistersIgnoreWrites :
    (hosted [.writeReg 1 7]).port = none ∧ (hosted [.writeReg 1 7]).phase = .idle ∧
    (hosted [.writeReg 1 7]).bus = .writeReg 1 7 :: [] ∧ (hosted [.writeReg 7 7]).bus = .writeReg 7 7 :: [] ∧
    (hosted [.readReg 0]).bus = .readReg 0 :: [] := by decide

theorem test_meets_HostWritesOneSourceByte :
    (hosted [.writeSrc 255 0x41]).port = none ∧ (hosted [.writeSrc 255 0x41]).phase = .idle ∧
    (hosted [.writeSrc 255 0x41]).bus = .writeSrc 255 0x41 :: [] ∧ 255 < (hosted [.writeSrc 255 0x41]).params.srcCap ∧
    (hosted [.writeSrc 256 0x41]).bus = .writeSrc 256 0x41 :: [] ∧
    (hosted [.writeSrc 256 0x41]).params.srcCap ≤ 256 ∧
    (hosted [.writeName 254 0x41]).bus = .writeName 254 0x41 :: [] ∧ 254 < 255 ∧
    (hosted [.writeName 255 0x41]).bus = .writeName 255 0x41 :: [] ∧
    (hosted [.writeReg 9 1]).bus = .writeReg 9 1 :: [] ∧ 8 < 9 := by decide

/-- R22's register map: the number of every readable register reads that register. -/
theorem test_R22_register_map (s : State) :
    ((List.range 10).map fun n => (regOfNumber n).map (readReg s)) =
      [some 0, some s.status.toNat, some s.engine.toNat, some s.srcStart, some s.srcLen, some s.srcPos, some s.outLen,
        some s.errPos, some s.nameLen.toNat, none] := rfl

theorem test_meets_HostReadsReturnWhatIsThere :
    (hosted [.readReg 8]).port = none ∧ (hosted [.readReg 8]).phase = .idle ∧
    (hosted [.readReg 8]).bus = .readReg 8 :: [] ∧
    (hosted [.readReg 0]).bus = .readReg 0 :: [] ∧
    (hosted [.readReg 9]).bus = .readReg 9 :: [] ∧ 8 < 9 ∧
    (hosted [.readSrc 255]).bus = .readSrc 255 :: [] ∧ 255 < (hosted [.readSrc 255]).params.srcCap ∧
    (hosted [.readSrc 256]).bus = .readSrc 256 :: [] ∧ (hosted [.readSrc 256]).params.srcCap ≤ 256 ∧
    (hosted [.readOut 255]).bus = .readOut 255 :: [] ∧ 255 < (hosted [.readOut 255]).params.outCap ∧
    (hosted [.readOut 256]).bus = .readOut 256 :: [] ∧ (hosted [.readOut 256]).params.outCap ≤ 256 ∧
    (hosted [.readName 254]).bus = .readName 254 :: [] ∧ 254 < 255 ∧
    (hosted [.readName 255]).bus = .readName 255 :: [] := by decide

end Sys2Proof.Tests
end

section
/-! The Run/Mask encoder: what the Occurrence Masks, ORDER, the entries and the literals of a chain are in terms of the
Chunk, for the statements about encoded chains. -/

namespace Sys2Proof.Proofs

open Sys2Proof.Machine Sys2Proof.Reference

/-! ### Occurrence Masks (R104) -/

theorem rmMask_append_singleton (chunk : List Byte) (b v : Byte) :
    rmMask (chunk ++ [b]) v = maskStep v (rmMask chunk v) b := by
  simp [rmMask]

theorem maskStep_getLsbD_zero (v b : Byte) (m : Mask) : (maskStep v m b).getLsbD 0 = decide (b = v) := by
  unfold maskStep
  split <;> simp_all

theorem maskStep_getLsbD_succ (v b : Byte) (m : Mask) (j : Nat) :
    (maskStep v m b).getLsbD (j + 1) = (decide (j + 1 < 32) && m.getLsbD j) := by
  unfold maskStep
  split <;> simp

/-- Each mask step shifts the older bytes up, so bit `j` speaks of the `j`-th byte from the Chunk's end. -/
theorem rmMask_getLsbD (chunk : List Byte) (v : Byte) (j : Nat) :
    (rmMask chunk v).getLsbD j = decide (j < 32 ∧ chunk.reverse[j]? = some v) := by
  induction chunk using List.reverseRecOn generalizing j with
  | nil => simp [rmMask]
  | append_singleton bs b ih =>
    rw [rmMask_append_singleton, List.reverse_append]
    cases j with
    | zero => rw [maskStep_getLsbD_zero]; simp
    | succ j =>
      rw [maskStep_getLsbD_succ, ih]
      have : j + 1 < 32 → j < 32 := by omega
      by_cases hj : j + 1 < 32 <;> simp [hj, this]

/-- The mask's MSB-first position `i` is Chunk slot `i` (R72, R104). -/
theorem rmMask_getMsbD {chunk : List Byte} (hlen : chunk.length = 32) (v : Byte) (i : Nat) :
    (rmMask chunk v).getMsbD i = decide (chunk[i]? = some v) := by
  rw [BitVec.getMsbD, rmMask_getLsbD]
  by_cases hi : i < 32
  · have hslot : chunk.reverse[32 - 1 - i]? = chunk[i]? := by
      rw [List.getElem?_reverse (by omega), show chunk.length - 1 - (32 - 1 - i) = i by omega]
    have hpos : 32 - 1 - i < 32 := by omega
    simp only [Config.maskBits, hslot, hi, hpos, decide_true, Bool.true_and, true_and]
  · have : chunk[i]? = none := List.getElem?_eq_none (by omega)
    simp [hi, this]

theorem rmMask_disjoint (chunk : List Byte) {v w : Byte} (hne : v ≠ w) : rmMask chunk v &&& rmMask chunk w = 0 := by
  apply BitVec.eq_of_getLsbD_eq
  intro j _
  simp only [BitVec.getLsbD_and, rmMask_getLsbD]
  by_cases hv : chunk.reverse[j]? = some v
  · simp [hv, hne]
  · simp [hv]

theorem length_filter_range_getElem? (bs : List Byte) (v : Byte) :
    ((List.range bs.length).filter fun j => bs[j]? = some v).length = bs.count v := by
  have hmap : (List.range bs.length).map (fun j => bs[j]?) = bs.map some := by
    apply List.ext_getElem?
    intro k
    by_cases hk : k < bs.length
    · simp [hk]
    · simp [hk]
  calc ((List.range bs.length).filter fun j => bs[j]? = some v).length
      = ((List.range bs.length).map (fun j => bs[j]?)).count (some v) := by
        rw [List.count, List.countP_map, ← List.countP_eq_length_filter]
        exact List.countP_congr fun j _ => by simp
    _ = (bs.map some).count (some v) := by rw [hmap]
    _ = bs.count v := List.count_map_of_injective bs some (Option.some_injective _) v

/-- A mask has as many 1 bits as its value occurs in the Chunk (R104). -/
theorem rmMask_ones {chunk : List Byte} (hlen : chunk.length = 32) (v : Byte) :
    ((List.range 32).filter fun i => (rmMask chunk v).getLsbD i).length = chunk.count v := by
  have hbits : ∀ j ∈ List.range 32, (rmMask chunk v).getLsbD j = decide (chunk.reverse[j]? = some v) := by
    intro j hj
    rw [rmMask_getLsbD]
    simp [List.mem_range.mp hj]
  have hones := length_filter_range_getElem? chunk.reverse v
  rw [List.length_reverse, hlen, List.count_reverse] at hones
  rw [List.filter_congr hbits, hones]

/-! ### ORDER (R103, R105) -/

theorem isCandidate_iff (chunk : List Byte) (v : Byte) : isCandidate chunk v = true ↔ 5 < chunk.count v := by
  rw [isCandidate, decide_eq_true_iff]
  exact Nat.succ_le_iff

theorem mem_orderStep (chunk ord : List Byte) (b v : Byte) :
    v ∈ orderStep chunk ord b ↔ v ∈ ord ∨ (v = b ∧ isCandidate chunk v = true) := by
  unfold orderStep
  split
  next h =>
    obtain ⟨hcand, _⟩ := (Bool.and_eq_true _ _).mp h
    rw [List.mem_append, List.mem_singleton]
    exact or_congr_right ⟨fun hv => ⟨hv, hv ▸ hcand⟩, And.left⟩
  next h =>
    have hold : v = b ∧ isCandidate chunk v = true → v ∈ ord := by
      rintro ⟨rfl, hcand⟩
      simpa [hcand] using h
    exact (or_iff_left_of_imp hold).symm

theorem orderStep_nodup (chunk : List Byte) {ord : List Byte} (b : Byte) (hord : ord.Nodup) :
    (orderStep chunk ord b).Nodup := by
  unfold orderStep
  split
  next h =>
    have hb : b ∉ ord := by simp_all
    simpa using hord.concat hb
  next => exact hord

theorem mem_foldl_orderStep (chunk bs ord : List Byte) (v : Byte) :
    v ∈ bs.foldl (orderStep chunk) ord ↔ v ∈ ord ∨ (v ∈ bs ∧ isCandidate chunk v = true) := by
  induction bs generalizing ord with
  | nil => simp
  | cons b bs ih =>
    rw [List.foldl_cons, ih, mem_orderStep, List.mem_cons]
    tauto

/-- A Candidate occurs, so ORDER misses none (R103, R105). -/
theorem mem_rmOrder (chunk : List Byte) (v : Byte) : v ∈ rmOrder chunk ↔ 5 < chunk.count v := by
  rw [rmOrder, mem_foldl_orderStep, isCandidate_iff]
  have hmem : 5 < chunk.count v → v ∈ chunk := fun h => List.count_pos_iff.mp (by omega)
  simpa using hmem

theorem rmOrder_nodup (chunk : List Byte) : (rmOrder chunk).Nodup := by
  have hfold : ∀ (bs ord : List Byte), ord.Nodup → (bs.foldl (orderStep chunk) ord).Nodup := by
    intro bs
    induction bs with
    | nil => exact fun _ hord => hord
    | cons b bs ih => exact fun ord hord => ih _ (orderStep_nodup chunk b hord)
  exact hfold chunk [] List.nodup_nil

/-- The Candidates of a Chunk share its bytes, at least 6 for each. -/
theorem six_mul_length_rmOrder_le (chunk : List Byte) : 6 * (rmOrder chunk).length ≤ chunk.length := by
  have hsub : (rmOrder chunk).toFinset ⊆ chunk.toFinset := by
    intro v hv
    rw [List.mem_toFinset, mem_rmOrder] at hv
    exact List.mem_toFinset.mpr (List.count_pos_iff.mp (by omega))
  have hsix : ∀ v ∈ (rmOrder chunk).toFinset, 6 ≤ chunk.count v := by
    intro v hv
    rw [List.mem_toFinset, mem_rmOrder] at hv
    exact hv
  calc 6 * (rmOrder chunk).length
      = (rmOrder chunk).toFinset.card • 6 := by
        rw [List.toFinset_card_of_nodup (rmOrder_nodup chunk), smul_eq_mul, Nat.mul_comm]
    _ ≤ ∑ v ∈ (rmOrder chunk).toFinset, chunk.count v := Finset.card_nsmul_le_sum _ _ _ hsix
    _ ≤ ∑ v ∈ chunk.toFinset, chunk.count v := Finset.sum_le_sum_of_subset hsub
    _ = chunk.length := List.sum_toFinset_count_eq_length chunk

/-! ### The entries of a chain (R71, R106) -/

theorem be32_extractLsb' (m : BitVec 32) :
    be32 (m.extractLsb' 24 8) (m.extractLsb' 16 8) (m.extractLsb' 8 8) (m.extractLsb' 0 8) = m := by
  unfold be32 be16
  ext i hi
  simp only [BitVec.getElem_append]
  grind

/-- Entries written one after the other read back, and leave the bytes after them (R71). -/
theorem readEntries_flatMap (mask : Byte → Mask) (vs rest : List Byte) :
    readEntries vs.length (vs.flatMap (fun v => v :: bytes32 (mask v)) ++ rest) =
      (vs.map fun v => (v, mask v), 5 * vs.length, some rest) := by
  induction vs with
  | nil => simp [readEntries]
  | cons v vs ih =>
    have hcons : (v :: vs).flatMap (fun v => v :: bytes32 (mask v)) ++ rest =
        v :: (bytes32 (mask v) ++ (vs.flatMap (fun v => v :: bytes32 (mask v)) ++ rest)) := by simp
    have hread : 5 + 5 * vs.length = 5 * (vs.length + 1) := by omega
    rw [hcons, bytes32]
    simp only [List.length_cons, List.cons_append, List.nil_append, readEntries, be32_extractLsb', ih, hread,
      List.map_cons]

/-! ### NONREPEAT and the literals (R106, R107) -/

theorem foldl_or_getMsbD {α : Type} (mask : α → Mask) (es : List α) (p : Mask) (i : Nat) :
    (es.foldl (fun acc e => acc ||| mask e) p).getMsbD i = (p.getMsbD i || es.any fun e => (mask e).getMsbD i) := by
  induction es generalizing p with
  | nil => simp
  | cons e es ih => rw [List.foldl_cons, ih, BitVec.getMsbD_or, List.any_cons, Bool.or_assoc]

/-- NONREPEAT covers exactly the slots that hold a Candidate (R106). -/
theorem rmNonrepeat_getMsbD {chunk : List Byte} (hlen : chunk.length = 32) {i : Nat} {b : Byte}
    (hb : chunk[i]? = some b) : (rmNonrepeat chunk).getMsbD i = decide (5 < chunk.count b) := by
  have hany : ((rmOrder chunk).any fun v => (rmMask chunk v).getMsbD i) = true ↔ 5 < chunk.count b := by
    simp [rmMask_getMsbD hlen, hb, ← mem_rmOrder]
  have hzero : (0 : Mask).getMsbD i = false := BitVec.getMsbD_zero
  rw [rmNonrepeat, foldl_or_getMsbD, hzero, Bool.false_or, Bool.eq_iff_iff, hany, decide_eq_true_iff]

/-- When the bits of `p` from position `i` on say which of the bytes to leave out, the literals are the others (R107). -/
theorem literalsFrom_eq_filter (p : Mask) (covered : Byte → Bool) (bs : List Byte) (i : Nat)
    (hbits : ∀ k b, bs[k]? = some b → p.getMsbD (i + k) = covered b) :
    literalsFrom p i bs = bs.filter fun b => !covered b := by
  induction bs generalizing i with
  | nil => rfl
  | cons b bs ih =>
    have hhead : p.getMsbD i = covered b := hbits 0 b rfl
    have htail : literalsFrom p (i + 1) bs = bs.filter fun b => !covered b :=
      ih (i + 1) fun k c hk => by
        rw [Nat.add_assoc, Nat.add_comm 1 k]
        exact hbits (k + 1) c hk
    cases hc : covered b <;> simp [literalsFrom, hhead, htail, hc]

/-- The special case of an all-ones NONREPEAT agrees with the general loop: it covers every slot of a Chunk (R107). -/
theorem rmLiterals_eq_literalsFrom {chunk : List Byte} (hlen : chunk.length = 32) (p : Mask) :
    rmLiterals chunk p = literalsFrom p 0 chunk := by
  unfold rmLiterals
  split
  next hp =>
    have hbits : ∀ k b, chunk[k]? = some b → p.getMsbD (0 + k) = true := by
      intro k b hk
      obtain ⟨hlt, _⟩ := List.getElem?_eq_some_iff.mp hk
      have hslot : 0 + k < 32 := by omega
      rw [hp, BitVec.getMsbD_allOnes]
      exact decide_eq_true hslot
    rw [literalsFrom_eq_filter p (fun _ => true) chunk 0 hbits]
    simp
  next => rfl

/-- The literals of a chain are the Chunk's bytes that are no Candidates, in order (R107). -/
theorem rmLiterals_rmNonrepeat {chunk : List Byte} (hlen : chunk.length = 32) :
    rmLiterals chunk (rmNonrepeat chunk) = chunk.filter fun b => decide (chunk.count b ≤ 5) := by
  have hbits : ∀ k b, chunk[k]? = some b → (rmNonrepeat chunk).getMsbD (0 + k) = decide (5 < chunk.count b) :=
    fun k b hk => by rw [Nat.zero_add, rmNonrepeat_getMsbD hlen hk]
  rw [rmLiterals_eq_literalsFrom hlen, literalsFrom_eq_filter _ _ chunk 0 hbits]
  simp [← decide_not]

theorem readEntries_rmChainBytes {chunk : List Byte} (hlen : chunk.length = 32) :
    readEntries (rmOrder chunk).length (rmChainBytes chunk).tail =
      ((rmOrder chunk).map fun v => (v, rmMask chunk v), 5 * (rmOrder chunk).length,
        some (chunk.filter fun b => decide (chunk.count b ≤ 5))) := by
  rw [rmChainBytes, List.tail_cons, readEntries_flatMap, rmLiterals_rmNonrepeat hlen]

/-- Settles O50: the chain is read back entry by entry, and its bounds come from the counts of the Candidates. -/
theorem encodedChainsAreCanonical : Obligations.EncodedChainsAreCanonical := by
  intro chunk hlen
  refine ⟨?count, rfl, readEntries_rmChainBytes hlen, ?ones, fun v w _ _ hne => rmMask_disjoint chunk hne⟩
  case count =>
    have := six_mul_length_rmOrder_le chunk
    omega
  case ones =>
    intro v hv
    rw [rmMask_ones hlen v]
    exact (mem_rmOrder chunk v).mp hv

end Sys2Proof.Proofs
end

section
/-! What a step fetches, said once for each source of the fetch: a request at the history port, a stream element, the end
of the data, and the host's oldest access (R21, R55, R62, R91, R210). -/

namespace Sys2Proof.Proofs

open Sys2Proof.Machine Sys2Proof.Reference

/-! ### The history port (R91) -/

/-- The packing of a port request loses nothing. -/
theorem portReq_ofBytes_toBytes (r : PortReq) :
    ∃ b0 b1 b2, r.toBytes = [b0, b1, b2] ∧ PortReq.ofBytes b0 b1 b2 = r := by
  refine ⟨_, _, _, rfl, ?_⟩
  obtain ⟨hop, data, addr⟩ := r
  simp only [PortReq.ofBytes, PortReq.mk.injEq]
  refine ⟨?_, ?_, ?_⟩ <;> ext i hi <;> simp only [BitVec.getElem_extractLsb', BitVec.getLsbD_append] <;> grind

theorem decode_histPort_toBytes (r : PortReq) : decode .histPort r.toBytes = (decodePort r).map (·, []) := by
  obtain ⟨b0, b1, b2, hbytes, hreq⟩ := portReq_ofBytes_toBytes r
  rw [hbytes, decode, hreq]

theorem step_of_port {s : State} {r : PortReq} {i : Instr} (hport : s.port = some r) (hi : decodePort r = .ok i) :
    step s = exec i { s with port := none } := by
  simp [step, fetch, hport, decode_histPort_toBytes, hi, Except.map]

/-! ### A running DECODE (R21, R55) -/

theorem elementAt_of_decode {s : State} {p : Position} {i : Instr} {rest : List Byte}
    (hlen : s.srcPos + p.width ≤ s.srcLen) (hd : decode p (srcBytes s s.srcPos p.width) = .ok (i, rest)) :
    elementAt p s = some i := by
  simp [elementAt, memRead, hlen, hd]

theorem step_of_element {s : State} {p : Position} {i : Instr} (hport : s.port = none)
    (hp : streamPosition s = some p) (hi : elementAt p s = some i) : step s = exec i s := by
  rw [step, fetch_of_element hport hp hi]

theorem step_of_end {s : State} {p : Position} (hport : s.port = none) (hp : streamPosition s = some p)
    (hi : elementAt p s = none) : step s = .next (endOfData s) := by
  rw [step, fetch_of_end hport hp hi]

/-! ### The host's oldest access (R62, R210) -/

theorem fetch_of_idle {s : State} (hport : s.port = none) (hidle : s.phase = .idle) : fetch s = fetchHost s := by
  simp [fetch, hport, (streamPosition_eq_none_iff s).mpr hidle]

theorem step_of_access {s : State} {a : HostAccess} {more : List HostAccess} (hport : s.port = none)
    (hidle : s.phase = .idle) (hbus : s.bus = a :: more) (ha : commandByte a = none) :
    step s = hostAccess a { s with bus := more } := by
  simp [step, fetch_of_idle hport hidle, fetchHost, hbus, ha]

theorem step_of_command {s : State} {a : HostAccess} {more : List HostAccess} {v : Byte} {i : Instr}
    {rest : List Byte} (hport : s.port = none) (hidle : s.phase = .idle) (hbus : s.bus = a :: more)
    (ha : commandByte a = some v) (hd : decode .command [v] = .ok (i, rest)) :
    step s = exec i { s with bus := more } := by
  simp [step, fetch_of_idle hport hidle, fetchHost, hbus, ha, hd]

theorem step_of_illegal {s : State} {a : HostAccess} {more : List HostAccess} {v : Byte} {e : Reject}
    (hport : s.port = none) (hidle : s.phase = .idle) (hbus : s.bus = a :: more) (ha : commandByte a = some v)
    (hd : decode .command [v] = .error e) : step s = .next (illegalCommand { s with bus := more }) := by
  simp [step, fetch_of_idle hport hidle, fetchHost, hbus, ha, hd]

theorem step_of_wait {s : State} (hport : s.port = none) (hidle : s.phase = .idle) (hbus : s.bus = []) :
    step s = .next s := by
  simp [step, fetch_of_idle hport hidle, fetchHost, hbus]

theorem commandByte_writeReg_cmd {n : Nat} (v : Nat) (hn : regOfNumber n = some .cmd) :
    commandByte (.writeReg n v) = some (BitVec.ofNat 8 v) := if_pos hn

theorem commandByte_writeReg_of_ne {n : Nat} (v : Nat) (hn : regOfNumber n ≠ some .cmd) :
    commandByte (.writeReg n v) = none := if_neg hn

theorem regOfNumber_of_gt {n : Nat} (hn : 8 < n) : regOfNumber n = none := by
  obtain ⟨k, rfl⟩ := Nat.exists_eq_add_of_le' hn
  rfl

/-! ### Runs -/

theorem core_run_succ {s t : State} (n : Nat) (h : step s = .next t) : core.run (n + 1) s = core.run n t := by
  have hstep : core.step s = .next t := h
  simp only [Host.Core.run, hstep]

/-- Settles O7: each clause is the fetch rule of its source. -/
theorem stepRunsDecodedInstruction : Obligations.StepRunsDecodedInstruction := by
  refine ⟨?element, ?command, fun s r i hport hi => step_of_port hport hi⟩
  case element =>
    intro s p i rest hport hp hlen hd
    exact step_of_element hport hp (elementAt_of_decode hlen hd)
  case command =>
    intro s n v more i rest hport hidle hbus hn hd
    exact step_of_command hport hidle hbus (commandByte_writeReg_cmd v hn) hd

end Sys2Proof.Proofs
end

section
/-! The state after reset, and the host's accesses to registers and memories (R22, R30-R33, R42). -/

namespace Sys2Proof.Proofs

open Sys2Proof.Machine Sys2Proof.Reference

/-! ### Reset (R42) -/

/-- Settles O13: the reset state is written out, register by register. -/
theorem resetValues : Obligations.ResetValues := by
  refine ⟨fun r => ?_, rfl, fun a => ⟨rfl, rfl, rfl⟩, rfl, rfl⟩
  cases r <;> rfl

/-- After reset the parameters are some legal choice (R9, log 1); every other clause is about a zero or an empty memory. -/
theorem reset_sound : State.reset.Sound where
  params_legal := Config.legalParams.isLegal
  srcStart_lt := Nat.two_pow_pos _
  srcLen_lt := Nat.two_pow_pos _
  srcPos_lt := Nat.two_pow_pos _
  outLen_lt := Nat.two_pow_pos _
  errPos_lt := Nat.two_pow_pos _
  outLen_le := Nat.zero_le _
  status_reserved := rfl
  status_state := by decide
  status_err := fun _ => rfl
  status_err_le := by decide
  engine_reserved := rfl
  src_wf := rfl
  src_below := rfl
  out_wf := rfl
  out_listed := fun a => by simp [State.reset]
  name_wf := rfl
  name_below := rfl
  hist_wf := rfl

/-- Settles O14. -/
theorem resetIsOk : Obligations.ResetIsOk := ⟨reset_sound, fun hrun => absurd rfl hrun⟩

/-! ### Host accesses to registers (R22) -/

theorem writeReg_port (s : State) (v : Nat) (r : Reg) : (writeReg s v r).port = s.port := by cases r <;> rfl

theorem writeReg_phase (s : State) (v : Nat) (r : Reg) : (writeReg s v r).phase = s.phase := by cases r <;> rfl

theorem writeReg_bus (s : State) (v : Nat) (r : Reg) : (writeReg s v r).bus = s.bus := by cases r <;> rfl

theorem step_readReg {s : State} {n : Nat} {r : Reg} {more : List HostAccess} (hport : s.port = none)
    (hidle : s.phase = .idle) (hbus : s.bus = .readReg n :: more) (hn : regOfNumber n = some r) :
    step s = .next { s with busData := readReg s r, bus := more } := by
  rw [step_of_access hport hidle hbus rfl]
  cases r <;> simp [hostAccess, hn, readReg]

theorem step_writeReg {s : State} {n v : Nat} {r : Reg} {more : List HostAccess} (hport : s.port = none)
    (hidle : s.phase = .idle) (hbus : s.bus = .writeReg n v :: more) (hn : regOfNumber n = some r) (hr : r ≠ .cmd) :
    step s = .next (writeReg { s with bus := more } v r) := by
  have hcmd : regOfNumber n ≠ some .cmd := by simpa [hn] using hr
  rw [step_of_access hport hidle hbus (commandByte_writeReg_of_ne v hcmd)]
  simp [hostAccess, hn]

/-- A write to a register and a read of it are two steps. -/
theorem run_writeReg_readReg {s : State} {n v : Nat} {r : Reg} {more : List HostAccess} (hport : s.port = none)
    (hidle : s.phase = .idle) (hbus : s.bus = .writeReg n v :: .readReg n :: more) (hn : regOfNumber n = some r)
    (hr : r ≠ .cmd) :
    core.run 2 s =
      .next { writeReg { s with bus := more } v r with busData := readReg (writeReg s v r) r } := by
  refine (core_run_succ 1 (step_writeReg hport hidle hbus hn hr)).trans ?_
  refine (core_run_succ 0 (step_readReg (more := more) ?_ ?_ (writeReg_bus _ v r) hn)).trans ?_
  · rwa [writeReg_port]
  · rwa [writeReg_phase]
  · cases r <;> rfl

/-- Settles O57: a value that fits is stored whole, and the read returns the stored value. -/
theorem writtenRegistersReadBack : Obligations.WrittenRegistersReadBack := by
  intro s v more hport hidle
  refine ⟨fun hv hbus => ?_, fun hv hbus => ?_, fun hv hbus => ?_⟩
  all_goals
    rw [run_writeReg_readReg hport hidle hbus rfl (by decide)]
    simp [writeReg, readReg, Nat.mod_eq_of_lt hv]

/-- Settles O58: the five read-only registers one by one. -/
theorem readOnlyRegistersIgnoreWrites : Obligations.ReadOnlyRegistersIgnoreWrites := by
  intro s n v more hport hidle
  refine ⟨?_, fun hbus => step_readReg hport hidle hbus rfl⟩
  rintro (rfl | rfl | rfl | rfl | rfl) hbus <;> exact step_writeReg hport hidle hbus rfl (by decide)

theorem step_readReg_of_gt {s : State} {n : Nat} {more : List HostAccess} (hport : s.port = none)
    (hidle : s.phase = .idle) (hbus : s.bus = .readReg n :: more) (hn : 8 < n) :
    step s = .fault (.noSuchRegister n) := by
  rw [step_of_access hport hidle hbus rfl]
  simp [hostAccess, regOfNumber_of_gt hn]

theorem step_writeReg_of_gt {s : State} {n v : Nat} {more : List HostAccess} (hport : s.port = none)
    (hidle : s.phase = .idle) (hbus : s.bus = .writeReg n v :: more) (hn : 8 < n) :
    step s = .fault (.noSuchRegister n) := by
  have hcmd : regOfNumber n ≠ some .cmd := by simp [regOfNumber_of_gt hn]
  rw [step_of_access hport hidle hbus (commandByte_writeReg_of_ne v hcmd)]
  simp [hostAccess, regOfNumber_of_gt hn]

/-! ### Host accesses to the memories (R31-R33) -/

theorem srcByte_store (s : State) (a x : Nat) (b : Byte) :
    srcByte { s with src := s.src.store a b } x = if x = a then b else srcByte s x := by
  unfold srcByte
  rw [Memory.lookup_store]
  split <;> rfl

theorem nameByte_store (s : State) (a x : Nat) (b : Byte) :
    nameByte { s with name := s.name.store a b } x = if x = a then b else nameByte s x := by
  unfold nameByte
  rw [Memory.lookup_store]
  split <;> rfl

/-- Settles O59: a host write is a store, which changes the byte at its address alone. -/
theorem hostWritesOneSourceByte : Obligations.HostWritesOneSourceByte := by
  intro s a b more hport hidle
  refine ⟨fun hbus => ?src, fun hbus => ?name, fun v hbus ha => step_writeReg_of_gt hport hidle hbus ha⟩
  case src =>
    rw [step_of_access hport hidle hbus rfl]
    exact ⟨fun ha => ⟨_, if_pos ha, fun x => srcByte_store { s with bus := more } a x b, rfl⟩,
      fun ha => if_neg (Nat.not_lt.mpr ha)⟩
  case name =>
    rw [step_of_access hport hidle hbus rfl]
    exact ⟨fun ha => ⟨_, if_pos ha, fun x => nameByte_store { s with bus := more } a x b, rfl⟩,
      fun ha => if_neg (Nat.not_lt.mpr ha)⟩

/-- Settles O60: the registers by their numbers, and one bound for each memory. -/
theorem hostReadsReturnWhatIsThere : Obligations.HostReadsReturnWhatIsThere := by
  intro s n more hport hidle
  refine ⟨fun hbus => ⟨fun v hv => ?reg, step_readReg_of_gt hport hidle hbus⟩, fun hbus => ?src, fun hbus => ?out,
    fun hbus => ?name⟩
  case reg =>
    simp only [List.mem_cons, Prod.mk.injEq, List.not_mem_nil, or_false] at hv
    rcases hv with ⟨rfl, rfl⟩ | ⟨rfl, rfl⟩ | ⟨rfl, rfl⟩ | ⟨rfl, rfl⟩ | ⟨rfl, rfl⟩ | ⟨rfl, rfl⟩ | ⟨rfl, rfl⟩ |
      ⟨rfl, rfl⟩ | ⟨rfl, rfl⟩ <;> exact step_readReg hport hidle hbus rfl
  all_goals
    rw [step_of_access hport hidle hbus rfl]
    exact ⟨fun hn => if_pos hn, fun hn => if_neg (Nat.not_lt.mpr hn)⟩

end Sys2Proof.Proofs
end

section
/-! What an instruction leaves unchanged, and how a running DECODE steps: `KeepsInputs` for every stream element and every
command but SELECT, one step of the machine as one round of a DECODE, and the end of every DECODE within its bound. -/

namespace Sys2Proof.Proofs

open Sys2Proof.Machine Sys2Proof.Reference

/-! ### What stream elements and commands leave unchanged (R22, R41, R56, R254) -/

/-- What no instruction but SELECT and HIST.READ changes: the frame of a command, and ENGINE. -/
structure KeepsInputs (s t : State) : Prop extends CommandFrame s t where
  /-- ENGINE is unchanged. -/
  engine : t.engine = s.engine

theorem commandFrame_refl (s : State) : CommandFrame s s := by constructor <;> simp

theorem commandFrame_trans {s t u : State} (h₁ : CommandFrame s t) (h₂ : CommandFrame t u) : CommandFrame s u where
  srcStart := h₂.srcStart.trans h₁.srcStart
  srcLen := h₂.srcLen.trans h₁.srcLen
  nameLen := h₂.nameLen.trans h₁.nameLen
  src a := (h₂.src a).trans (h₁.src a)
  name a := (h₂.name a).trans (h₁.name a)
  params := h₂.params.trans h₁.params
  bus := h₂.bus.trans h₁.bus
  busData := h₂.busData.trans h₁.busData
  port := h₂.port.trans h₁.port
  portData := h₂.portData.trans h₁.portData

theorem KeepsInputs.refl (s : State) : KeepsInputs s s := ⟨commandFrame_refl s, rfl⟩

theorem KeepsInputs.trans {s t u : State} (h₁ : KeepsInputs s t) (h₂ : KeepsInputs t u) : KeepsInputs s u :=
  ⟨commandFrame_trans h₁.toCommandFrame h₂.toCommandFrame, h₂.engine.trans h₁.engine⟩

theorem failCommand_keepsInputs (e : ErrorCode) (pos before : Nat) (s : State) :
    KeepsInputs s (failCommand e pos before s) :=
  ⟨by constructor <;> simp [srcByte, nameByte], rfl⟩

theorem finishCommand_keepsInputs (res : List Byte) (before : Nat) (s : State) :
    KeepsInputs s (finishCommand res before s) :=
  ⟨by constructor <;> simp [srcByte, nameByte], by simp⟩

theorem advance_keepsInputs (n : Nat) (s : State) : KeepsInputs s (advance n s) :=
  ⟨by constructor <;> simp [srcByte, nameByte], rfl⟩

theorem elementEffect_keepsInputs (i : Instr) (s : State) : KeepsInputs s (elementEffect i s) := by
  cases i
  case rmChain c =>
    exact ⟨by constructor <;> simp [elementEffect, rmChainState, srcByte, nameByte],
      by simp [elementEffect, rmChainState]⟩
  case rmEntry v m =>
    exact ⟨by constructor <;> simp [elementEffect, rmEntryState, srcByte, nameByte],
      by simp [elementEffect, rmEntryState]⟩
  case rmLit b =>
    exact ⟨by constructor <;> simp [elementEffect, rmLitState, srcByte, nameByte],
      by simp [elementEffect, rmLitState]⟩
  case rmTerm => exact (advance_keepsInputs 1 s).trans (finishCommand_keepsInputs _ _ _)
  case swHdr size =>
    exact ⟨by constructor <;> simp [elementEffect, swHdrState, srcByte, nameByte],
      by simp [elementEffect, swHdrState]⟩
  case swFlags f =>
    exact ⟨by constructor <;> simp [elementEffect, swFlagsState, srcByte, nameByte],
      by simp [elementEffect, swFlagsState]⟩
  case swLit b =>
    exact ⟨by constructor <;> simp [elementEffect, swLitState, srcByte, nameByte],
      by simp [elementEffect, swLitState]⟩
  case swMatch off len =>
    exact ⟨by constructor <;> simp [elementEffect, swMatchState, srcByte, nameByte],
      by simp [elementEffect, swMatchState]⟩
  all_goals exact .refl s

theorem rmEndOfData_keepsInputs (s : State) : KeepsInputs s (rmEndOfData s) := by
  unfold rmEndOfData
  split
  · exact (advance_keepsInputs 1 s).trans (finishCommand_keepsInputs _ _ _)
  · exact finishCommand_keepsInputs _ _ _

theorem endOfData_keepsInputs (s : State) : KeepsInputs s (endOfData s) := by
  unfold endOfData
  split
  · exact .refl s
  iterate 3 exact rmEndOfData_keepsInputs s
  all_goals exact failCommand_keepsInputs _ _ _ s

/-! ### The rounds of a running DECODE (R21, R120, R180) -/

theorem position_of_decode {p : Position} {bs rest : List Byte} {i : Instr} (h : decode p bs = .ok (i, rest)) :
    i.position = p := by
  unfold decode at h
  split at h
  case h_1 v _ =>
    unfold decodeCommand at h
    split_ifs at h <;> cases h <;> rfl
  case h_2 c _ =>
    cases h
    split <;> rfl
  case h_9 b0 b1 b2 _ =>
    unfold decodePort at h
    split_ifs at h <;> cases h <;> rfl
  all_goals cases h
  all_goals rfl

theorem position_of_elementAt {p : Position} {s : State} {i : Instr} (h : elementAt p s = some i) :
    i.position = p := by
  obtain ⟨-, rest, hd⟩ := elementAt_eq_some h
  exact position_of_decode hd

theorem streamPosition_ne_command_ne_histPort {s : State} {p : Position} (hp : streamPosition s = some p) :
    p ≠ .command ∧ p ≠ .histPort := by
  unfold streamPosition at hp
  split at hp <;> cases hp <;> simp
  split <;> simp

theorem elementStep_of_element {s : State} {p : Position} {i : Instr} (hp : streamPosition s = some p)
    (hi : elementAt p s = some i) : elementStep s = elementEffect i s := by simp [elementStep, hp, hi]

theorem elementStep_of_end {s : State} {p : Position} (hp : streamPosition s = some p)
    (hi : elementAt p s = none) : elementStep s = endOfData s := by simp [elementStep, hp, hi]

theorem elementStep_of_idle {s : State} (hidle : s.phase = .idle) : elementStep s = s := by
  simp [elementStep, (streamPosition_eq_none_iff s).mpr hidle]

theorem exists_streamPosition {s : State} (hrun : s.phase ≠ .idle) : ∃ p, streamPosition s = some p :=
  Option.ne_none_iff_exists'.mp (mt (streamPosition_eq_none_iff s).mp hrun)

/-- What one round can do: it runs the element at SRC_POS, which is one of the position, or ends the data. -/
theorem elementStep_cases {s : State} (hrun : s.phase ≠ .idle) :
    ∃ p, streamPosition s = some p ∧
      ((∃ i, elementAt p s = some i ∧ elementStep s = elementEffect i s) ∨
        (elementAt p s = none ∧ elementStep s = endOfData s)) := by
  obtain ⟨p, hp⟩ := exists_streamPosition hrun
  refine ⟨p, hp, ?_⟩
  cases hi : elementAt p s with
  | some i => exact .inl ⟨i, rfl, elementStep_of_element hp hi⟩
  | none => exact .inr ⟨rfl, elementStep_of_end hp hi⟩

theorem elementStep_keepsInputs (s : State) : KeepsInputs s (elementStep s) := by
  by_cases hidle : s.phase = .idle
  · rw [elementStep_of_idle hidle]
    exact .refl s
  · obtain ⟨p, -, ⟨i, -, heq⟩ | ⟨-, heq⟩⟩ := elementStep_cases hidle <;> rw [heq]
    · exact elementEffect_keepsInputs i s
    · exact endOfData_keepsInputs s

theorem runElements_keepsInputs (n : Nat) (s : State) : KeepsInputs s (runElements n s) :=
  runElements_induction (P := KeepsInputs s) (fun t h _ => h.trans (elementStep_keepsInputs t)) n (.refl s)

/-! ### The commands (R206, R212, R213) -/

theorem encodeCommand_keepsInputs (s : State) : KeepsInputs s (encodeCommand s) := by
  have hrm : KeepsInputs s (encodeRm s) :=
    ⟨by constructor <;> simp [encodeRm, srcByte, nameByte], by simp [encodeRm]⟩
  have hsw : KeepsInputs s (encodeSw s) := by
    unfold encodeSw
    dsimp only
    split
    · exact failCommand_keepsInputs _ _ _ s
    · exact ⟨by constructor <;> simp [srcByte, nameByte], by simp⟩
  unfold encodeCommand
  split_ifs
  · exact failCommand_keepsInputs _ _ _ s
  · exact failCommand_keepsInputs _ _ _ s
  · exact hrm
  · exact hsw

theorem beginDecode_keepsInputs (s : State) : KeepsInputs s (beginDecode s) := by
  unfold beginDecode
  split
  · exact ⟨by constructor <;> simp [srcByte, nameByte], rfl⟩
  · exact ⟨by constructor <;> simp [srcByte, nameByte], rfl⟩

theorem decodeStream_keepsInputs (s : State) : KeepsInputs s (decodeStream s) := by
  unfold decodeStream
  split_ifs
  · exact failCommand_keepsInputs _ _ _ s
  · exact failCommand_keepsInputs _ _ _ s
  · exact (beginDecode_keepsInputs s).trans (runElements_keepsInputs _ _)

theorem selectCommand_commandFrame (s : State) : CommandFrame s (selectCommand s) := by
  unfold selectCommand
  split
  · constructor <;> simp [srcByte, nameByte]
  · constructor <;> simp [srcByte, nameByte]

theorem exec_eq_elementEffect {i : Instr} (s : State) (hi : i.position ≠ .command ∧ i.position ≠ .histPort) :
    exec i s = .next (elementEffect i s) := by
  obtain ⟨hcmd, hport⟩ := hi
  cases i
  case cmdNop | cmdSelect | cmdEncode | cmdDecode => exact absurd rfl hcmd
  case histSeed | histPush | histRead => exact absurd rfl hport
  all_goals rfl

theorem exec_keepsInputs {i : Instr} {s t : State} (hselect : i ≠ .cmdSelect) (hread : ∀ a, i ≠ .histRead a)
    (h : exec i s = .next t) : KeepsInputs s t := by
  cases i
  case cmdSelect => exact absurd rfl hselect
  case histRead a => exact absurd rfl (hread a)
  case cmdEncode => cases h; exact encodeCommand_keepsInputs s
  case cmdDecode => cases h; exact decodeStream_keepsInputs s
  case histSeed f c => cases h; exact ⟨by constructor <;> simp [srcByte, nameByte], rfl⟩
  case histPush b => cases h; exact ⟨by constructor <;> simp [srcByte, nameByte], rfl⟩
  case cmdNop => cases h; exact .refl s
  all_goals
    rw [exec_eq_elementEffect s (by simp [Instr.position])] at h
    cases h
    exact elementEffect_keepsInputs _ s

theorem exec_commandFrame {i : Instr} {s t : State} (hread : ∀ a, i ≠ .histRead a) (h : exec i s = .next t) :
    CommandFrame s t := by
  by_cases hselect : i = .cmdSelect
  · subst hselect
    cases h
    exact selectCommand_commandFrame s
  · exact (exec_keepsInputs hselect hread h).toCommandFrame

/-- Settles O18: the frame of a command; HIST.READ only drives the port's data lines. -/
theorem noInstructionWritesTheSource : Obligations.NoInstructionWritesTheSource := by
  intro i s t h
  by_cases hread : ∃ a, i = .histRead a
  · obtain ⟨a, rfl⟩ := hread
    cases h
    exact ⟨rfl, rfl, rfl, fun _ => rfl, fun _ => rfl, rfl⟩
  · have hframe := exec_commandFrame (not_exists.mp hread) h
    exact ⟨hframe.srcStart, hframe.srcLen, hframe.nameLen, hframe.src, hframe.name, hframe.params⟩

/-- Settles O19. -/
theorem onlySelectWritesEngine : Obligations.OnlySelectWritesEngine := by
  intro i s t hselect h
  by_cases hread : ∃ a, i = .histRead a
  · obtain ⟨a, rfl⟩ := hread
    cases h
    rfl
  · exact (exec_keepsInputs hselect (not_exists.mp hread) h).engine

/-! ### SELECT (R200-R202) -/

theorem name_bytes_inj {n m : Config.Name} (h : n.bytes = m.bytes) : n = m := by
  cases n
  cases m
  simpa [Config.Name.bytes] using h

theorem names_ne_of_legal {p : Config.Params} (h : p.legal = true) :
    p.nameRm ≠ p.nameSwA ∧ p.nameRm ≠ p.nameSwB ∧ p.nameSwA ≠ p.nameSwB := by
  simp only [Config.Params.legal, Bool.and_eq_true, decide_eq_true_eq] at h
  tauto

theorem registryLookup_nameRm (p : Config.Params) : registryLookup p p.nameRm.bytes = some 1 := if_pos rfl

theorem registryLookup_nameSwA {p : Config.Params} (h : p.legal = true) :
    registryLookup p p.nameSwA.bytes = some 2 := by
  obtain ⟨hRmA, -, -⟩ := names_ne_of_legal h
  rw [registryLookup, if_neg fun heq => hRmA (name_bytes_inj heq).symm, if_pos rfl]

theorem registryLookup_nameSwB {p : Config.Params} (h : p.legal = true) :
    registryLookup p p.nameSwB.bytes = some 3 := by
  obtain ⟨-, hRmB, hAB⟩ := names_ne_of_legal h
  rw [registryLookup, if_neg fun heq => hRmB (name_bytes_inj heq).symm,
    if_neg fun heq => hAB (name_bytes_inj heq).symm, if_pos rfl]

theorem exec_cmdSelect_of_lookup {s : State} {eng : BitVec 2} (h : registryLookup s.params (identifier s) = some eng) :
    exec .cmdSelect s = .next { s with engine := engineWord eng, status := 0x01#8, errPos := 0 } := by
  simp [exec, execCmdSelect, selectCommand, h, statusDone_eq]

/-- Settles O37: the three identifiers differ, so the lookup ends at the named entry. -/
theorem selectBindsTheNamedEngine : Obligations.SelectBindsTheNamedEngine := by
  intro s hlegal
  refine ⟨fun hname => ?rm, fun hname => ?swA, fun hname => ?swB⟩
  case rm => exact exec_cmdSelect_of_lookup (identifier.eq_1 s ▸ hname ▸ registryLookup_nameRm s.params)
  case swA => exact exec_cmdSelect_of_lookup (identifier.eq_1 s ▸ hname ▸ registryLookup_nameSwA hlegal)
  case swB => exact exec_cmdSelect_of_lookup (identifier.eq_1 s ▸ hname ▸ registryLookup_nameSwB hlegal)

/-! ### A running DECODE runs one element a step (R21, R57, R210) -/

/-- With no port request, a step inside a running DECODE is one round of it. -/
theorem step_eq_elementStep {s : State} (hport : s.port = none) (hrun : s.phase ≠ .idle) :
    step s = .next (elementStep s) := by
  obtain ⟨p, hp, ⟨i, hi, heq⟩ | ⟨hi, heq⟩⟩ := elementStep_cases hrun <;> rw [heq]
  · rw [step_of_element hport hp hi]
    exact exec_eq_elementEffect s (position_of_elementAt hi ▸ streamPosition_ne_command_ne_histPort hp)
  · exact step_of_end hport hp hi

/-- The rounds of a DECODE are steps of the machine, no more of them than the bound. -/
theorem exists_run_eq_runElements (m : Nat) {s : State} (hport : s.port = none) :
    ∃ n, n ≤ m ∧ core.run n s = .next (runElements m s) := by
  induction m generalizing s with
  | zero => exact ⟨0, le_rfl, rfl⟩
  | succ m ih =>
    by_cases hidle : s.phase = .idle
    · exact ⟨0, Nat.zero_le _, by rw [runElements_of_idle _ hidle]; rfl⟩
    · obtain ⟨n, hn, hrun⟩ := ih ((elementStep_keepsInputs s).port.trans hport)
      refine ⟨n + 1, Nat.succ_le_succ hn, ?_⟩
      rw [core_run_succ n (step_eq_elementStep hport hidle), hrun, runElements_succ m hidle]

theorem beginDecode_srcPos (s : State) : (beginDecode s).srcPos = s.srcStart := by
  unfold beginDecode
  split <;> rfl

theorem decodeStream_eq_runElements {s : State} (hengine : engField s.engine ≠ 0) (hcap : s.srcLen ≤ s.params.srcCap)
    (hstart : s.srcStart ≤ s.srcLen) :
    decodeStream s = runElements (s.srcLen - s.srcStart + 1) (beginDecode s) := by
  have hrange : badRange s = false := by simp [badRange, hcap, hstart]
  have hbound : elementBound (beginDecode s) = s.srcLen - s.srcStart + 1 := by
    rw [elementBound, beginDecode_srcPos, (beginDecode_keepsInputs s).srcLen]
  rw [decodeStream, if_neg hengine, hrange, hbound]
  rfl

/-- Settles O17. -/
theorem decodeCommandIsItsElementSteps : Obligations.DecodeCommandIsItsElementSteps := by
  intro s hport hengine hcap hstart
  have hne : engField s.engine ≠ 0 := by
    rcases hengine with h | h | h <;> rw [h] <;> decide
  obtain ⟨n, hn, hrun⟩ :=
    exists_run_eq_runElements (s.srcLen - s.srcStart + 1) ((beginDecode_keepsInputs s).port.trans hport)
  refine ⟨n, _, hn, hrun, ?_⟩
  rw [← decodeStream_eq_runElements hne hcap hstart]
  rfl

end Sys2Proof.Proofs
end

section
/-! What a step can do, said once, and the end of every DECODE within its bound (R62, R132, R190, R210). -/

namespace Sys2Proof.Proofs

open Sys2Proof.Machine Sys2Proof.Reference

/-! ### The ways a stream element goes on -/

/-- The next literal's slot is a free one, or the Chunk is complete (R124, R125). -/
theorem toLiteral_cases (i : Nat) (s : State) :
    (∃ k, k < 32 ∧ s.rmDec.pattern.getMsbD k = false ∧
      toLiteral i s = { s with rmDec := { s.rmDec with slot := k }, phase := .rmLit }) ∨
    toLiteral i s = completeChunk s := by
  unfold toLiteral
  split
  case isTrue hslot =>
    obtain ⟨-, -, -, hfree⟩ := nextFree_spec s.rmDec.pattern i (32 - i)
    have hslot : nextFree s.rmDec.pattern i (32 - i) < 32 := hslot
    exact .inl ⟨_, hslot, hfree (by omega), rfl⟩
  case isFalse => exact .inr rfl

/-- After an entry comes another entry, a literal, or a COUNT byte (R120, R122, R124, R125). -/
theorem afterEntry_cases (s : State) :
    (0 < s.rmDec.left ∧ afterEntry s = { s with phase := .rmEntry }) ∨ afterEntry s = toLiteral 0 s ∨
      afterEntry s = completeChunk s := by
  unfold afterEntry
  split
  case isTrue =>
    split
    · exact .inr (.inr rfl)
    · exact .inr (.inl rfl)
  case isFalse hleft => exact .inl ⟨Nat.pos_of_ne_zero hleft, rfl⟩

/-- After the header, a flag byte or a token the command ends, or a flag byte or a token follows (R182, R186). -/
theorem swContinue_cases (s : State) :
    swContinue s = finishCommand s.swDec.res s.posBefore s ∨
    (s.swDec.res.length < s.swDec.size.toNat ∧ swContinue s = { s with phase := .swFlags }) ∨
    (s.swDec.res.length < s.swDec.size.toNat ∧ s.swDec.bit < 8 ∧ swContinue s = { s with phase := .swToken }) := by
  unfold swContinue
  split
  case isTrue => exact .inl rfl
  case isFalse hsize =>
    have hsize : s.swDec.res.length < s.swDec.size.toNat := Nat.lt_of_not_le hsize
    split
    case isTrue => exact .inr (.inl ⟨hsize, rfl⟩)
    case isFalse hbit => exact .inr (.inr ⟨hsize, Nat.lt_of_not_le hbit, rfl⟩)

theorem swContinue_idle_or_srcPos (s : State) : (swContinue s).phase = .idle ∨ (swContinue s).srcPos = s.srcPos := by
  rcases swContinue_cases s with heq | ⟨-, heq⟩ | ⟨-, -, heq⟩ <;> rw [heq]
  · exact .inl (finishCommand_phase _ _ s)
  · exact .inr rfl
  · exact .inr rfl

/-! ### Every DECODE ends within its bound (R132, R190) -/

/-- An element that does not end the command takes SRC_POS past its bytes (R85). -/
theorem elementEffect_idle_or_srcPos {i : Instr} (s : State) (hi : i.position ≠ .command ∧ i.position ≠ .histPort) :
    (elementEffect i s).phase = .idle ∨ (elementEffect i s).srcPos = s.srcPos + i.position.width := by
  obtain ⟨hcmd, hport⟩ := hi
  cases i
  case cmdNop | cmdSelect | cmdEncode | cmdDecode => exact absurd rfl hcmd
  case histSeed | histPush | histRead => exact absurd rfl hport
  case rmChain c => exact .inr (afterEntry_srcPos _)
  case rmEntry v m => exact .inr (afterEntry_srcPos _)
  case rmLit b => exact .inr (toLiteral_srcPos _ _)
  case rmTerm => exact .inl (finishCommand_phase _ _ _)
  all_goals exact swContinue_idle_or_srcPos _

theorem endOfData_idle (s : State) : (endOfData s).phase = .idle := by
  unfold endOfData
  split
  · assumption
  iterate 3 exact finishCommand_phase _ _ _
  all_goals rfl

theorem width_pos (p : Position) : 0 < p.width := by cases p <;> decide

theorem elementStep_progress {s : State} (hrun : s.phase ≠ .idle) :
    (elementStep s).phase = .idle ∨ s.srcPos < s.srcLen ∧ s.srcPos < (elementStep s).srcPos := by
  obtain ⟨p, hp, ⟨i, hi, heq⟩ | ⟨-, heq⟩⟩ := elementStep_cases hrun <;> rw [heq]
  · obtain ⟨hlen, -⟩ := elementAt_eq_some hi
    have hpos := position_of_elementAt hi
    have hwidth := width_pos p
    refine (elementEffect_idle_or_srcPos s (hpos ▸ streamPosition_ne_command_ne_histPort hp)).imp_right fun hsrc => ?_
    rw [hsrc, hpos]
    omega
  · exact .inl (endOfData_idle s)

/-- More rounds than the source has bytes left end the command. -/
theorem runElements_idle (n : Nat) {s : State} (hn : s.srcLen - s.srcPos < n) : (runElements n s).phase = .idle := by
  induction n generalizing s with
  | zero => omega
  | succ n ih =>
    by_cases hidle : s.phase = .idle
    · rwa [runElements_of_idle _ hidle]
    · rw [runElements_succ n hidle]
      rcases elementStep_progress hidle with hend | ⟨hlt, hnext⟩
      · rwa [runElements_of_idle _ hend]
      · apply ih
        rw [(elementStep_keepsInputs s).srcLen]
        omega

/-! ### What a step can do (R21, R62, R91, R210) -/

/-- Between commands a step waits, performs a host access, runs a command or answers a reserved CMD value. -/
theorem step_idle_cases {s t : State} (hport : s.port = none) (hidle : s.phase = .idle) (h : step s = .next t) :
    t = s ∨ ∃ more, (∃ a, hostAccess a { s with bus := more } = .next t) ∨
      (∃ i, i.position = .command ∧ exec i { s with bus := more } = .next t) ∨
      t = illegalCommand { s with bus := more } := by
  rcases hbus : s.bus with _ | ⟨a, more⟩
  · rw [step_of_wait hport hidle hbus] at h
    cases h
    exact .inl rfl
  · refine .inr ⟨more, ?_⟩
    rcases ha : commandByte a with _ | v
    · exact .inl ⟨a, step_of_access hport hidle hbus ha ▸ h⟩
    · rcases hd : decode .command [v] with e | ⟨i, rest⟩
      · rw [step_of_illegal hport hidle hbus ha hd] at h
        cases h
        exact .inr (.inr rfl)
      · exact .inr (.inl ⟨i, position_of_decode hd, step_of_command hport hidle hbus ha hd ▸ h⟩)

theorem step_port_cases {s t : State} {r : PortReq} (hport : s.port = some r) (h : step s = .next t) :
    ∃ i, i.position = .histPort ∧ exec i { s with port := none } = .next t := by
  rcases hi : decodePort r with e | i
  · simp [step, fetch, hport, decode_histPort_toBytes, hi, Except.map] at h
  · have hd : decode .histPort r.toBytes = .ok (i, []) := by rw [decode_histPort_toBytes, hi]; rfl
    exact ⟨i, position_of_decode hd, step_of_port hport hi ▸ h⟩

/-- A step that ends in `t` runs a port operation, or is a round of a running DECODE, or finds no command running. -/
theorem step_cases {s t : State} (h : step s = .next t) :
    (∃ i, i.position = .histPort ∧ exec i { s with port := none } = .next t) ∨
    (s.phase ≠ .idle ∧ t = elementStep s) ∨
    (s.phase = .idle ∧ (t = s ∨ ∃ more,
      (∃ a, hostAccess a { s with bus := more } = .next t) ∨
      (∃ i, i.position = .command ∧ exec i { s with bus := more } = .next t) ∨
      t = illegalCommand { s with bus := more })) := by
  rcases Option.eq_none_or_eq_some s.port with hport | ⟨r, hport⟩
  · by_cases hidle : s.phase = .idle
    · exact .inr (.inr ⟨hidle, step_idle_cases hport hidle h⟩)
    · rw [step_eq_elementStep hport hidle] at h
      cases h
      exact .inr (.inl ⟨hidle, rfl⟩)
  · exact .inl (step_port_cases hport h)

end Sys2Proof.Proofs
end

section
/-! The invariant (R22-R34): the operations that end a command and the ways a stream element goes on keep it, hence every
element, every command and every step does. -/

namespace Sys2Proof.Proofs

open Sys2Proof.Machine Sys2Proof.Reference

/-! ### The ends of a command (R212, R213, R230) -/

/-- The fields of the STATUS word of success (R24). -/
theorem statusDone_fields :
    stateField statusDone = 1 ∧ statusReserved statusDone = 0 ∧ errField statusDone = 0 := by decide

theorem outCap_lt_of_sound {s : State} (h : s.Sound) : s.params.outCap < 2 ^ s.params.aw := by
  have hlegal := h.params_legal
  simp only [Config.Params.legal, Bool.and_eq_true, decide_eq_true_eq] at hlegal
  exact (le_max_right _ _).trans_lt hlegal.2

theorem errorCode_toNat_le (e : ErrorCode) : e.code.toNat ≤ 7 := by cases e <;> decide

theorem failCommand_sound {s : State} (h : s.Sound) (e : ErrorCode) {pos before : Nat} (hpos : pos < 2 ^ s.params.aw)
    (hbefore : before < 2 ^ s.params.aw) : (failCommand e pos before s).Sound := by
  obtain ⟨hstate, hreserved, herr⟩ := statusError_fields e
  exact { h with
    srcPos_lt := by
      rw [failCommand_srcPos]
      split
      · exact hpos
      · exact hbefore
    outLen_lt := Nat.two_pow_pos _
    errPos_lt := hpos
    outLen_le := Nat.zero_le _
    status_reserved := hreserved
    status_state := by rw [failCommand_status, hstate]; decide
    status_err := fun hne => absurd hstate hne
    status_err_le := by rw [failCommand_status, herr]; exact errorCode_toNat_le e
    out_wf := rfl
    out_listed := fun a => by simp }

theorem finishCommand_sound {s : State} (h : s.Sound) (res : List Byte) {before : Nat}
    (hbefore : before < 2 ^ s.params.aw) : (finishCommand res before s).Sound := by
  rcases Nat.lt_or_ge s.params.outCap res.length with hover | hfits
  · rw [finishCommand_of_lt before hover]
    exact failCommand_sound h .outputOverflow (Nat.two_pow_pos _) hbefore
  · rw [finishCommand_of_le before hfits]
    obtain ⟨hstate, hreserved, herr⟩ := statusDone_fields
    exact { h with
      outLen_lt := hfits.trans_lt (outCap_lt_of_sound h)
      errPos_lt := Nat.two_pow_pos _
      outLen_le := hfits
      status_reserved := hreserved
      status_state := by simp [hstate]
      status_err := fun _ => herr
      status_err_le := by simp [herr]
      out_wf := Memory.wf_ofBytes res 0
      out_listed := Memory.listed_ofBytes res }

/-- Between commands the invariant is its first half. -/
theorem ok_of_idle {s : State} (h : s.Sound) (hidle : s.phase = .idle) : s.Ok := ⟨h, fun hrun => absurd hidle hrun⟩

theorem failCommand_ok {s : State} (h : s.Sound) (e : ErrorCode) {pos before : Nat} (hpos : pos < 2 ^ s.params.aw)
    (hbefore : before < 2 ^ s.params.aw) : (failCommand e pos before s).Ok :=
  ok_of_idle (failCommand_sound h e hpos hbefore) rfl

theorem finishCommand_ok {s : State} (h : s.Sound) (res : List Byte) {before : Nat}
    (hbefore : before < 2 ^ s.params.aw) : (finishCommand res before s).Ok :=
  ok_of_idle (finishCommand_sound h res hbefore) (finishCommand_phase res before s)

/-! ### What a running DECODE keeps at every place in the grammar -/

/-- What the invariant says of a running DECODE whatever comes next in the stream. -/
structure InSource (s : State) : Prop where
  /-- The first half of the invariant. -/
  sound : s.Sound
  /-- The source range is inside SRC. -/
  srcLen_le : s.srcLen ≤ s.params.srcCap
  /-- SRC_POS is at most SRC_LEN. -/
  srcPos_le : s.srcPos ≤ s.srcLen
  /-- The saved SRC_POS has AW bits. -/
  posBefore_lt : s.posBefore < 2 ^ s.params.aw

/-- What the invariant says of a running Run/Mask DECODE whatever comes next in the stream. -/
structure InRm (s : State) : Prop extends InSource s where
  /-- The Run/Mask engine is bound. -/
  engine : engField s.engine = 1
  /-- The Chunk has 32 slots. -/
  chunk : s.rmDec.chunk.length = 32
  /-- A whole number of Chunks is done. -/
  res : s.rmDec.res.length % 32 = 0

/-- What the invariant says of a running Sliding-Window DECODE whatever comes next in the stream. -/
structure InSw (s : State) : Prop extends InSource s where
  /-- A Sliding-Window engine is bound. -/
  engine : engField s.engine = 2 ∨ engField s.engine = 3

theorem inSource_of_ok {s : State} (h : s.Ok) (hrun : s.phase ≠ .idle) : InSource s :=
  have hr := h.2 hrun
  ⟨h.1, hr.srcLen_le, hr.srcPos_le, hr.posBefore_lt⟩

theorem inRm_of_ok {s : State} (h : s.Ok) (hphase : s.phase = .rmCount ∨ s.phase = .rmEntry ∨ s.phase = .rmLit) :
    InRm s := by
  have hrun : s.phase ≠ .idle := by rcases hphase with hp | hp | hp <;> simp [hp]
  obtain ⟨hengine, hchunk, hres⟩ := (h.2 hrun).rm hphase
  exact ⟨inSource_of_ok h hrun, hengine, hchunk, hres⟩

theorem inSw_of_ok {s : State} (h : s.Ok) (hphase : s.phase = .swHdr ∨ s.phase = .swFlags ∨ s.phase = .swToken) :
    InSw s := by
  have hrun : s.phase ≠ .idle := by rcases hphase with hp | hp | hp <;> simp [hp]
  exact ⟨inSource_of_ok h hrun, (h.2 hrun).sw hphase⟩

theorem ok_of_inRm {s : State} (h : InRm s)
    (hphase : s.phase = .rmCount ∨ (s.phase = .rmEntry ∧ 0 < s.rmDec.left) ∨
      (s.phase = .rmLit ∧ s.rmDec.slot < 32 ∧ s.rmDec.pattern.getMsbD s.rmDec.slot = false)) : s.Ok := by
  refine ⟨h.sound, fun _ => ⟨h.srcLen_le, h.srcPos_le, h.posBefore_lt, fun _ => ⟨h.engine, h.chunk, h.res⟩, ?_, ?_, ?_,
    ?_, ?_, ?_⟩⟩ <;> rcases hphase with hp | ⟨hp, hleft⟩ | ⟨hp, hslot⟩ <;> simp [*]

theorem ok_of_inSw {s : State} (h : InSw s)
    (hphase : (s.phase = .swHdr ∧ s.swDec.res = []) ∨
      (s.phase = .swFlags ∧ s.swDec.res.length < s.swDec.size.toNat) ∨
      (s.phase = .swToken ∧ s.swDec.res.length < s.swDec.size.toNat ∧ s.swDec.bit < 8)) : s.Ok := by
  refine ⟨h.sound, fun _ => ⟨h.srcLen_le, h.srcPos_le, h.posBefore_lt, ?_, ?_, ?_, fun _ => h.engine,
    ?_, ?_, ?_⟩⟩ <;> rcases hphase with ⟨hp, hres⟩ | ⟨hp, hsize⟩ | ⟨hp, hsize, hbit⟩ <;> simp [*]

/-! ### The ways a stream element goes on -/

theorem inSource_advance {s : State} (h : InSource s) {n : Nat} (hn : s.srcPos + n ≤ s.srcLen) :
    InSource (advance n s) where
  sound := { h.sound with srcPos_lt := hn.trans_lt h.sound.srcLen_lt }
  srcLen_le := h.srcLen_le
  srcPos_le := hn
  posBefore_lt := h.posBefore_lt

theorem inRm_advance {s : State} (h : InRm s) {n : Nat} (hn : s.srcPos + n ≤ s.srcLen) : InRm (advance n s) :=
  ⟨inSource_advance h.toInSource hn, h.engine, h.chunk, h.res⟩

theorem inSw_advance {s : State} (h : InSw s) {n : Nat} (hn : s.srcPos + n ≤ s.srcLen) : InSw (advance n s) :=
  ⟨inSource_advance h.toInSource hn, h.engine⟩

theorem finishCommand_ok_of_inSource {s : State} (h : InSource s) (res : List Byte) :
    (finishCommand res s.posBefore s).Ok := finishCommand_ok h.sound res h.posBefore_lt

theorem completeChunk_ok {s : State} (h : InRm s) : (completeChunk s).Ok := by
  have hdone : InRm (completeChunk s) :=
    { h with
      sound := { h.sound with }
      res := by
        have hchunk := h.chunk
        have hres := h.res
        simp only [completeChunk, List.length_append]
        omega }
  exact ok_of_inRm hdone (.inl rfl)

theorem toLiteral_ok {s : State} (h : InRm s) (i : Nat) : (toLiteral i s).Ok := by
  rcases toLiteral_cases i s with ⟨k, hk, hfree, heq⟩ | heq <;> rw [heq]
  · exact ok_of_inRm { h with sound := { h.sound with } } (.inr (.inr ⟨rfl, hk, hfree⟩))
  · exact completeChunk_ok h

theorem afterEntry_ok {s : State} (h : InRm s) : (afterEntry s).Ok := by
  rcases afterEntry_cases s with ⟨hleft, heq⟩ | heq | heq <;> rw [heq]
  · exact ok_of_inRm { h with sound := { h.sound with } } (.inr (.inl ⟨rfl, hleft⟩))
  · exact toLiteral_ok h 0
  · exact completeChunk_ok h

theorem swContinue_ok {s : State} (h : InSw s) : (swContinue s).Ok := by
  rcases swContinue_cases s with heq | ⟨hsize, heq⟩ | ⟨hsize, hbit, heq⟩ <;> rw [heq]
  · exact finishCommand_ok_of_inSource h.toInSource _
  · exact ok_of_inSw { h with sound := { h.sound with } } (.inr (.inl ⟨rfl, hsize⟩))
  · exact ok_of_inSw { h with sound := { h.sound with } } (.inr (.inr ⟨rfl, hsize, hbit⟩))

/-! ### Stream elements (R121-R126, R181-R186) -/

/-- The place in the grammar a position belongs to (R74, R83, R86). -/
def phaseOf : Position → Phase
  | .command => .idle
  | .rmCount => .rmCount
  | .rmEntry => .rmEntry
  | .rmLit => .rmLit
  | .swHdr => .swHdr
  | .swFlags => .swFlags
  | .swLit => .swToken
  | .swMatch => .swToken
  | .histPort => .idle

theorem phase_of_streamPosition {s : State} {p : Position} (hp : streamPosition s = some p) : s.phase = phaseOf p := by
  unfold streamPosition at hp
  split at hp <;> cases hp
  case h_7 hphase => split <;> exact hphase
  all_goals assumption

theorem elementEffect_ok {s : State} {i : Instr} (h : s.Ok) (hp : streamPosition s = some i.position)
    (hlen : s.srcPos + i.position.width ≤ s.srcLen) : (elementEffect i s).Ok := by
  have hphase := phase_of_streamPosition hp
  cases i
  case rmChain c =>
    have hin := inRm_advance (inRm_of_ok h (.inl hphase)) hlen
    exact afterEntry_ok { hin with sound := { hin.sound with }, chunk := rfl }
  case rmEntry v m =>
    have hin := inRm_advance (inRm_of_ok h (.inr (.inl hphase))) hlen
    exact afterEntry_ok { hin with
      sound := { hin.sound with }, chunk := (length_placeFrom m v 0 _).trans hin.chunk }
  case rmLit b =>
    have hin := inRm_advance (inRm_of_ok h (.inr (.inr hphase))) hlen
    refine toLiteral_ok ?_ _
    exact { hin with sound := { hin.sound with }, chunk := List.length_set.trans hin.chunk }
  case rmTerm =>
    have hin := inRm_advance (inRm_of_ok h (.inl hphase)) hlen
    exact finishCommand_ok_of_inSource hin.toInSource _
  case swHdr size =>
    have hin := inSw_advance (inSw_of_ok h (.inl hphase)) hlen
    exact swContinue_ok { hin with sound := { hin.sound with hist_wf := History.wf_seed _ _ } }
  case swFlags f =>
    have hin := inSw_advance (inSw_of_ok h (.inr (.inl hphase))) hlen
    exact swContinue_ok { hin with sound := { hin.sound with } }
  case swLit b =>
    have hin := inSw_advance (inSw_of_ok h (.inr (.inr hphase))) hlen
    exact swContinue_ok { hin with
      sound := { hin.sound with hist_wf := History.wf_push _ b h.1.hist_wf } }
  case swMatch off len =>
    have hin := inSw_advance (inSw_of_ok h (.inr (.inr hphase))) hlen
    exact swContinue_ok { hin with
      sound := { hin.sound with hist_wf := wf_copySteps _ off len 0 _ _ h.1.hist_wf } }
  all_goals exact h

theorem rmEndOfData_ok {s : State} (h : InSource s) : (rmEndOfData s).Ok := by
  unfold rmEndOfData
  split
  case isTrue hcut => exact finishCommand_ok_of_inSource (inSource_advance h hcut.2) _
  case isFalse => exact finishCommand_ok_of_inSource h _

theorem endOfData_ok {s : State} (h : s.Ok) : (endOfData s).Ok := by
  by_cases hidle : s.phase = .idle
  · simpa [endOfData, hidle] using h
  · have hin := inSource_of_ok h hidle
    unfold endOfData
    split
    · exact h
    iterate 3 exact rmEndOfData_ok hin
    all_goals exact failCommand_ok hin.sound _ h.1.srcPos_lt hin.posBefore_lt

theorem elementStep_ok {s : State} (h : s.Ok) : (elementStep s).Ok := by
  by_cases hidle : s.phase = .idle
  · rwa [elementStep_of_idle hidle]
  · obtain ⟨p, hp, ⟨i, hi, heq⟩ | ⟨-, heq⟩⟩ := elementStep_cases hidle <;> rw [heq]
    · obtain ⟨hlen, -⟩ := elementAt_eq_some hi
      have hpos := position_of_elementAt hi
      exact elementEffect_ok h (hpos ▸ hp) (hpos ▸ hlen)
    · exact endOfData_ok h

/-! ### Commands (R200, R212, R213) -/

theorem engineWord_reserved (eng : BitVec 2) : (engineWord eng).extractLsb' 2 6 = 0 := by revert eng; decide

theorem selectCommand_ok {s : State} (h : s.Sound) (hidle : s.phase = .idle) : (selectCommand s).Ok := by
  unfold selectCommand
  split
  · exact failCommand_ok (s := { s with engine := engineWord 0 }) { h with engine_reserved := engineWord_reserved 0 } _
      (Nat.two_pow_pos _) h.srcPos_lt
  · obtain ⟨hstate, hreserved, herr⟩ := statusDone_fields
    exact ok_of_idle
      { h with
        engine_reserved := engineWord_reserved _
        errPos_lt := Nat.two_pow_pos _
        status_reserved := hreserved
        status_state := by simp [hstate]
        status_err := fun _ => herr
        status_err_le := by simp [herr] } hidle

theorem wf_swToken (tie : Config.Tie) (b : Byte) (bs : List Byte) {h : History} (e : SwEncoder) (hw : h.wf = true) :
    (swToken tie b bs h e).1.wf = true := by
  unfold swToken
  dsimp only
  split
  · exact h.wf_pushAll _ hw
  · exact h.wf_push b hw

theorem wf_swEncodeLoop (tie : Config.Tie) (raw : List Byte) (n : Nat) {h : History} (e : SwEncoder)
    (hw : h.wf = true) : (swEncodeLoop tie raw n h e).1.wf = true := by
  induction n generalizing h e with
  | zero => exact hw
  | succ n ih =>
    unfold swEncodeLoop
    split
    · exact hw
    · exact ih _ (wf_swToken tie _ _ e hw)

theorem wf_swEncode (fill : Byte) (tie : Config.Tie) (raw : List Byte) : (swEncode fill tie raw).1.wf = true :=
  wf_swEncodeLoop tie raw _ _ (History.wf_seed fill _)

theorem badRange_eq_false_iff (s : State) :
    badRange s = false ↔ s.srcLen ≤ s.params.srcCap ∧ s.srcStart ≤ s.srcLen := by
  simp [badRange]

theorem encodeRm_ok {s : State} (h : s.Sound) (hstart : s.srcStart ≤ s.srcLen) : (encodeRm s).Ok := by
  have hraw : (rawBlock s).length = s.srcLen - s.srcStart := length_srcBytes _ _ _
  have hend : s.srcStart + 32 * ((rawBlock s).length / 32) < 2 ^ s.params.aw := by
    have hlen := h.srcLen_lt
    omega
  refine finishCommand_ok ?sound _ ?before
  case sound => exact { h with srcPos_lt := hend }
  case before => exact h.srcPos_lt

theorem encodeSw_ok {s : State} (h : s.Sound) : (encodeSw s).Ok := by
  unfold encodeSw
  dsimp only
  split
  · exact failCommand_ok h _ (Nat.two_pow_pos _) h.srcPos_lt
  · refine finishCommand_ok ?sound _ ?before
    case sound => exact { h with srcPos_lt := h.srcLen_lt, hist_wf := wf_swEncode _ _ _ }
    case before => exact h.srcPos_lt

theorem encodeCommand_ok {s : State} (h : s.Sound) : (encodeCommand s).Ok := by
  unfold encodeCommand
  split
  · exact failCommand_ok h _ (Nat.two_pow_pos _) h.srcPos_lt
  split
  · exact failCommand_ok h _ (Nat.two_pow_pos _) h.srcPos_lt
  next hrange =>
    obtain ⟨-, hstart⟩ := (badRange_eq_false_iff s).mp (Bool.eq_false_iff.mpr hrange)
    split
    · exact encodeRm_ok h hstart
    · exact encodeSw_ok h

/-- The ENGINE field is one of 0 to 3 (R25). -/
theorem engField_cases {e : BitVec 2} (h0 : e ≠ 0) (h1 : e ≠ 1) : e = 2 ∨ e = 3 := by revert e; decide

theorem beginDecode_ok {s : State} (h : s.Sound) (hengine : engField s.engine ≠ 0)
    (hcap : s.srcLen ≤ s.params.srcCap) (hstart : s.srcStart ≤ s.srcLen) : (beginDecode s).Ok := by
  have hpos := hstart.trans_lt h.srcLen_lt
  unfold beginDecode
  split
  case isTrue hrm =>
    exact ok_of_inRm ⟨⟨{ h with srcPos_lt := hpos }, hcap, hstart, h.srcPos_lt⟩, hrm, rfl, rfl⟩ (.inl rfl)
  case isFalse hsw =>
    exact ok_of_inSw ⟨⟨{ h with srcPos_lt := hpos }, hcap, hstart, h.srcPos_lt⟩, engField_cases hengine hsw⟩
      (.inl ⟨rfl, rfl⟩)

theorem decodeStream_ok {s : State} (h : s.Sound) : (decodeStream s).Ok := by
  unfold decodeStream
  split
  · exact failCommand_ok h _ (Nat.two_pow_pos _) h.srcPos_lt
  next hengine =>
    split
    · exact failCommand_ok h _ (Nat.two_pow_pos _) h.srcPos_lt
    next hrange =>
      obtain ⟨hcap, hstart⟩ := (badRange_eq_false_iff s).mp (Bool.eq_false_iff.mpr hrange)
      exact runElements_induction (fun t ht _ => elementStep_ok ht) _ (beginDecode_ok h hengine hcap hstart)

theorem exec_command_ok {i : Instr} {s t : State} (hi : i.position = .command) (h : s.Sound) (hidle : s.phase = .idle)
    (ht : exec i s = .next t) : t.Ok := by
  cases i <;> cases hi <;> cases ht
  case cmdNop => exact ok_of_idle h hidle
  case cmdSelect => exact selectCommand_ok h hidle
  case cmdEncode => exact encodeCommand_ok h
  case cmdDecode => exact decodeStream_ok h

/-! ### Port operations and host accesses (R22, R31-R33, R91) -/

theorem exec_histPort_ok {i : Instr} {s t : State} (hi : i.position = .histPort) (h : s.Ok)
    (ht : exec i s = .next t) : t.Ok := by
  cases i <;> cases hi <;> cases ht
  case histSeed f c =>
    exact ⟨{ h.1 with hist_wf := History.wf_seed f c }, fun hrun => { h.2 hrun with }⟩
  case histPush b =>
    exact ⟨{ h.1 with hist_wf := History.wf_push _ b h.1.hist_wf }, fun hrun => { h.2 hrun with }⟩
  case histRead a => exact ⟨{ h.1 with }, fun hrun => { h.2 hrun with }⟩

theorem writeReg_sound {s : State} (h : s.Sound) (v : Nat) (r : Reg) : (writeReg s v r).Sound := by
  have hlt : v % 2 ^ s.params.aw < 2 ^ s.params.aw := Nat.mod_lt _ (Nat.two_pow_pos _)
  cases r
  case srcStart => exact { h with srcStart_lt := hlt }
  case srcLen => exact { h with srcLen_lt := hlt }
  case nameLen => exact { h with }
  all_goals exact h

theorem hostAccess_ok {a : HostAccess} {s t : State} (h : s.Sound) (hidle : s.phase = .idle)
    (ht : hostAccess a s = .next t) : t.Ok := by
  cases a <;> simp only [hostAccess] at ht
  case writeReg n v =>
    split at ht
    next r _ =>
      cases ht
      exact ok_of_idle (writeReg_sound h v r) ((writeReg_phase s v r).trans hidle)
    next => cases ht
  all_goals split at ht <;> cases ht
  case writeSrc addr b haddr =>
    exact ok_of_idle
      { h with src_wf := Memory.wf_store _ addr b h.src_wf, src_below := Memory.below_store _ _ _ b h.src_below haddr }
      hidle
  case writeName addr b haddr =>
    exact ok_of_idle
      { h with
        name_wf := Memory.wf_store _ addr b h.name_wf, name_below := Memory.below_store _ _ _ b h.name_below haddr }
      hidle
  all_goals exact ok_of_idle { h with } hidle

/-- Settles O15, along what a step can do. -/
theorem stepKeepsOk : Obligations.StepKeepsOk := by
  intro s t h hstep
  rcases step_cases hstep with ⟨i, hi, ht⟩ | ⟨-, rfl⟩ | ⟨hidle, rfl | ⟨more, ⟨a, ht⟩ | ⟨i, hi, ht⟩ | rfl⟩⟩
  case inl =>
    have hport : State.Ok { s with port := none } := ⟨{ h.1 with }, fun hrun => { h.2 hrun with }⟩
    exact exec_histPort_ok hi hport ht
  case inr.inl => exact elementStep_ok h
  case inr.inr.inl => exact h
  all_goals have hbus : State.Sound { s with bus := more } := { h.1 with }
  case inr.inr.inr.inl => exact hostAccess_ok hbus hidle ht
  case inr.inr.inr.inr.inl => exact exec_command_ok hi hbus hidle ht
  case inr.inr.inr.inr.inr => exact failCommand_ok hbus _ (Nat.two_pow_pos _) h.1.srcPos_lt

end Sys2Proof.Proofs
end

section
/-! What ENCODE and DECODE depend on: two runs on the same inputs keep pace, element by element, and end with the same
outcome (R41, R214, R252). -/

namespace Sys2Proof.Proofs

open Sys2Proof.Machine Sys2Proof.Reference

/-! ### Two states compared -/

/-- The inputs of ENCODE and DECODE are the same (R214). -/
structure SameInputs (s s' : State) : Prop where
  /-- The same engine is bound. -/
  engine : s'.engine = s.engine
  /-- The source ranges start alike. -/
  srcStart : s'.srcStart = s.srcStart
  /-- The source ranges end alike. -/
  srcLen : s'.srcLen = s.srcLen
  /-- The parameters are the same. -/
  params : s'.params = s.params
  /-- The bytes below SRC_LEN are the same. -/
  src : ∀ a, a < s.srcLen → srcByte s' a = srcByte s a

/-- The stream reads of a running DECODE are the same. -/
structure SameSource (s s' : State) : Prop where
  /-- The source ranges end alike. -/
  srcLen : s'.srcLen = s.srcLen
  /-- The next read is at the same place. -/
  srcPos : s'.srcPos = s.srcPos
  /-- The parameters are the same. -/
  params : s'.params = s.params
  /-- The bytes below SRC_LEN are the same. -/
  src : ∀ a, a < s.srcLen → srcByte s' a = srcByte s a

/-- Two commands have ended alike (R214): what the host sees is the same, SRC_POS after a success. -/
structure SameOutcome (t t' : State) : Prop where
  /-- STATUS is the same. -/
  status : t'.status = t.status
  /-- ERR_POS is the same. -/
  errPos : t'.errPos = t.errPos
  /-- OUT_LEN is the same. -/
  outLen : t'.outLen = t.outLen
  /-- The bytes of OUT below OUT_LEN are the same. -/
  out : ∀ a, a < t.outLen → outByte t' a = outByte t a
  /-- After a success SRC_POS is the same. -/
  srcPos : stateField t.status = 1 → t'.srcPos = t.srcPos

/-- Two DECODEs keep pace: both are at the same place of the same stream with the same working state of the engine that
reads it, or both have ended alike. The window counts from the header on, which seeds it (R141). -/
structure Alike (s s' : State) : Prop where
  /-- Both are at the same place in the grammar. -/
  phase : s'.phase = s.phase
  /-- Both read the same stream. -/
  source : s.phase ≠ .idle → SameSource s s'
  /-- The Run/Mask decoders agree. -/
  rm : s.phase = .rmCount ∨ s.phase = .rmEntry ∨ s.phase = .rmLit → s'.rmDec = s.rmDec
  /-- The Sliding-Window decoders agree. -/
  sw : s.phase = .swHdr ∨ s.phase = .swFlags ∨ s.phase = .swToken → s'.swDec = s.swDec
  /-- The windows agree once they are seeded. -/
  hist : s.phase = .swFlags ∨ s.phase = .swToken → s'.hist = s.hist
  /-- When both have ended, they have ended alike. -/
  outcome : s.phase = .idle → SameOutcome s s'

theorem alike_of_sameOutcome {t t' : State} (h : SameOutcome t t') (ht : t.phase = .idle) (ht' : t'.phase = .idle) :
    Alike t t' where
  phase := ht'.trans ht.symm
  source hrun := absurd ht hrun
  rm hp := by simp [ht] at hp
  sw hp := by simp [ht] at hp
  hist hp := by simp [ht] at hp
  outcome _ := h

theorem alike_of_rm {s s' : State} (h : SameSource s s') (hphase : s'.phase = s.phase)
    (hp : s.phase = .rmCount ∨ s.phase = .rmEntry ∨ s.phase = .rmLit) (hrm : s'.rmDec = s.rmDec) : Alike s s' where
  phase := hphase
  source _ := h
  rm _ := hrm
  sw hsw := by rcases hp with hp | hp | hp <;> simp [hp] at hsw
  hist hsw := by rcases hp with hp | hp | hp <;> simp [hp] at hsw
  outcome hidle := by rcases hp with hp | hp | hp <;> simp [hp] at hidle

theorem alike_of_sw {s s' : State} (h : SameSource s s') (hphase : s'.phase = s.phase)
    (hp : s.phase = .swHdr ∨ s.phase = .swFlags ∨ s.phase = .swToken) (hsw : s'.swDec = s.swDec)
    (hhist : s.phase ≠ .swHdr → s'.hist = s.hist) : Alike s s' where
  phase := hphase
  source _ := h
  rm hrm := by rcases hp with hp | hp | hp <;> simp [hp] at hrm
  sw _ := hsw
  hist hw := hhist (by rcases hw with hw | hw <;> simp [hw])
  outcome hidle := by rcases hp with hp | hp | hp <;> simp [hp] at hidle

theorem sameSource_advance {s s' : State} (h : SameSource s s') (n : Nat) :
    SameSource (advance n s) (advance n s') :=
  { h with srcPos := congrArg (· + n) h.srcPos }

/-! ### The ends of a command -/

theorem failCommand_sameOutcome (e : ErrorCode) (pos before before' : Nat) (s s' : State) :
    SameOutcome (failCommand e pos before s) (failCommand e pos before' s') where
  status := rfl
  errPos := rfl
  outLen := rfl
  out a ha := absurd ha (Nat.not_lt_zero a)
  srcPos hdone := by
    rw [failCommand_status, (statusError_fields e).1] at hdone
    exact absurd hdone (by decide)

theorem finishCommand_sameOutcome {s s' : State} (hparams : s'.params = s.params) (hpos : s'.srcPos = s.srcPos)
    (res : List Byte) (before before' : Nat) :
    SameOutcome (finishCommand res before s) (finishCommand res before' s') := by
  rcases Nat.lt_or_ge s.params.outCap res.length with hover | hfits
  · have hover' : s'.params.outCap < res.length := hparams ▸ hover
    rw [finishCommand_of_lt before hover, finishCommand_of_lt before' hover']
    exact failCommand_sameOutcome _ _ _ _ s s'
  · have hfits' : res.length ≤ s'.params.outCap := hparams ▸ hfits
    have hout : ∀ a, a < res.length →
        outByte (finishCommand res before' s') a = outByte (finishCommand res before s) a := fun a ha => by
      rw [outByte_finishCommand before hfits ha, outByte_finishCommand before' hfits' ha]
    rw [finishCommand_of_le before hfits, finishCommand_of_le before' hfits'] at hout ⊢
    exact ⟨rfl, rfl, rfl, hout, fun _ => hpos⟩

theorem finishCommand_alike {s s' : State} (h : SameSource s s') (res : List Byte) (before before' : Nat) :
    Alike (finishCommand res before s) (finishCommand res before' s') :=
  alike_of_sameOutcome (finishCommand_sameOutcome h.params h.srcPos res before before')
    (finishCommand_phase res before s) (finishCommand_phase res before' s')

/-! ### The ways a stream element goes on -/

theorem completeChunk_alike {s s' : State} (h : SameSource s s') (hrm : s'.rmDec = s.rmDec) :
    Alike (completeChunk s) (completeChunk s') :=
  alike_of_rm { h with } rfl (.inl rfl) (by simp [completeChunk, hrm])

theorem toLiteral_alike {s s' : State} (h : SameSource s s') (hrm : s'.rmDec = s.rmDec) (i : Nat) :
    Alike (toLiteral i s) (toLiteral i s') := by
  unfold toLiteral
  rw [hrm]
  split
  · exact alike_of_rm { h with } rfl (.inr (.inr rfl)) rfl
  · exact completeChunk_alike h hrm

theorem afterEntry_alike {s s' : State} (h : SameSource s s') (hrm : s'.rmDec = s.rmDec) :
    Alike (afterEntry s) (afterEntry s') := by
  unfold afterEntry
  rw [hrm]
  split
  · split
    · exact completeChunk_alike h hrm
    · exact toLiteral_alike h hrm 0
  · exact alike_of_rm { h with } rfl (.inr (.inl rfl)) rfl

theorem swContinue_alike {s s' : State} (h : SameSource s s') (hsw : s'.swDec = s.swDec) (hhist : s'.hist = s.hist) :
    Alike (swContinue s) (swContinue s') := by
  unfold swContinue
  rw [hsw]
  split
  · exact finishCommand_alike h _ _ _
  · split
    · exact alike_of_sw { h with } rfl (.inr (.inl rfl)) rfl fun _ => hhist
    · exact alike_of_sw { h with } rfl (.inr (.inr rfl)) rfl fun _ => hhist

/-! ### The rounds of a running DECODE -/

theorem elementEffect_alike {s s' : State} {i : Instr} (h : Alike s s') (hp : streamPosition s = some i.position) :
    Alike (elementEffect i s) (elementEffect i s') := by
  have hphase := phase_of_streamPosition hp
  have hrun : s.phase ≠ .idle := fun hidle => by simp [(streamPosition_eq_none_iff s).mpr hidle] at hp
  have hsource := h.source hrun
  cases i
  case rmChain c =>
    have hrm := h.rm (.inl hphase)
    exact afterEntry_alike { sameSource_advance hsource 1 with } (by simp [hrm])
  case rmEntry v m =>
    have hrm := h.rm (.inr (.inl hphase))
    exact afterEntry_alike { sameSource_advance hsource 5 with } (by simp [hrm])
  case rmLit b =>
    have hrm := h.rm (.inr (.inr hphase))
    simp only [elementEffect, rmLitState, hrm]
    refine toLiteral_alike ?source ?rm _
    case source => exact { sameSource_advance hsource 1 with }
    case rm => rfl
  case rmTerm =>
    have hrm := h.rm (.inl hphase)
    simp only [elementEffect, rmTermState, hrm]
    exact finishCommand_alike (sameSource_advance hsource 1) _ _ _
  case swHdr size =>
    have hsw := h.sw (.inl hphase)
    exact swContinue_alike { sameSource_advance hsource 2 with } (by simp [hsw]) (by simp [hsource.params])
  case swFlags f =>
    have hsw := h.sw (.inr (.inl hphase))
    have hhist := h.hist (.inl hphase)
    exact swContinue_alike { sameSource_advance hsource 1 with } (by simp [hsw]) hhist
  case swLit b =>
    have hsw := h.sw (.inr (.inr hphase))
    have hhist := h.hist (.inr hphase)
    exact swContinue_alike { sameSource_advance hsource 1 with } (by simp [hsw]) (by simp [hhist])
  case swMatch off len =>
    have hsw := h.sw (.inr (.inr hphase))
    have hhist := h.hist (.inr hphase)
    exact swContinue_alike { sameSource_advance hsource 2 with } (by simp [hsw, hhist]) (by simp [hsw, hhist])
  all_goals exact h

theorem rmEndOfData_alike {s s' : State} (h : SameSource s s') (hphase : s'.phase = s.phase)
    (hrm : s'.rmDec = s.rmDec) : Alike (rmEndOfData s) (rmEndOfData s') := by
  unfold rmEndOfData
  rw [hrm, hphase, h.srcPos, h.srcLen]
  split
  · exact finishCommand_alike (sameSource_advance h 1) _ _ _
  · exact finishCommand_alike h _ _ _

theorem swEndOfData_alike {s s' : State} (h : SameSource s s') : Alike (swEndOfData s) (swEndOfData s') := by
  unfold swEndOfData
  rw [h.srcPos]
  exact alike_of_sameOutcome (failCommand_sameOutcome _ _ _ _ s s') rfl rfl

theorem endOfData_alike {s s' : State} (h : Alike s s') (hrun : s.phase ≠ .idle) :
    Alike (endOfData s) (endOfData s') := by
  have hsource := h.source hrun
  unfold endOfData
  rw [h.phase]
  split
  case h_1 hp => exact absurd hp hrun
  case h_2 hp => exact rmEndOfData_alike hsource h.phase (h.rm (.inl hp))
  case h_3 hp => exact rmEndOfData_alike hsource h.phase (h.rm (.inr (.inl hp)))
  case h_4 hp => exact rmEndOfData_alike hsource h.phase (h.rm (.inr (.inr hp)))
  all_goals exact swEndOfData_alike hsource

theorem streamPosition_alike {s s' : State} (h : Alike s s') : streamPosition s' = streamPosition s := by
  unfold streamPosition
  rw [h.phase]
  split
  case h_7 hp => rw [h.sw (.inr (.inr hp))]
  all_goals rfl

theorem elementAt_sameSource {s s' : State} (h : SameSource s s') (p : Position) : elementAt p s' = elementAt p s := by
  have hread : memRead s' s.srcPos p.width = memRead s s.srcPos p.width := by
    unfold memRead
    rw [h.srcLen]
    split
    case isTrue hlen => rw [srcBytes_congr fun k hk => h.src _ (by omega)]
    case isFalse => rfl
  rw [elementAt, h.srcPos, hread, elementAt]

theorem elementStep_alike {s s' : State} (h : Alike s s') (hrun : s.phase ≠ .idle) :
    Alike (elementStep s) (elementStep s') := by
  obtain ⟨p, hp, ⟨i, hi, heq⟩ | ⟨hi, heq⟩⟩ := elementStep_cases hrun <;> rw [heq]
  all_goals
    have hp' := (streamPosition_alike h).trans hp
    have hi' := (elementAt_sameSource (h.source hrun) p).trans hi
  · rw [elementStep_of_element hp' hi']
    exact elementEffect_alike h (position_of_elementAt hi ▸ hp)
  · rw [elementStep_of_end hp' hi']
    exact endOfData_alike h hrun

theorem runElements_alike (n : Nat) {s s' : State} (h : Alike s s') : Alike (runElements n s) (runElements n s') := by
  induction n generalizing s s' with
  | zero => exact h
  | succ n ih =>
    by_cases hidle : s.phase = .idle
    · rwa [runElements_of_idle _ hidle, runElements_of_idle _ (h.phase.trans hidle)]
    · have hrun' : s'.phase ≠ .idle := by rwa [h.phase]
      rw [runElements_succ n hidle, runElements_succ n hrun']
      exact ih (elementStep_alike h hidle)

/-! ### The commands (R212, R213, R214) -/

theorem badRange_sameInputs {s s' : State} (h : SameInputs s s') : badRange s' = badRange s := by
  simp [badRange, h.srcLen, h.srcStart, h.params]

theorem rawBlock_sameInputs {s s' : State} (h : SameInputs s s') : rawBlock s' = rawBlock s := by
  rw [rawBlock, rawBlock, h.srcLen, h.srcStart]
  exact srcBytes_congr fun k hk => h.src _ (by omega)

theorem encodeRm_sameOutcome {s s' : State} (h : SameInputs s s') : SameOutcome (encodeRm s) (encodeRm s') := by
  unfold encodeRm
  rw [rawBlock_sameInputs h]
  refine finishCommand_sameOutcome ?params ?srcPos _ _ _
  case params => exact h.params
  case srcPos => exact congrArg (· + _) h.srcStart

theorem encodeSw_sameOutcome {s s' : State} (h : SameInputs s s') : SameOutcome (encodeSw s) (encodeSw s') := by
  unfold encodeSw
  rw [rawBlock_sameInputs h, h.params]
  dsimp only
  split
  · exact failCommand_sameOutcome _ _ _ _ s s'
  · refine finishCommand_sameOutcome ?params ?srcPos _ _ _
    case params => rfl
    case srcPos => exact h.srcLen

theorem encodeCommand_sameOutcome {s s' : State} (h : SameInputs s s') :
    SameOutcome (encodeCommand s) (encodeCommand s') := by
  unfold encodeCommand
  rw [h.engine, badRange_sameInputs h]
  split_ifs
  · exact failCommand_sameOutcome _ _ _ _ s s'
  · exact failCommand_sameOutcome _ _ _ _ s s'
  · exact encodeRm_sameOutcome h
  · exact encodeSw_sameOutcome h

theorem beginDecode_alike {s s' : State} (h : SameInputs s s') : Alike (beginDecode s) (beginDecode s') := by
  unfold beginDecode
  rw [h.engine]
  split
  · exact alike_of_rm ⟨h.srcLen, h.srcStart, h.params, h.src⟩ rfl (.inl rfl) rfl
  · exact alike_of_sw ⟨h.srcLen, h.srcStart, h.params, h.src⟩ rfl (.inl rfl) rfl fun hne => absurd rfl hne

theorem decodeStream_sameOutcome {s s' : State} (h : SameInputs s s') :
    SameOutcome (decodeStream s) (decodeStream s') := by
  have hbound : elementBound (beginDecode s') = elementBound (beginDecode s) := by
    simp only [elementBound, beginDecode_srcPos, (beginDecode_keepsInputs _).srcLen, h.srcLen, h.srcStart]
  unfold decodeStream
  rw [h.engine, badRange_sameInputs h, hbound]
  split_ifs
  · exact failCommand_sameOutcome _ _ _ _ s s'
  · exact failCommand_sameOutcome _ _ _ _ s s'
  · exact (runElements_alike _ (beginDecode_alike h)).outcome (runElements_idle _ (Nat.lt_succ_self _))

/-- Settles O22. -/
theorem commandsDependOnlyOnTheirInputs : Obligations.CommandsDependOnlyOnTheirInputs := by
  intro i s s' t t' hi hengine hstart hlen hparams hsrc ht ht'
  have h : SameInputs s s' := ⟨hengine, hstart, hlen, hparams, hsrc⟩
  have hsame : SameOutcome t t' := by
    rcases hi with rfl | rfl <;> cases ht <;> cases ht'
    · exact encodeCommand_sameOutcome h
    · exact decodeStream_sameOutcome h
  exact ⟨hsame.status, hsame.errPos, hsame.outLen, hsame.out, hsame.srcPos⟩

end Sys2Proof.Proofs
end

section
/-! Source reads: what a read inside the source returns, and the value of its bytes, most significant first (R51). -/

namespace Sys2Proof.Proofs

open Sys2Proof.Machine

theorem memRead_of_le {s : State} {a n : Nat} (h : a + n ≤ s.srcLen) : memRead s a n = some (srcBytes s a n) :=
  if_pos h

theorem be16_eq_shiftLeft_or (b0 b1 : Byte) : be16 b0 b1 = (b0.setWidth 16 <<< 8) ||| b1.setWidth 16 := by
  rw [← BitVec.setWidth_append_eq_shiftLeft_setWidth_or, BitVec.setWidth_eq, be16]

theorem be32_eq_be16_shiftLeft_or (b0 b1 b2 b3 : Byte) :
    be32 b0 b1 b2 b3 = ((be16 b0 b1).setWidth 32 <<< 16) ||| (be16 b2 b3).setWidth 32 := by
  rw [← BitVec.setWidth_append_eq_shiftLeft_setWidth_or, BitVec.setWidth_eq, be32]

/-- Each half is widened and split into its bytes; the high half's shifts add up. -/
theorem be32_eq_shiftLeft_or (b0 b1 b2 b3 : Byte) :
    be32 b0 b1 b2 b3 =
      (b0.setWidth 32 <<< 24) ||| (b1.setWidth 32 <<< 16) ||| (b2.setWidth 32 <<< 8) ||| b3.setWidth 32 := by
  rw [be32_eq_be16_shiftLeft_or, be16, be16, BitVec.setWidth_append_eq_shiftLeft_setWidth_or,
    BitVec.setWidth_append_eq_shiftLeft_setWidth_or, BitVec.shiftLeft_or_distrib, ← BitVec.shiftLeft_add,
    ← BitVec.or_assoc]

/-- Settles O5: a read inside the source lists its bytes, and each view of them is the same shifts and ors. -/
theorem sourceReadsAreBigEndian : Obligations.SourceReadsAreBigEndian := by
  intro s a
  exact ⟨memRead_of_le, memRead_of_le, memRead_of_le, be16_eq_shiftLeft_or _ _, be32_eq_shiftLeft_or _ _ _ _,
    be32_eq_be16_shiftLeft_or _ _ _ _⟩

end Sys2Proof.Proofs
end

section
/-! Encodings: what packing and unpacking the bytes of each field gives, and that decoding and encoding undo each other
(R70-R91). -/

namespace Sys2Proof.Proofs

open Sys2Proof.Machine

/-! ### The fields of an encoding (R50-R52, R80) -/

theorem be16_extractLsb' (v : BitVec 16) : be16 (v.extractLsb' 8 8) (v.extractLsb' 0 8) = v := by
  unfold be16
  ext i hi
  simp only [BitVec.getElem_append]
  grind

theorem bytes16_be16 (b0 b1 : Byte) : bytes16 (be16 b0 b1) = [b0, b1] := by
  unfold bytes16 be16
  simp only [List.cons.injEq, and_true]
  refine ⟨?_, ?_⟩ <;> ext i hi <;> simp only [BitVec.getElem_extractLsb', BitVec.getLsbD_append] <;> grind

theorem bytes32_be32 (b0 b1 b2 b3 : Byte) : bytes32 (be32 b0 b1 b2 b3) = [b0, b1, b2, b3] := by
  unfold bytes32 be32 be16
  simp only [List.cons.injEq, and_true]
  refine ⟨?_, ?_, ?_, ?_⟩ <;> ext i hi <;> simp only [BitVec.getElem_extractLsb', BitVec.getLsbD_append] <;> grind

/-- The length field is the token's low 4 bits (R80). -/
theorem tokenLen_eq (t : BitVec 16) : tokenLen t = (t.extractLsb' 0 4).toNat + 3 := rfl

theorem tokenLen_bounds (t : BitVec 16) : 3 ≤ tokenLen t ∧ tokenLen t ≤ 18 := by
  have hfield : (t.extractLsb' 0 4).toNat < 16 := (t.extractLsb' 0 4).isLt
  rw [tokenLen_eq]
  omega

/-- The 4-bit field holds `len - 3` for exactly the lengths 3 to 18 (R80). -/
theorem tokenLen_tokenOf (off : WinPos) {len : Nat} (hmin : 3 ≤ len) (hmax : len ≤ 18) :
    tokenLen (tokenOf off len) = len := by
  have hfield : (tokenOf off len).extractLsb' 0 4 = BitVec.ofNat 4 (len - 3) := by
    unfold tokenOf be16
    ext i hi
    simp only [BitVec.getElem_extractLsb', BitVec.getLsbD_append]
    grind
  rw [tokenLen_eq, hfield, BitVec.toNat_ofNat]
  omega

theorem tokenOff_tokenOf (off : WinPos) (len : Nat) : tokenOff (tokenOf off len) = off := by
  unfold tokenOff tokenOf be16
  ext i hi
  simp only [BitVec.getElem_append, BitVec.getElem_extractLsb', BitVec.getLsbD_append, BitVec.getLsbD_extractLsb']
  grind

theorem tokenOf_tokenOff_tokenLen (t : BitVec 16) : tokenOf (tokenOff t) (tokenLen t) = t := by
  have hlen : BitVec.ofNat 4 (tokenLen t - 3) = t.extractLsb' 0 4 := by
    rw [tokenLen_eq, Nat.add_sub_cancel, BitVec.ofNat_toNat, BitVec.setWidth_eq]
  rw [tokenOf, hlen]
  unfold tokenOff be16
  ext i hi
  simp only [BitVec.getElem_append, BitVec.getElem_extractLsb', BitVec.getLsbD_append]
  grind

/-! ### Decoding what was encoded -/

theorem decode_histPort_toBytes_append (r : PortReq) (rest : List Byte) :
    decode .histPort (r.toBytes ++ rest) = (decodePort r).map (·, rest) := by
  obtain ⟨b0, b1, b2, hbytes, hreq⟩ := portReq_ofBytes_toBytes r
  simp only [hbytes, List.cons_append, List.nil_append, decode, hreq]

/-- Settles O1: the fields of each position read back what was packed into them; only a COUNT of 0xFF and a match length
outside 3 to 18 would read back as something else, and those are ill formed. -/
theorem decodeOfEncodeIsTheInstruction : Obligations.DecodeOfEncodeIsTheInstruction := by
  intro i rest hwf
  cases i
  case rmChain c =>
    have hc : c ≠ Config.rmTerm := bne_iff_ne.mp hwf
    simp only [Instr.position, encode, List.cons_append, List.nil_append, decode, if_neg hc]
  case rmEntry v m =>
    simp only [Instr.position, encode, bytes32, List.cons_append, List.nil_append, decode, be32_extractLsb']
  case swHdr size =>
    simp only [Instr.position, encode, bytes16, List.cons_append, List.nil_append, decode, be16_extractLsb']
  case swMatch off len =>
    obtain ⟨hmin, hmax⟩ : 3 ≤ len ∧ len ≤ 18 := by simpa [Instr.WellFormed] using hwf
    simp only [Instr.position, encode, bytes16, List.cons_append, List.nil_append, decode, be16_extractLsb',
      tokenOff_tokenOf, tokenLen_tokenOf off hmin hmax]
  case histSeed | histPush | histRead => exact decode_histPort_toBytes_append _ rest
  all_goals rfl

/-! ### Encoding what was decoded -/

theorem wellFormed_of_decode {p : Position} {bs rest : List Byte} {i : Instr} (h : decode p bs = .ok (i, rest)) :
    i.WellFormed = true := by
  unfold decode at h
  split at h
  case h_1 v _ =>
    unfold decodeCommand at h
    split_ifs at h <;> cases h <;> rfl
  case h_2 c _ =>
    cases h
    split
    case isTrue => rfl
    case isFalse hc => exact bne_iff_ne.mpr hc
  case h_8 b0 b1 _ =>
    cases h
    obtain ⟨hmin, hmax⟩ := tokenLen_bounds (be16 b0 b1)
    simp [Instr.WellFormed, hmin, hmax]
  case h_9 b0 b1 b2 _ =>
    unfold decodePort at h
    split_ifs at h <;> cases h <;> rfl
  all_goals cases h
  all_goals rfl

/-- Outside the history port, which drops the unused operand lines, no bit read is lost. -/
theorem encode_append_of_decode {p : Position} {bs rest : List Byte} {i : Instr} (hport : p ≠ .histPort)
    (h : decode p bs = .ok (i, rest)) : encode i ++ rest = bs := by
  unfold decode at h
  split at h
  case h_1 v _ =>
    unfold decodeCommand at h
    split_ifs at h with h0 h1 h2 h3 <;> cases h <;> simp only [*, encode, List.cons_append, List.nil_append]
  case h_2 c _ =>
    cases h
    split
    case isTrue hc => rw [hc]; rfl
    case isFalse => rfl
  case h_3 v m0 m1 m2 m3 _ =>
    cases h
    simp only [encode, bytes32_be32, List.cons_append, List.nil_append]
  case h_5 b0 b1 _ =>
    cases h
    simp only [encode, bytes16_be16, List.cons_append, List.nil_append]
  case h_8 b0 b1 _ =>
    cases h
    simp only [encode, tokenOf_tokenOff_tokenLen, bytes16_be16, List.cons_append, List.nil_append]
  case h_9 => exact absurd rfl hport
  all_goals cases h
  all_goals rfl

/-- Settles O2. -/
theorem encodeOfDecodeIsTheBytesRead : Obligations.EncodeOfDecodeIsTheBytesRead :=
  fun _ _ _ _ hport h => ⟨wellFormed_of_decode h, position_of_decode h, encode_append_of_decode hport h⟩

/-! ### What the decoder rejects (R84, R87, R88) -/

/-- At a stream position nothing but a lack of bytes is rejected. -/
theorem exists_decode_of_width_le {p : Position} {bs : List Byte} (hcmd : p ≠ .command) (hport : p ≠ .histPort)
    (hlen : p.width ≤ bs.length) : ∃ i, decode p bs = .ok (i, bs.drop p.width) := by
  cases p
  case command => exact absurd rfl hcmd
  case histPort => exact absurd rfl hport
  case rmEntry =>
    obtain _ | ⟨v, _ | ⟨m0, _ | ⟨m1, _ | ⟨m2, _ | ⟨m3, rest⟩⟩⟩⟩⟩ := bs
    case cons.cons.cons.cons.cons => exact ⟨_, rfl⟩
    all_goals simp [Position.width] at hlen
  case swHdr | swMatch =>
    obtain _ | ⟨b0, _ | ⟨b1, rest⟩⟩ := bs
    case cons.cons => exact ⟨_, rfl⟩
    all_goals simp [Position.width] at hlen
  all_goals
    obtain _ | ⟨b, rest⟩ := bs
    · simp [Position.width] at hlen
    · exact ⟨_, rfl⟩

/-- Settles O3. -/
theorem everyStreamByteSequenceIsAnElement : Obligations.EveryStreamByteSequenceIsAnElement :=
  fun _ _ hcmd hport hlen => exists_decode_of_width_le hcmd hport hlen

/-- Settles O6: the words are decoded one by one. -/
theorem wordsOfTheSpecDecode : Obligations.WordsOfTheSpecDecode := by
  refine ⟨?_, ?_, ?_, ?_, ?_, ?_, ?_, ?_⟩ <;> rfl

/-! ### Match tokens (R80) -/

theorem tokenLen_eq_and (t : BitVec 16) : tokenLen t = (t &&& 0xF).toNat + 3 := by
  have hand : (t &&& 0xF).toNat = t.toNat % 16 := by
    rw [BitVec.toNat_and]
    exact Nat.and_two_pow_sub_one_eq_mod t.toNat 4
  rw [tokenLen_eq, hand, BitVec.extractLsb'_toNat, Nat.shiftRight_zero]

/-- Bit by bit: the mask keeps the token's bits 7 to 4, which the shift puts above the first byte (R80). -/
theorem tokenOff_setWidth (t : BitVec 16) : (tokenOff t).setWidth 16 = ((t &&& 0xF0) <<< 4) ||| (t >>> 8) := by
  unfold tokenOff
  ext i hi
  simp only [BitVec.getElem_setWidth, BitVec.getLsbD_append, BitVec.getElem_or, BitVec.getElem_shiftLeft,
    BitVec.getElem_ushiftRight, BitVec.getElem_and, BitVec.getLsbD_extractLsb']
  interval_cases i <;> simp

/-- OFF's low 8 bits are the token's first byte, its high 4 bits the high nibble of the second. -/
theorem tokenOff_be16 (b0 b1 : Byte) : tokenOff (be16 b0 b1) = b1.extractLsb' 4 4 ++ b0 := by
  unfold tokenOff be16
  ext i hi
  simp only [BitVec.getElem_append, BitVec.getElem_extractLsb', BitVec.getLsbD_append]
  grind

theorem tokenOff_be16_toNat (b0 b1 : Byte) : (tokenOff (be16 b0 b1)).toNat = b1.toNat / 16 * 256 + b0.toNat := by
  have hb0 : b0.toNat < 2 ^ 8 := b0.isLt
  have hb1 : b1.toNat < 2 ^ 8 := b1.isLt
  have hhigh : (b1.extractLsb' 4 4).toNat = b1.toNat / 16 := by
    rw [BitVec.extractLsb'_toNat, Nat.shiftRight_eq_div_pow]
    omega
  rw [tokenOff_be16, BitVec.toNat_append, ← Nat.shiftLeft_add_eq_or_of_lt hb0, hhigh, Nat.shiftLeft_eq]

theorem extractLsb'_tokenOff (t : BitVec 16) :
    (tokenOff t).extractLsb' 0 8 = t.extractLsb' 8 8 ∧ (tokenOff t).extractLsb' 8 4 = t.extractLsb' 4 4 := by
  unfold tokenOff
  refine ⟨?_, ?_⟩ <;> ext i hi <;> simp only [BitVec.getElem_extractLsb', BitVec.getLsbD_append] <;> grind

theorem encode_swMatch (off : WinPos) (len : Nat) :
    encode (.swMatch off len) =
      [off.extractLsb' 0 8, off.extractLsb' 8 4 ++ BitVec.ofNat 4 (len - 3)] := bytes16_be16 _ _

/-- Settles O4: OFF and LEN as the decoder packs them are the formulas' shifts and masks, and their bytes the encoder's. -/
theorem matchTokenFields : Obligations.MatchTokenFields := by
  refine ⟨?decoded, ?encoded⟩
  case decoded =>
    intro B0 B1 T
    obtain ⟨hlow, hhigh⟩ := extractLsb'_tokenOff (be16 B0 B1)
    obtain ⟨hmin, hmax⟩ := tokenLen_bounds (be16 B0 B1)
    have hT : T = be16 B0 B1 := (be16_eq_shiftLeft_or B0 B1).symm
    rw [hT]
    exact ⟨_, _, rfl, tokenLen_eq_and _, tokenOff_setWidth _, hlow, hhigh, tokenOff_be16_toNat B0 B1, hmin, hmax⟩
  case encoded =>
    intro off len hmin hmax
    have hfits : len - 3 < 2 ^ 4 := by omega
    have hlen : (BitVec.ofNat 4 (len - 3)).setWidth 8 = BitVec.ofNat 8 (len - 3) :=
      BitVec.setWidth_ofNat_of_le_of_lt (by decide) hfits
    rw [encode_swMatch, ← hlen, ← BitVec.setWidth_append_eq_shiftLeft_setWidth_or, BitVec.setWidth_eq]

/-! ### The history port (R91, R143) -/

/-- Settles O10: operation code 11 passes every other code by. -/
theorem reservedPortOperationIsRefused : Obligations.ReservedPortOperationIsRefused := by
  intro s r hport hop
  have hdecode : decodePort r = .error .reservedPortOp := by simp [decodePort, hop]
  simp only [step, fetch, hport, decode_histPort_toBytes, hdecode, Except.map]

/-- Settles O25. -/
theorem histReadChangesNoState : Obligations.HistReadChangesNoState :=
  ⟨fun _ _ => rfl, fun h a => (h.read_mod a).symm⟩

end Sys2Proof.Proofs
end

section
/-! The Run/Mask stream elements: what each leaves unchanged, and which slot or position it goes on with (R120-R125). -/

namespace Sys2Proof.Proofs

open Sys2Proof.Machine

/-! ### What a Run/Mask element leaves unchanged (R41, R85) -/

/-- The decode has read `n` bytes, and nothing but the Run/Mask decoder and the place in the grammar has changed. -/
structure RmReads (n : Nat) (s t : State) : Prop extends Frame s t where
  /-- SRC_POS has advanced by the bytes read. -/
  srcPos : t.srcPos = s.srcPos + n
  /-- The History Window is unchanged. -/
  hist : t.hist = s.hist
  /-- The Run/Mask encoder is unchanged. -/
  rmEnc : t.rmEnc = s.rmEnc
  /-- The Sliding-Window encoder is unchanged. -/
  swEnc : t.swEnc = s.swEnc
  /-- The Sliding-Window decoder is unchanged. -/
  swDec : t.swDec = s.swDec
  /-- The saved SRC_POS is unchanged. -/
  posBefore : t.posBefore = s.posBefore

theorem frame_trans {s t u : State} (h₁ : Frame s t) (h₂ : Frame t u) : Frame s u where
  status := h₂.status.trans h₁.status
  engine := h₂.engine.trans h₁.engine
  srcStart := h₂.srcStart.trans h₁.srcStart
  srcLen := h₂.srcLen.trans h₁.srcLen
  outLen := h₂.outLen.trans h₁.outLen
  errPos := h₂.errPos.trans h₁.errPos
  nameLen := h₂.nameLen.trans h₁.nameLen
  src a := (h₂.src a).trans (h₁.src a)
  out a := (h₂.out a).trans (h₁.out a)
  name a := (h₂.name a).trans (h₁.name a)
  params := h₂.params.trans h₁.params
  bus := h₂.bus.trans h₁.bus
  busData := h₂.busData.trans h₁.busData
  port := h₂.port.trans h₁.port
  portData := h₂.portData.trans h₁.portData

theorem RmReads.trans {m n : Nat} {s t u : State} (h₁ : RmReads m s t) (h₂ : RmReads n t u) :
    RmReads (m + n) s u where
  toFrame := frame_trans h₁.toFrame h₂.toFrame
  srcPos := by rw [h₂.srcPos, h₁.srcPos, Nat.add_assoc]
  hist := h₂.hist.trans h₁.hist
  rmEnc := h₂.rmEnc.trans h₁.rmEnc
  swEnc := h₂.swEnc.trans h₁.swEnc
  swDec := h₂.swDec.trans h₁.swDec
  posBefore := h₂.posBefore.trans h₁.posBefore

theorem rmReads_advance (n : Nat) (s : State) (d : RmDecoder) (p : Phase) :
    RmReads n s { advance n s with rmDec := d, phase := p } := by
  refine ⟨?_, rfl, rfl, rfl, rfl, rfl, rfl⟩
  constructor <;> intros <;> rfl

theorem rmReads_toLiteral (i : Nat) (s : State) : RmReads 0 s (toLiteral i s) := by
  rcases toLiteral_cases i s with ⟨k, -, -, heq⟩ | heq <;> rw [heq] <;> exact rmReads_advance 0 s _ _

theorem rmReads_afterEntry (s : State) : RmReads 0 s (afterEntry s) := by
  rcases afterEntry_cases s with ⟨-, heq⟩ | heq | heq <;> rw [heq]
  · exact rmReads_advance 0 s _ _
  · exact rmReads_toLiteral 0 s
  · exact rmReads_advance 0 s _ _

theorem rmReads_rmChainState (c : Byte) (s : State) : RmReads 1 s (rmChainState c s) :=
  (rmReads_advance 1 s _ _).trans (rmReads_afterEntry _)

theorem rmReads_rmEntryState (v : Byte) (m : Mask) (s : State) : RmReads 5 s (rmEntryState v m s) :=
  (rmReads_advance 5 s _ _).trans (rmReads_afterEntry _)

theorem rmReads_rmLitState (b : Byte) (s : State) : RmReads 1 s (rmLitState b s) :=
  (rmReads_advance 1 s _ _).trans (rmReads_toLiteral _ _)

/-! ### The next literal's slot (R73, R124) -/

theorem nextSlot_spec (p : Mask) {i : Nat} (hi : i ≤ 32) :
    i ≤ nextSlot p i ∧ nextSlot p i ≤ 32 ∧ (∀ j, i ≤ j → j < nextSlot p i → p.getMsbD j = true) ∧
      (nextSlot p i < 32 → p.getMsbD (nextSlot p i) = false) := by
  have hspec := nextFree_spec p i (32 - i)
  rwa [Nat.add_sub_cancel' hi] at hspec

theorem nextSlot_of_full {p : Mask} {i : Nat} (hi : i ≤ 32) (hfull : ∀ j, i ≤ j → j < 32 → p.getMsbD j = true) :
    nextSlot p i = 32 := by
  obtain ⟨hle, hle32, -, hfree⟩ := nextSlot_spec p hi
  refine Nat.le_antisymm hle32 (Nat.le_of_not_lt fun hlt => ?_)
  simpa [hfree hlt] using hfull _ hle hlt

theorem nextSlot_lt {p : Mask} {i j : Nat} (hij : i ≤ j) (hj : j < 32) (hfree : p.getMsbD j = false) :
    nextSlot p i < 32 := by
  obtain ⟨-, -, hcovered, -⟩ := nextSlot_spec p (hij.trans hj.le)
  have hle : nextSlot p i ≤ j := Nat.le_of_not_lt fun hlt => by simpa [hfree] using hcovered j hij hlt
  omega

theorem toLiteral_of_lt {i : Nat} {s : State} (h : nextSlot s.rmDec.pattern i < 32) :
    toLiteral i s = { s with rmDec := { s.rmDec with slot := nextSlot s.rmDec.pattern i }, phase := .rmLit } := if_pos h

theorem toLiteral_of_full {i : Nat} {s : State} (h : nextSlot s.rmDec.pattern i = 32) :
    toLiteral i s = completeChunk s := if_neg (by simp [h])

@[simp] theorem toLiteral_rmDec_pattern (i : Nat) (s : State) : (toLiteral i s).rmDec.pattern = s.rmDec.pattern := by
  unfold toLiteral; split <;> rfl

@[simp] theorem toLiteral_rmDec_chunk (i : Nat) (s : State) : (toLiteral i s).rmDec.chunk = s.rmDec.chunk := by
  unfold toLiteral; split <;> rfl

@[simp] theorem toLiteral_rmDec_count (i : Nat) (s : State) : (toLiteral i s).rmDec.count = s.rmDec.count := by
  unfold toLiteral; split <;> rfl

/-! ### After an entry (R120, R121) -/

theorem afterEntry_of_left_pos {s : State} (h : s.rmDec.left ≠ 0) : afterEntry s = { s with phase := .rmEntry } :=
  if_neg h

/-- With no entry left the literals follow; an all-ones PATTERN leaves none, so its own case is no exception. -/
theorem afterEntry_of_left_zero {s : State} (h : s.rmDec.left = 0) : afterEntry s = toLiteral 0 s := by
  unfold afterEntry
  rw [if_pos h]
  split
  case isTrue hones =>
    refine (toLiteral_of_full (nextSlot_of_full (Nat.zero_le _) fun j _ hj => ?_)).symm
    rw [hones, BitVec.getMsbD_allOnes]
    exact decide_eq_true hj
  case isFalse => rfl

/-- The decoder a chain starts with is the same whether an entry or a literal follows, since slot 0 is free at first. -/
theorem rmChainState_eq (c : Byte) (s : State) :
    rmChainState c s =
      { advance 1 s with
        rmDec := { s.rmDec with count := c, pattern := 0, chunk := emptyChunk, left := c.toNat, slot := 0 }
        phase := if c = 0 then .rmLit else .rmEntry } := by
  unfold rmChainState
  by_cases hc : c = 0
  · subst hc
    have hslot : nextSlot 0 0 = 0 := rfl
    rw [afterEntry_of_left_zero rfl, toLiteral_of_lt]
    · rw [hslot, if_pos rfl]
    · exact hslot.trans_lt (by decide)
  · have hleft : c.toNat ≠ 0 := fun h => hc (BitVec.eq_of_toNat_eq h)
    rw [afterEntry_of_left_pos hleft, if_neg hc]

/-- Settles O28: COUNT decides what follows, and nothing else depends on it. -/
theorem rmChainStartsAChain : Obligations.RmChainStartsAChain := by
  intro c s
  have hreads := rmReads_rmChainState c s
  have hdec := congrArg State.rmDec (rmChainState_eq c s)
  have hphase := congrArg State.phase (rmChainState_eq c s)
  refine ⟨rmChainState c s, rfl, hreads.srcPos, by rw [hdec], by rw [hdec], by rw [hdec], fun hc => ?entries,
    fun hc => ?literals, hreads.toFrame, hreads.hist, hreads.rmEnc, hreads.swEnc, hreads.swDec, hreads.posBefore⟩
  case entries => exact ⟨hphase.trans (if_neg hc), by rw [hdec]⟩
  case literals => exact ⟨hphase.trans (if_pos hc), by rw [hdec]⟩

/-! ### RM.LIT (R124) -/

@[simp] theorem rmLitState_rmDec_pattern (b : Byte) (s : State) :
    (rmLitState b s).rmDec.pattern = s.rmDec.pattern := by simp [rmLitState]

@[simp] theorem rmLitState_rmDec_chunk (b : Byte) (s : State) :
    (rmLitState b s).rmDec.chunk = s.rmDec.chunk.set s.rmDec.slot b := by simp [rmLitState]

@[simp] theorem rmLitState_rmDec_count (b : Byte) (s : State) : (rmLitState b s).rmDec.count = s.rmDec.count := by
  simp [rmLitState]

theorem rmLitState_of_lt {b : Byte} {s : State} (h : nextSlot s.rmDec.pattern (s.rmDec.slot + 1) < 32) :
    (rmLitState b s).phase = .rmLit ∧ (rmLitState b s).rmDec.res = s.rmDec.res ∧
      (rmLitState b s).rmDec.slot = nextSlot s.rmDec.pattern (s.rmDec.slot + 1) := by
  rw [rmLitState, toLiteral_of_lt]
  · exact ⟨rfl, rfl, rfl⟩
  · exact h

theorem rmLitState_of_full {b : Byte} {s : State} (h : nextSlot s.rmDec.pattern (s.rmDec.slot + 1) = 32) :
    (rmLitState b s).phase = .rmCount ∧ (rmLitState b s).rmDec.res = s.rmDec.res ++ (rmLitState b s).rmDec.chunk := by
  rw [rmLitState, toLiteral_of_full]
  · exact ⟨rfl, rfl⟩
  · exact h

/-- Settles O30: the slots after the current one are searched for the next free one. -/
theorem rmLiteralFillsItsSlot : Obligations.RmLiteralFillsItsSlot := by
  intro b s hlen hslot
  have hreads := rmReads_rmLitState b s
  obtain ⟨hge, -, hcovered, hfree⟩ := nextSlot_spec s.rmDec.pattern (Nat.succ_le_of_lt hslot)
  refine ⟨rmLitState b s, rfl, hreads.srcPos, rmLitState_rmDec_pattern b s, fun i hi => ?chunk, ?next, fun hfull => ?last,
    hreads.toFrame, hreads.hist, hreads.rmEnc, hreads.swEnc, hreads.swDec, rmLitState_rmDec_count b s,
    hreads.posBefore⟩
  case chunk =>
    rw [rmLitState_rmDec_chunk, List.getElem?_set]
    by_cases his : s.rmDec.slot = i
    · simp [his, hlen, hi]
    · simp [his, Ne.symm his]
  case next =>
    rintro ⟨j, hj, hj32, hjfree⟩
    have hlt := nextSlot_lt (Nat.succ_le_of_lt hj) hj32 ((mask_getMsbD _ hj32).trans hjfree)
    obtain ⟨hphase, hres, hnext⟩ := rmLitState_of_lt (b := b) hlt
    rw [hnext]
    refine ⟨hphase, hres, hge, hlt, (mask_getMsbD _ hlt).symm.trans (hfree hlt), fun k hk hk' => ?_⟩
    exact (mask_getMsbD _ (hk'.trans hlt)).symm.trans (hcovered k hk hk')
  case last =>
    exact rmLitState_of_full (nextSlot_of_full (Nat.succ_le_of_lt hslot) fun j hj hj32 =>
      (mask_getMsbD _ hj32).trans (hfull j hj hj32))

end Sys2Proof.Proofs
end

section
/-! A running DECODE run to its end, one element at a time, by the bytes that are still ahead of it (R21, R55, R84). -/

namespace Sys2Proof.Proofs

open Sys2Proof.Machine

/-! ### The end of a running DECODE (R132, R190, R210) -/

/-- The state in which a running DECODE has ended. -/
def decodeEnd (s : State) : State := runElements (elementBound s) s

theorem runElements_add (m n : Nat) (s : State) : runElements (m + n) s = runElements n (runElements m s) := by
  induction m generalizing s with
  | zero => rw [Nat.zero_add, runElements]
  | succ m ih =>
    by_cases hidle : s.phase = .idle
    · simp only [runElements_of_idle _ hidle]
    · rw [Nat.succ_add, runElements_succ _ hidle, runElements_succ _ hidle, ih]

/-- Rounds beyond the bound change nothing. -/
theorem runElements_eq_decodeEnd {n : Nat} {s : State} (hn : s.srcLen - s.srcPos < n) :
    runElements n s = decodeEnd s := by
  obtain ⟨k, rfl⟩ := Nat.exists_eq_add_of_le (Nat.succ_le_of_lt hn)
  rw [runElements_add]
  exact runElements_of_idle k (runElements_idle _ (Nat.lt_succ_self _))

theorem decodeEnd_of_idle {s : State} (hidle : s.phase = .idle) : decodeEnd s = s := runElements_of_idle _ hidle

theorem decodeEnd_elementStep {s : State} (hrun : s.phase ≠ .idle) : decodeEnd (elementStep s) = decodeEnd s := by
  have hfirst : decodeEnd s = runElements (s.srcLen - s.srcPos) (elementStep s) := runElements_succ _ hrun
  rw [hfirst]
  rcases elementStep_progress hrun with hidle | ⟨hlt, hnext⟩
  · rw [decodeEnd_of_idle hidle, runElements_of_idle _ hidle]
  · refine (runElements_eq_decodeEnd ?_).symm
    rw [(elementStep_keepsInputs s).srcLen]
    omega

theorem decodeStream_eq_decodeEnd {s : State} (hengine : engField s.engine ≠ 0) (hcap : s.srcLen ≤ s.params.srcCap)
    (hstart : s.srcStart ≤ s.srcLen) : decodeStream s = decodeEnd (beginDecode s) := by
  rw [decodeStream_eq_runElements hengine hcap hstart]
  refine runElements_eq_decodeEnd ?_
  rw [beginDecode_srcPos, (beginDecode_keepsInputs s).srcLen]
  exact Nat.lt_succ_self _

/-! ### The bytes ahead of a running DECODE (R26, R55) -/

/-- The bytes from SRC_POS to SRC_LEN. -/
def ahead (s : State) : List Byte := srcBytes s s.srcPos (s.srcLen - s.srcPos)

@[simp] theorem length_ahead (s : State) : (ahead s).length = s.srcLen - s.srcPos := length_srcBytes s _ _

theorem drop_srcBytes (s : State) (a n k : Nat) : (srcBytes s a n).drop k = srcBytes s (a + k) (n - k) := by
  by_cases hk : k ≤ n
  · obtain ⟨m, rfl⟩ := Nat.exists_eq_add_of_le hk
    rw [srcBytes_add, Nat.add_sub_cancel_left]
    exact List.drop_left' (length_srcBytes s a k)
  · rw [Nat.sub_eq_zero_of_le (by omega), srcBytes]
    exact List.drop_eq_nil_of_le (by rw [length_srcBytes]; omega)

theorem take_srcBytes (s : State) (a : Nat) {n k : Nat} (hk : k ≤ n) : (srcBytes s a n).take k = srcBytes s a k := by
  obtain ⟨m, rfl⟩ := Nat.exists_eq_add_of_le hk
  rw [srcBytes_add]
  exact List.take_left' (length_srcBytes s a k)

theorem srcPos_add_width_le_iff (p : Position) (s : State) :
    s.srcPos + p.width ≤ s.srcLen ↔ p.width ≤ (ahead s).length := by
  have hwidth := width_pos p
  rw [length_ahead]
  omega

/-- Every instruction encodes to exactly the bytes its position reads (R84, R85, R90). -/
theorem length_encode (i : Instr) : (encode i).length = i.position.width := by cases i <;> rfl

/-- The element at SRC_POS is the first one of the bytes ahead: what the decoder reads of them is the encoding of the
element, and that decodes alone as well. -/
theorem elementAt_of_decode_ahead {p : Position} {s : State} {i : Instr} {rest : List Byte} (hport : p ≠ .histPort)
    (h : decode p (ahead s) = .ok (i, rest)) : elementAt p s = some i := by
  have hpos := position_of_decode h
  have hbytes := encode_append_of_decode hport h
  have hwidth : (encode i).length = p.width := hpos ▸ length_encode i
  have hle : p.width ≤ (ahead s).length := by
    rw [← hbytes, List.length_append, hwidth]
    exact Nat.le_add_right _ _
  have hread : srcBytes s s.srcPos p.width = encode i := by
    rw [← take_srcBytes s s.srcPos (length_ahead s ▸ hle), ← ahead, ← hbytes]
    exact List.take_left' hwidth
  have halone := decodeOfEncodeIsTheInstruction i [] (wellFormed_of_decode h)
  rw [List.append_nil, hpos, ← hread] at halone
  exact elementAt_of_decode ((srcPos_add_width_le_iff p s).mpr hle) halone

theorem elementAt_of_short {p : Position} {s : State} (h : (ahead s).length < p.width) : elementAt p s = none := by
  have hend : ¬ s.srcPos + p.width ≤ s.srcLen := mt (srcPos_add_width_le_iff p s).mp (Nat.not_le_of_lt h)
  simp [elementAt, memRead, hend]

theorem running_of_streamPosition {s : State} {p : Position} (hp : streamPosition s = some p) : s.phase ≠ .idle :=
  fun hidle => by simp [(streamPosition_eq_none_iff s).mpr hidle] at hp

/-- A running DECODE with an element ahead runs it first. -/
theorem decodeEnd_of_decode_ahead {p : Position} {s : State} {i : Instr} {rest : List Byte}
    (hp : streamPosition s = some p) (h : decode p (ahead s) = .ok (i, rest)) :
    decodeEnd s = decodeEnd (elementEffect i s) := by
  obtain ⟨-, hport⟩ := streamPosition_ne_command_ne_histPort hp
  rw [← decodeEnd_elementStep (running_of_streamPosition hp),
    elementStep_of_element hp (elementAt_of_decode_ahead hport h)]

/-- A running DECODE with too few bytes ahead ends. -/
theorem decodeEnd_of_short {p : Position} {s : State} (hp : streamPosition s = some p)
    (h : (ahead s).length < p.width) : decodeEnd s = endOfData s := by
  rw [← decodeEnd_elementStep (running_of_streamPosition hp), elementStep_of_end hp (elementAt_of_short h),
    decodeEnd_of_idle (endOfData_idle s)]

/-! ### The two ends of a command (R212, R228) -/

theorem finishCommand_done {res : List Byte} {s : State} (before : Nat) (h : res.length ≤ s.params.outCap) :
    Done res (finishCommand res before s) ∧ (finishCommand res before s).srcPos = s.srcPos := by
  have hout := outBytes_finishCommand before h
  rw [finishCommand_of_le before h] at hout ⊢
  exact ⟨⟨statusDone_eq, rfl, rfl, hout, rfl⟩, rfl⟩

theorem failCommand_failed (e : ErrorCode) (pos before : Nat) (s : State) :
    Failed e.code pos (failCommand e pos before s) := by
  obtain ⟨hstate, hreserved, herr⟩ := statusError_fields e
  exact ⟨hstate, hreserved, herr, rfl, rfl, rfl⟩

theorem finishCommand_failed {res : List Byte} {s : State} (before : Nat) (h : s.params.outCap < res.length) :
    Failed 7 0 (finishCommand res before s) ∧ (finishCommand res before s).srcPos = before := by
  rw [finishCommand_of_lt before h]
  exact ⟨failCommand_failed .outputOverflow 0 before s, rfl⟩

end Sys2Proof.Proofs
end

section
/-! The reference Chunk: how it grows by an entry and by a literal, and how many literals it takes (R71, R73, R122). -/

namespace Sys2Proof.Proofs

open Sys2Proof.Machine Sys2Proof.Reference

/-! ### Counting the uncovered slots (R73) -/

theorem zerosBelow_succ (p : Mask) (i : Nat) :
    zerosBelow p (i + 1) = zerosBelow p i + if p.getMsbD i then 0 else 1 := by
  simp only [zerosBelow, List.range_succ, List.filter_append, List.length_append]
  cases hi : p.getMsbD i <;> simp [hi]

theorem zerosBelow_mono (p : Mask) {i j : Nat} (hij : i ≤ j) : zerosBelow p i ≤ zerosBelow p j := by
  induction j, hij using Nat.le_induction with
  | base => exact le_rfl
  | succ j _ ih =>
    rw [zerosBelow_succ]
    omega

theorem zerosBelow_succ_of_free {p : Mask} {i : Nat} (hfree : p.getMsbD i = false) :
    zerosBelow p (i + 1) = zerosBelow p i + 1 := by
  simp [zerosBelow_succ, hfree]

/-- Covered slots need no literal. -/
theorem zerosBelow_of_covered {p : Mask} {i j : Nat} (hij : i ≤ j)
    (hcovered : ∀ k, i ≤ k → k < j → p.getMsbD k = true) : zerosBelow p j = zerosBelow p i := by
  induction j, hij using Nat.le_induction with
  | base => rfl
  | succ j hj ih =>
    have hlast := hcovered j hj (Nat.lt_succ_self j)
    rw [zerosBelow_succ, ih fun k hk hkj => hcovered k hk (Nat.lt_succ_of_lt hkj)]
    simp [hlast]

theorem zerosBelow_nextSlot (p : Mask) {i : Nat} (hi : i ≤ 32) : zerosBelow p (nextSlot p i) = zerosBelow p i := by
  obtain ⟨hle, -, hcovered, -⟩ := nextSlot_spec p hi
  exact zerosBelow_of_covered hle hcovered

/-- The search for a slot ends at 32 exactly when no literal is missing. -/
theorem nextSlot_lt_iff (p : Mask) {i : Nat} (hi : i ≤ 32) :
    nextSlot p i < 32 ↔ zerosBelow p i < zerosBelow p 32 := by
  obtain ⟨-, hle, -, hfree⟩ := nextSlot_spec p hi
  rw [← zerosBelow_nextSlot p hi]
  constructor
  · intro hlt
    have hmono := zerosBelow_mono p (Nat.succ_le_of_lt hlt)
    rw [zerosBelow_succ_of_free (hfree hlt)] at hmono
    omega
  · intro hzeros
    exact lt_of_le_of_ne hle fun heq => by simp [heq] at hzeros

/-! ### The Chunk (R71, R122, R130) -/

theorem patternOf_append (es : List (Byte × Mask)) (v : Byte) (m : Mask) :
    patternOf (es ++ [(v, m)]) = patternOf es ||| m := by
  simp [patternOf]

theorem patternOf_getMsbD (es : List (Byte × Mask)) (i : Nat) :
    (patternOf es).getMsbD i = es.any fun e => e.2.getMsbD i := by
  have hzero : (0 : Mask).getMsbD i = false := BitVec.getMsbD_zero
  rw [patternOf, foldl_or_getMsbD, hzero, Bool.false_or]

/-- The last entry placed goes over any earlier one (R130). -/
theorem slotByte_append_entry (es : List (Byte × Mask)) (v : Byte) (m : Mask) (i : Nat) :
    slotByte (es ++ [(v, m)]) [] i = if m.getMsbD i then v else slotByte es [] i := by
  unfold slotByte
  rw [List.reverse_append, List.reverse_singleton, List.singleton_append, List.find?_cons]
  cases m.getMsbD i <;> simp

theorem slotByte_of_free {es : List (Byte × Mask)} {i : Nat} (lits : List Byte)
    (hfree : (patternOf es).getMsbD i = false) : slotByte es lits i = lits.getD (zerosBelow (patternOf es) i) 0 := by
  have hnone : es.reverse.find? (fun e => e.2.getMsbD i) = none := by
    rw [patternOf_getMsbD, List.any_eq_false] at hfree
    simpa [List.find?_eq_none] using hfree
  rw [slotByte, hnone]

theorem slotByte_of_covered {es : List (Byte × Mask)} {i : Nat} (lits lits' : List Byte)
    (hcovered : (patternOf es).getMsbD i = true) : slotByte es lits i = slotByte es lits' i := by
  have hsome : (es.reverse.find? fun e => e.2.getMsbD i).isSome = true := by
    rw [patternOf_getMsbD, List.any_eq_true] at hcovered
    simpa [List.find?_isSome] using hcovered
  obtain ⟨e, he⟩ := Option.isSome_iff_exists.mp hsome
  rw [slotByte, slotByte, he]

/-- A further literal goes to the first uncovered slot that has none, and to no other. -/
theorem slotByte_append_lit {es : List (Byte × Mask)} {lits : List Byte} {k : Nat} (b : Byte) (i : Nat)
    (hfree : (patternOf es).getMsbD k = false) (hlits : lits.length = zerosBelow (patternOf es) k) :
    slotByte es (lits ++ [b]) i = if k = i then b else slotByte es lits i := by
  by_cases hki : k = i
  · subst hki
    rw [slotByte_of_free _ hfree, ← hlits, if_pos rfl]
    simp
  · rw [if_neg hki]
    cases hi : (patternOf es).getMsbD i
    case true => exact slotByte_of_covered _ _ hi
    case false =>
      rw [slotByte_of_free _ hi, slotByte_of_free _ hi]
      rcases Nat.lt_or_gt_of_ne hki with hlt | hgt
      · have hmono := zerosBelow_mono (patternOf es) (Nat.succ_le_of_lt hlt)
        rw [zerosBelow_succ_of_free hfree] at hmono
        rw [List.getD_eq_default _ _ (by simp; omega), List.getD_eq_default _ _ (by omega)]
      · have hmono := zerosBelow_mono (patternOf es) (Nat.succ_le_of_lt hgt)
        rw [zerosBelow_succ_of_free hi] at hmono
        rw [List.getD_append _ _ _ _ (by omega)]

theorem chunkOf_getElem? (es : List (Byte × Mask)) (lits : List Byte) (i : Nat) :
    (chunkOf es lits)[i]? = if i < 32 then some (slotByte es lits i) else none := by
  by_cases hi : i < 32 <;> simp [chunkOf, hi]

theorem chunkOf_nil : chunkOf [] [] = emptyChunk := by decide

theorem placeFrom_chunkOf (es : List (Byte × Mask)) (v : Byte) (m : Mask) :
    placeFrom m v 0 (chunkOf es []) = chunkOf (es ++ [(v, m)]) [] := by
  apply List.ext_getElem?
  intro i
  rw [getElem?_placeFrom, chunkOf_getElem?, chunkOf_getElem?, slotByte_append_entry, Nat.zero_add]
  by_cases hi : i < 32 <;> simp [hi]

theorem set_chunkOf {es : List (Byte × Mask)} {lits : List Byte} {k : Nat} (b : Byte) (hk : k < 32)
    (hfree : (patternOf es).getMsbD k = false) (hlits : lits.length = zerosBelow (patternOf es) k) :
    (chunkOf es lits).set k b = chunkOf es (lits ++ [b]) := by
  have hlen : (chunkOf es lits).length = 32 := by simp [chunkOf]
  apply List.ext_getElem?
  intro i
  rw [List.getElem?_set, hlen, chunkOf_getElem?, chunkOf_getElem?, slotByte_append_lit b i hfree hlits]
  by_cases hki : k = i
  · simp [← hki, hk]
  · simp [hki]

end Sys2Proof.Proofs
end

section
/-! A Run/Mask DECODE against the reference reading of the grammar: entries, literals, chains, and the whole stream
(R120-R130, R213). -/

namespace Sys2Proof.Proofs

open Sys2Proof.Machine Sys2Proof.Reference

/-! ### What a running Run/Mask DECODE has read and delivered -/

/-- The decode has read `n` bytes and appended `bs` to RES. -/
structure RmDelivers (n : Nat) (bs : List Byte) (s t : State) : Prop extends RmReads n s t where
  /-- RES has grown by `bs`. -/
  res : t.rmDec.res = s.rmDec.res ++ bs

theorem RmDelivers.trans {m n : Nat} {bs bs' : List Byte} {s t u : State} (h₁ : RmDelivers m bs s t)
    (h₂ : RmDelivers n bs' t u) : RmDelivers (m + n) (bs ++ bs') s u :=
  ⟨h₁.toRmReads.trans h₂.toRmReads, by rw [h₂.res, h₁.res, List.append_assoc]⟩

theorem rmDelivers_advance (n : Nat) (s : State) (d : RmDecoder) (p : Phase) (hres : d.res = s.rmDec.res) :
    RmDelivers n [] s { advance n s with rmDec := d, phase := p } :=
  ⟨rmReads_advance n s d p, by rw [List.append_nil]; exact hres⟩

/-- From `s` on the decode delivers `r.1`, reads `r.2` bytes and ends in `t`. -/
def RmEnds (s : State) (r : List Byte × Nat) (t : State) : Prop :=
  ∃ u, RmReads r.2 s u ∧ t = finishCommand (s.rmDec.res ++ r.1) s.posBefore u

theorem RmDelivers.ends {n : Nat} {bs : List Byte} {r : List Byte × Nat} {s t u : State} (h : RmDelivers n bs s t)
    (hends : RmEnds t r u) : RmEnds s (bs ++ r.1, n + r.2) u := by
  obtain ⟨w, hreads, rfl⟩ := hends
  exact ⟨w, h.toRmReads.trans hreads, by rw [h.res, h.posBefore, List.append_assoc]⟩

theorem ahead_of_rmReads {n : Nat} {s t : State} (h : RmReads n s t) : ahead t = (ahead s).drop n := by
  rw [ahead, ahead, drop_srcBytes, h.srcPos, h.srcLen, Nat.sub_sub]
  exact srcBytes_congr fun k _ => h.src _

/-! ### End of data (R127) -/

theorem endOfData_ends {s : State} (hphase : s.phase = .rmCount ∨ s.phase = .rmLit) : RmEnds s ([], 0) (endOfData s) := by
  have hentry : s.phase ≠ .rmEntry := by rcases hphase with hp | hp <;> simp [hp]
  have hend : endOfData s = rmEndOfData s := by rcases hphase with hp | hp <;> simp [endOfData, hp]
  refine ⟨s, rmReads_advance 0 s s.rmDec s.phase, ?_⟩
  rw [hend, rmEndOfData, if_neg fun h => hentry h.1, List.append_nil]

/-- A cut entry leaves its value byte read when that is there. -/
theorem endOfData_ends_of_entry {s : State} (hphase : s.phase = .rmEntry) :
    RmEnds s ([], min 1 (ahead s).length) (endOfData s) := by
  have hend : endOfData s = rmEndOfData s := by simp [endOfData, hphase]
  rw [hend, rmEndOfData, length_ahead]
  by_cases hvalue : s.srcPos + 1 ≤ s.srcLen
  · rw [if_pos ⟨hphase, hvalue⟩, Nat.min_eq_left (by omega)]
    exact ⟨_, rmReads_advance 1 s s.rmDec s.phase, by rw [List.append_nil]; rfl⟩
  · rw [if_neg fun h => hvalue h.2, Nat.min_eq_right (by omega), Nat.sub_eq_zero_of_le (by omega)]
    exact ⟨_, rmReads_advance 0 s s.rmDec s.phase, by rw [List.append_nil]; rfl⟩

/-! ### The Chunk in progress -/

/-- PATTERN and CHUNK are those of the entries `es` and the literals `lits`. -/
structure Assembles (es : List (Byte × Mask)) (lits : List Byte) (s : State) : Prop where
  /-- PATTERN is the OR of the masks. -/
  pattern : s.rmDec.pattern = patternOf es
  /-- CHUNK holds what has been placed. -/
  chunk : s.rmDec.chunk = chunkOf es lits

/-- A COUNT byte other than the terminator starts a chain (R121). -/
theorem decodeEnd_of_chain {s : State} {c : Byte} {bs : List Byte} (hphase : s.phase = .rmCount)
    (hc : c ≠ 0xFF#8) (hbs : ahead s = c :: bs) :
    ∃ u, decodeEnd s = decodeEnd (afterEntry u) ∧ RmDelivers 1 [] s u ∧ u.rmDec.left = c.toNat ∧
      Assembles [] [] u ∧ ahead u = bs := by
  have hdecode : decode .rmCount (ahead s) = .ok (.rmChain c, bs) := by rw [hbs, decode, if_neg hc]
  have hreads := rmDelivers_advance 1 s
    { s.rmDec with count := c, pattern := 0, chunk := emptyChunk, left := c.toNat, slot := 0 } s.phase rfl
  refine ⟨_, ?step, hreads, rfl, ⟨rfl, chunkOf_nil.symm⟩, ?bytes⟩
  case step => exact decodeEnd_of_decode_ahead (by simp [streamPosition, hphase]) hdecode
  case bytes => rw [ahead_of_rmReads hreads.toRmReads, hbs, List.drop_one, List.tail_cons]

/-- An entry joins PATTERN and CHUNK (R122). -/
theorem decodeEnd_of_entry {s : State} {es : List (Byte × Mask)} {v m0 m1 m2 m3 : Byte} {bs : List Byte}
    (h : Assembles es [] s) (hphase : s.phase = .rmEntry) (hbs : ahead s = v :: m0 :: m1 :: m2 :: m3 :: bs) :
    ∃ u, decodeEnd s = decodeEnd (afterEntry u) ∧ RmDelivers 5 [] s u ∧ u.rmDec.left = s.rmDec.left - 1 ∧
      Assembles (es ++ [(v, be32 m0 m1 m2 m3)]) [] u ∧ ahead u = bs := by
  have hdecode : decode .rmEntry (ahead s) = .ok (.rmEntry v (be32 m0 m1 m2 m3), bs) := by rw [hbs, decode]
  have hreads := rmDelivers_advance 5 s
    { s.rmDec with
      pattern := s.rmDec.pattern ||| be32 m0 m1 m2 m3
      chunk := placeFrom (be32 m0 m1 m2 m3) v 0 s.rmDec.chunk
      left := s.rmDec.left - 1 } s.phase rfl
  refine ⟨_, ?step, hreads, rfl, ⟨?pattern, ?chunk⟩, ?bytes⟩
  case step => exact decodeEnd_of_decode_ahead (by simp [streamPosition, hphase]) hdecode
  case pattern => rw [patternOf_append, ← h.pattern]
  case chunk => rw [← placeFrom_chunkOf, ← h.chunk]
  case bytes => rw [ahead_of_rmReads hreads.toRmReads, hbs]; rfl

/-- A literal fills the first slot that has none (R124). -/
theorem decodeEnd_of_lit {s : State} {es : List (Byte × Mask)} {lits : List Byte} {b : Byte} {bs : List Byte}
    (h : Assembles es lits s) (hphase : s.phase = .rmLit) (hslot : s.rmDec.slot < 32)
    (hfree : (patternOf es).getMsbD s.rmDec.slot = false)
    (hlits : lits.length = zerosBelow (patternOf es) s.rmDec.slot) (hbs : ahead s = b :: bs) :
    ∃ u, decodeEnd s = decodeEnd (toLiteral (s.rmDec.slot + 1) u) ∧ RmDelivers 1 [] s u ∧
      Assembles es (lits ++ [b]) u ∧ ahead u = bs := by
  have hdecode : decode .rmLit (ahead s) = .ok (.rmLit b, bs) := by rw [hbs, decode]
  have hreads := rmDelivers_advance 1 s { s.rmDec with chunk := s.rmDec.chunk.set s.rmDec.slot b } s.phase rfl
  refine ⟨_, ?step, hreads, ⟨h.pattern, ?chunk⟩, ?bytes⟩
  case step => exact decodeEnd_of_decode_ahead (by simp [streamPosition, hphase]) hdecode
  case chunk => rw [← set_chunkOf b hslot hfree hlits, ← h.chunk]
  case bytes => rw [ahead_of_rmReads hreads.toRmReads, hbs, List.drop_one, List.tail_cons]

/-! ### Literals (R73, R124, R125) -/

theorem toLiteral_rmLit {es : List (Byte × Mask)} {lits : List Byte} {s : State} {i : Nat} (h : Assembles es lits s)
    (hslot : nextSlot (patternOf es) i < 32) :
    (toLiteral i s).phase = .rmLit ∧ (toLiteral i s).rmDec.slot = nextSlot (patternOf es) i ∧
      RmDelivers 0 [] s (toLiteral i s) ∧ Assembles es lits (toLiteral i s) := by
  rw [← h.pattern] at hslot ⊢
  rw [toLiteral_of_lt hslot]
  exact ⟨rfl, rfl, rmDelivers_advance 0 s _ _ rfl, h.pattern, h.chunk⟩

theorem rmDelivers_completeChunk {es : List (Byte × Mask)} {lits : List Byte} {s : State} (h : Assembles es lits s) :
    RmDelivers 0 (chunkOf es lits) s (completeChunk s) :=
  ⟨rmReads_advance 0 s _ _, congrArg (s.rmDec.res ++ ·) h.chunk⟩

/-- With `m` literals missing: a stream that holds them completes the Chunk, a shorter one ends the decode. -/
theorem decodeEnd_toLiteral (m : Nat) {es : List (Byte × Mask)} {lits : List Byte} {s : State} {i : Nat}
    (h : Assembles es lits s) (hi : i ≤ 32) (hlits : lits.length = zerosBelow (patternOf es) i)
    (hm : lits.length + m = zerosBelow (patternOf es) 32) :
    ((ahead s).length < m → RmEnds s ([], (ahead s).length) (decodeEnd (toLiteral i s))) ∧
    (m ≤ (ahead s).length → ∃ u, decodeEnd (toLiteral i s) = decodeEnd u ∧ u.phase = .rmCount ∧
      RmDelivers m (chunkOf es (lits ++ (ahead s).take m)) s u) := by
  have hspec := nextSlot_spec (patternOf es) hi
  have hmissing := nextSlot_lt_iff (patternOf es) hi
  induction m generalizing lits s i with
  | zero =>
    have hfull : nextSlot s.rmDec.pattern i = 32 := by rw [h.pattern]; omega
    refine ⟨fun hshort => absurd hshort (Nat.not_lt_zero _), fun _ => ?_⟩
    rw [toLiteral_of_full hfull, List.take_zero, List.append_nil]
    exact ⟨_, rfl, rfl, rmDelivers_completeChunk h⟩
  | succ m ih =>
    have hslot : nextSlot (patternOf es) i < 32 := by omega
    obtain ⟨-, -, -, hfree⟩ := hspec
    obtain ⟨hphase, hts, hto, hass⟩ := toLiteral_rmLit h hslot
    have hahead : ahead (toLiteral i s) = ahead s := ahead_of_rmReads hto.toRmReads
    rw [← hahead]
    rcases hbs : ahead (toLiteral i s) with _ | ⟨b, bs⟩
    · refine ⟨fun _ => ?_, fun hlong => absurd hlong (Nat.not_succ_le_zero m)⟩
      rw [decodeEnd_of_short (p := .rmLit) (by simp [streamPosition, hphase]) (by rw [hbs]; exact Nat.one_pos)]
      exact hto.ends (endOfData_ends (.inr hphase))
    · have hzeros := zerosBelow_nextSlot (patternOf es) hi
      rw [← hts] at hslot hfree hzeros
      obtain ⟨u, hu, hlit, huass, hrest⟩ :=
        decodeEnd_of_lit hass hphase hslot (hfree hslot) (hlits.trans hzeros.symm) hbs
      have hnext : (lits ++ [b]).length = zerosBelow (patternOf es) ((toLiteral i s).rmDec.slot + 1) := by
        rw [zerosBelow_succ_of_free (hfree hslot), hzeros, ← hlits, List.length_append, List.length_singleton]
      have hmore : (lits ++ [b]).length + m = zerosBelow (patternOf es) 32 := by
        rw [List.length_append, List.length_singleton]
        omega
      have hle := Nat.succ_le_of_lt hslot
      obtain ⟨hshort, hlong⟩ := ih huass hle hnext hmore (nextSlot_spec _ hle) (nextSlot_lt_iff _ hle)
      rw [hrest] at hshort hlong
      rw [hu, List.length_cons]
      have hread := hto.trans hlit
      refine ⟨fun hlen => ?_, fun hlen => ?_⟩
      · have hends := hread.ends (hshort (Nat.lt_of_succ_lt_succ hlen))
        simpa [Nat.add_comm] using hends
      · obtain ⟨w, hw, hcount, hchunk⟩ := hlong (Nat.le_of_succ_le_succ hlen)
        have hall := hread.trans hchunk
        exact ⟨w, hw, hcount, by simpa [Nat.add_comm] using hall⟩

/-! ### Entries (R71, R120, R122) -/

theorem exists_entry_of_length {bs : List Byte} (h : 5 ≤ bs.length) :
    ∃ v m0 m1 m2 m3 rest, bs = v :: m0 :: m1 :: m2 :: m3 :: rest := by
  obtain _ | ⟨v, _ | ⟨m0, _ | ⟨m1, _ | ⟨m2, _ | ⟨m3, rest⟩⟩⟩⟩⟩ := bs
  case cons.cons.cons.cons.cons => exact ⟨v, m0, m1, m2, m3, rest, rfl⟩
  all_goals simp at h

theorem readEntries_of_short (c : Nat) {bs : List Byte} (h : bs.length < 5) :
    readEntries (c + 1) bs = ([], min 1 bs.length, none) := by
  obtain _ | ⟨v, _ | ⟨m0, _ | ⟨m1, _ | ⟨m2, _ | ⟨m3, rest⟩⟩⟩⟩⟩ := bs
  case cons.cons.cons.cons.cons => simp at h; omega
  all_goals simp [readEntries]

theorem afterEntry_rmEntry {es : List (Byte × Mask)} {s : State} {c : Nat} (h : Assembles es [] s)
    (hleft : s.rmDec.left = c + 1) :
    (afterEntry s).phase = .rmEntry ∧ (afterEntry s).rmDec.left = c + 1 ∧ RmDelivers 0 [] s (afterEntry s) ∧
      Assembles es [] (afterEntry s) := by
  rw [afterEntry_of_left_pos (hleft ▸ Nat.succ_ne_zero c)]
  exact ⟨rfl, hleft, rmDelivers_advance 0 s _ _ rfl, h.pattern, h.chunk⟩

/-- With `c` entries to come: a stream that holds them goes on with the literals, a shorter one ends the decode. -/
theorem decodeEnd_afterEntry (c : Nat) {es : List (Byte × Mask)} {s : State} (h : Assembles es [] s)
    (hleft : s.rmDec.left = c) {more : List (Byte × Mask)} {k : Nat} {o : Option (List Byte)}
    (hread : readEntries c (ahead s) = (more, k, o)) :
    (o = none → RmEnds s ([], k) (decodeEnd (afterEntry s))) ∧
    ∀ rest, o = some rest → ∃ u, decodeEnd (afterEntry s) = decodeEnd (toLiteral 0 u) ∧ RmDelivers k [] s u ∧
      Assembles (es ++ more) [] u ∧ ahead u = rest := by
  induction c generalizing es s more k o with
  | zero =>
    cases hread
    refine ⟨fun hnone => (nomatch hnone), fun rest hrest => ?_⟩
    rw [afterEntry_of_left_zero hleft, List.append_nil]
    exact ⟨s, rfl, rmDelivers_advance 0 s s.rmDec s.phase rfl, h, Option.some_inj.mp hrest⟩
  | succ c ih =>
    obtain ⟨hphase, htleft, hto, hass⟩ := afterEntry_rmEntry h hleft
    have hahead : ahead (afterEntry s) = ahead s := ahead_of_rmReads hto.toRmReads
    rw [← hahead] at hread
    rcases Nat.lt_or_ge (ahead (afterEntry s)).length 5 with hshort | hlong
    · rw [readEntries_of_short c hshort] at hread
      cases hread
      refine ⟨fun _ => ?_, fun rest hrest => nomatch hrest⟩
      rw [decodeEnd_of_short (p := .rmEntry) (by simp [streamPosition, hphase]) hshort]
      have hends := hto.ends (endOfData_ends_of_entry hphase)
      rwa [Nat.zero_add] at hends
    · obtain ⟨v, m0, m1, m2, m3, bs, hbs⟩ := exists_entry_of_length hlong
      obtain ⟨u, hu, hentry, huleft, huass, hrest⟩ := decodeEnd_of_entry hass hphase hbs
      rw [hbs, readEntries, ← hrest] at hread
      cases hread
      obtain ⟨hnone, hsome⟩ := ih huass (by rw [huleft, htleft, Nat.add_sub_cancel]) rfl
      have hreads := hto.trans hentry
      rw [hu]
      refine ⟨fun ho => ?_, fun rest ho => ?_⟩
      · have hends := hreads.ends (hnone ho)
        simpa using hends
      · obtain ⟨w, hw, hwreads, hwass, hwrest⟩ := hsome rest ho
        have hall := hreads.trans hwreads
        exact ⟨w, hw, by simpa using hall, by simpa using hwass, hwrest⟩

/-! ### Chains and the whole stream (R71, R120, R126) -/

theorem rmDecodeFuel_term (n : Nat) (bs : List Byte) : rmDecodeFuel (n + 1) (0xFF#8 :: bs) = ([], 1) := if_pos rfl

theorem rmDecodeFuel_of_cut_entry (n : Nat) {c : Byte} {bs : List Byte} {es : List (Byte × Mask)} {k : Nat}
    (hc : c ≠ 0xFF#8) (hread : readEntries c.toNat bs = (es, k, none)) :
    rmDecodeFuel (n + 1) (c :: bs) = ([], 1 + k) := by
  simp only [rmDecodeFuel, if_neg hc, hread]

theorem rmDecodeFuel_of_cut_literals (n : Nat) {c : Byte} {bs rest : List Byte} {es : List (Byte × Mask)} {k : Nat}
    (hc : c ≠ 0xFF#8) (hread : readEntries c.toNat bs = (es, k, some rest))
    (hrest : rest.length < zerosBelow (patternOf es) 32) :
    rmDecodeFuel (n + 1) (c :: bs) = ([], 1 + k + rest.length) := by
  simp only [rmDecodeFuel, if_neg hc, hread, if_pos hrest]

theorem rmDecodeFuel_of_chain (n : Nat) {c : Byte} {bs rest : List Byte} {es : List (Byte × Mask)} {k m : Nat}
    (hc : c ≠ 0xFF#8) (hread : readEntries c.toNat bs = (es, k, some rest)) (hm : zerosBelow (patternOf es) 32 = m)
    (hrest : m ≤ rest.length) :
    rmDecodeFuel (n + 1) (c :: bs) =
      (chunkOf es (rest.take m) ++ (rmDecodeFuel n (rest.drop m)).1, 1 + k + m + (rmDecodeFuel n (rest.drop m)).2) := by
  simp only [rmDecodeFuel, if_neg hc, hread, hm, if_neg (Nat.not_lt_of_le hrest)]

theorem decodeEnd_ends_of_nil {s : State} (hphase : s.phase = .rmCount) (hnil : ahead s = []) :
    RmEnds s ([], 0) (decodeEnd s) := by
  rw [decodeEnd_of_short (p := .rmCount) (by simp [streamPosition, hphase]) (by rw [hnil]; exact Nat.one_pos)]
  exact endOfData_ends (.inl hphase)

theorem decodeEnd_ends_of_term {s : State} {bs : List Byte} (hphase : s.phase = .rmCount)
    (hbs : ahead s = 0xFF#8 :: bs) : RmEnds s ([], 1) (decodeEnd s) := by
  have hstep : decodeEnd s = decodeEnd (rmTermState s) :=
    decodeEnd_of_decode_ahead (p := .rmCount) (i := .rmTerm) (rest := bs) (by simp [streamPosition, hphase])
      (by rw [hbs]; rfl)
  have hidle : (rmTermState s).phase = .idle := finishCommand_phase _ _ _
  rw [hstep, decodeEnd_of_idle hidle]
  exact ⟨advance 1 s, rmReads_advance 1 s s.rmDec s.phase, by rw [List.append_nil]; rfl⟩

/-- A chain: its entries, its literals, then the rest of the stream, of which `hnext` speaks. -/
theorem decodeEnd_ends_of_chain (n : Nat) {s : State} {c : Byte} {bs : List Byte} (hphase : s.phase = .rmCount)
    (hc : c ≠ 0xFF#8) (hbs : ahead s = c :: bs)
    (hnext : ∀ {v : State}, v.phase = .rmCount → (ahead v).length ≤ bs.length →
      RmEnds v (rmDecodeFuel n (ahead v)) (decodeEnd v)) :
    RmEnds s (rmDecodeFuel (n + 1) (c :: bs)) (decodeEnd s) := by
  obtain ⟨u, hu, hcount, huleft, huass, hubs⟩ := decodeEnd_of_chain hphase hc hbs
  rcases hread : readEntries c.toNat bs with ⟨es, k, _ | rest⟩
  all_goals
    obtain ⟨hcut, hwhole⟩ := decodeEnd_afterEntry c.toNat huass huleft (hubs.symm ▸ hread)
    rw [hu]
  · rw [rmDecodeFuel_of_cut_entry n hc hread]
    exact hcount.ends (hcut rfl)
  · obtain ⟨w, hw, hentries, hwass, hwrest⟩ := hwhole rest rfl
    generalize hm : zerosBelow (patternOf es) 32 = m
    obtain ⟨hshort, hlong⟩ := decodeEnd_toLiteral m hwass (Nat.zero_le 32) rfl ((Nat.zero_add m).trans hm.symm)
    rw [hwrest] at hshort hlong
    rw [hw]
    rcases Nat.lt_or_ge rest.length m with hlt | hge
    · rw [rmDecodeFuel_of_cut_literals n hc hread (hm ▸ hlt)]
      exact (hcount.trans hentries).ends (hshort hlt)
    · obtain ⟨v, hv, hvphase, hliterals⟩ := hlong hge
      have hvrest : ahead v = rest.drop m := by rw [ahead_of_rmReads hliterals.toRmReads, hwrest]
      have hvlen : (ahead v).length ≤ bs.length := by
        rw [ahead_of_rmReads (hentries.trans hliterals).toRmReads, hubs, List.length_drop]
        exact Nat.sub_le _ _
      rw [rmDecodeFuel_of_chain n hc hread hm hge, hv, ← hvrest]
      exact ((hcount.trans hentries).trans hliterals).ends (hnext hvphase hvlen)

/-- From a COUNT position on, the decode ends as the reference function says. -/
theorem decodeEnd_ends (n : Nat) {s : State} (hphase : s.phase = .rmCount) (hn : (ahead s).length ≤ n) :
    RmEnds s (rmDecodeFuel n (ahead s)) (decodeEnd s) := by
  induction n generalizing s with
  | zero =>
    have hnil : ahead s = [] := List.length_eq_zero_iff.mp (Nat.le_zero.mp hn)
    rw [hnil]
    exact decodeEnd_ends_of_nil hphase hnil
  | succ n ih =>
    rcases hbs : ahead s with _ | ⟨c, bs⟩
    · exact decodeEnd_ends_of_nil hphase hbs
    · by_cases hc : c = 0xFF#8
      · subst hc
        rw [rmDecodeFuel_term]
        exact decodeEnd_ends_of_term hphase hbs
      · rw [hbs] at hn
        exact decodeEnd_ends_of_chain n hphase hc hbs fun hvphase hvlen =>
          ih hvphase (hvlen.trans (Nat.le_of_succ_le_succ hn))

/-! ### The command (R206, R213, R228) -/

theorem beginDecode_of_rm {s : State} (h : engField s.engine = 1) :
    beginDecode s =
      { s with posBefore := s.srcPos, srcPos := s.srcStart, rmDec := RmDecoder.initial, phase := .rmCount } := if_pos h

/-- A Run/Mask DECODE starts at a COUNT position, with RES empty and the source range ahead. -/
theorem decodeStream_of_rm {s : State} (hrm : engField s.engine = 1) (hcap : s.srcLen ≤ s.params.srcCap)
    (hstart : s.srcStart ≤ s.srcLen) {r : List Byte × Nat}
    (hr : rmDecode (srcBytes s s.srcStart (s.srcLen - s.srcStart)) = r) :
    ∃ u, u.srcPos = s.srcStart + r.2 ∧ u.params = s.params ∧ u.hist = s.hist ∧
      decodeStream s = finishCommand r.1 s.srcPos u := by
  obtain ⟨b, hb⟩ : ∃ b, beginDecode s = b := ⟨_, rfl⟩
  have hend := decodeStream_eq_decodeEnd (by rw [hrm]; decide) hcap hstart
  rw [hb] at hend
  rw [beginDecode_of_rm hrm] at hb
  have hahead : ahead b = srcBytes s s.srcStart (s.srcLen - s.srcStart) := by
    subst hb
    exact srcBytes_congr fun _ _ => rfl
  have hends := decodeEnd_ends (ahead b).length (s := b) (by rw [← hb]) le_rfl
  rw [← rmDecode, hahead, hr, ← hend] at hends
  obtain ⟨u, hreads, hu⟩ := hends
  subst hb
  exact ⟨u, hreads.srcPos, hreads.params, hreads.hist, hu⟩

/-- Settles O45: the decode ends with what the reference function says, and either end of a command tells the host so. -/
theorem rmDecodeDeliversTheChunks : Obligations.RmDecodeDeliversTheChunks := by
  intro s hengine hcap hstart r
  obtain ⟨u, hpos, hparams, hhist, hu⟩ := decodeStream_of_rm (by rw [hengine]; rfl) hcap hstart (r := r) rfl
  have hkeeps := decodeStream_keepsInputs s
  refine ⟨decodeStream s, rfl, hkeeps.toCommandFrame, hkeeps.engine, ?hist, fun hfits => ?done, fun hover => ?failed⟩
  case hist => rw [hu, finishCommand_hist, hhist]
  case done =>
    obtain ⟨hdone, hsrc⟩ := finishCommand_done s.srcPos (hparams.symm ▸ hfits)
    rw [hu]
    exact ⟨hdone, hsrc.trans hpos⟩
  case failed =>
    rw [hu]
    exact finishCommand_failed s.srcPos (hparams.symm ▸ hover)

end Sys2Proof.Proofs
end

section
/-! The Run/Mask encoder's Occurrence Masks and ORDER as the spec states them (R103-R105). -/

namespace Sys2Proof.Proofs

open Sys2Proof.Machine

/-- Settles O48: bit 31 − i is MSB-first position `i`, which speaks of Chunk slot `i`. -/
theorem occurrenceMaskBits : Obligations.OccurrenceMaskBits := by
  intro chunk v hlen
  refine ⟨fun i hi => ?bits, rmMask_ones hlen v, fun w hne => rmMask_disjoint chunk hne.symm⟩
  rw [← mask_getMsbD _ hi, rmMask_getMsbD hlen, decide_eq_true_iff]

theorem orderStep_pairwise {chunk ord : List Byte} {b : Byte} {R : Byte → Byte → Prop} (hord : ord.Pairwise R)
    (hnew : isCandidate chunk b = true → b ∉ ord → ∀ a ∈ ord, R a b) : (orderStep chunk ord b).Pairwise R := by
  unfold orderStep
  split
  next h =>
    obtain ⟨hcand, hb⟩ : isCandidate chunk b = true ∧ b ∉ ord := by simpa using h
    exact List.pairwise_append.mpr ⟨hord, List.pairwise_singleton R b, fun a ha c hc =>
      List.mem_singleton.mp hc ▸ hnew hcand hb a ha⟩
  next => exact hord

/-- A Candidate that joins ORDER has not occurred before, so its first position is after those of all that have. -/
theorem foldl_orderStep_pairwise (chunk seen rest : List Byte) (hchunk : chunk = seen ++ rest) :
    (seen.foldl (orderStep chunk) []).Pairwise fun a b => chunk.idxOf a < chunk.idxOf b := by
  induction seen using List.reverseRecOn generalizing rest with
  | nil => exact List.Pairwise.nil
  | append_singleton seen b ih =>
    rw [List.append_assoc, List.singleton_append] at hchunk
    rw [List.foldl_append, List.foldl_cons, List.foldl_nil]
    refine orderStep_pairwise (ih _ hchunk) fun hcand hb a ha => ?_
    have hbseen : b ∉ seen := fun hmem => hb ((mem_foldl_orderStep ..).mpr (.inr ⟨hmem, hcand⟩))
    have haseen : a ∈ seen := by simpa using ((mem_foldl_orderStep ..).mp ha).imp_right And.left
    calc chunk.idxOf a = seen.idxOf a := by rw [hchunk, List.idxOf_append_of_mem haseen]
      _ < seen.length := List.idxOf_lt_length_of_mem haseen
      _ ≤ chunk.idxOf b := by rw [hchunk, List.idxOf_append_of_notMem hbseen]; exact Nat.le_add_right _ _

/-- Settles O49: the Chunk is scanned in order, and a Candidate joins ORDER where it occurs first. -/
theorem orderIsFirstOccurrenceOrder : Obligations.OrderIsFirstOccurrenceOrder := fun chunk =>
  ⟨rmOrder_nodup chunk, mem_rmOrder chunk, foldl_orderStep_pairwise chunk chunk [] (List.append_nil chunk).symm⟩

end Sys2Proof.Proofs
end

section
/-! ENCODE with the Run/Mask engine: the loop's result is the chains of the whole Chunks and the terminator, its length,
and what the host is told (R100, R101, R108-R110, R212, R228). -/

namespace Sys2Proof.Proofs

open Sys2Proof.Machine Sys2Proof.Reference

/-! ### The Chunks of a RawBlock (R101) -/

theorem length_chunks (raw : List Byte) : (chunks raw).length = raw.length / 32 := by simp [chunks]

theorem length_of_mem_chunks {raw chunk : List Byte} (h : chunk ∈ chunks raw) : chunk.length = 32 := by
  obtain ⟨k, hk, rfl⟩ := List.mem_map.mp h
  have hlt := List.mem_range.mp hk
  rw [List.length_take, List.length_drop]
  omega

theorem flatten_map_range_chunks (raw : List Byte) (n : Nat) :
    ((List.range n).map fun k => (raw.drop (32 * k)).take 32).flatten = raw.take (32 * n) := by
  induction n with
  | zero => rfl
  | succ n ih =>
    rw [List.range_succ, List.map_append, List.flatten_append, ih, Nat.mul_succ, List.take_add]
    simp

/-- The Chunks make up the RawBlock but for a tail too short for a Chunk. -/
theorem flatten_chunks (raw : List Byte) : (chunks raw).flatten = raw.take (32 * (raw.length / 32)) :=
  flatten_map_range_chunks raw _

/-! ### RM_ENCODE's loop and terminator (R100, R108) -/

/-- The loop appends the chains of the Chunks from IN on, as many as it has rounds. -/
theorem rmEncodeLoop_res (raw : List Byte) (n : Nat) (e : RmEncoder) (hn : e.inp + 32 * n ≤ raw.length) :
    (rmEncodeLoop raw n e).res =
      e.res ++ (List.range n).flatMap fun k => rmChainBytes ((raw.drop (e.inp + 32 * k)).take 32) := by
  induction n generalizing e with
  | zero => simp [rmEncodeLoop]
  | succ n ih =>
    have hmore : 32 ≤ raw.length - e.inp := by omega
    have hnext : (e.inp + 32) + 32 * n ≤ raw.length := by omega
    rw [rmEncodeLoop, if_pos hmore, ih (rmEncodeChunk raw e) hnext, List.range_succ_eq_map,
      List.flatMap_cons, List.flatMap_map]
    simp [rmEncodeChunk, Nat.mul_succ, Nat.add_assoc, Nat.add_comm 32]

theorem rmEncode_res (raw : List Byte) : (rmEncode raw).res = rmEncodeStream raw := by
  have hbody : (rmEncodeLoop raw (raw.length / 32) RmEncoder.initial).res = (chunks raw).flatMap rmChainBytes := by
    have hrounds : 0 + 32 * (raw.length / 32) ≤ raw.length := by omega
    rw [rmEncodeLoop_res raw _ RmEncoder.initial hrounds, chunks, List.flatMap_map]
    simp [RmEncoder.initial]
  rw [rmEncode, rmEncodeStream, ← hbody]

theorem rmTerminate_eq (n : Nat) : rmTerminate n = if n % 2 = 1 then [0xFF#8, 0xFF#8] else [0xFF#8] := by
  have hparity : (n + 1) % 2 = 0 ↔ n % 2 = 1 := by omega
  simp only [rmTerminate, hparity]

theorem length_rmTerminate (n : Nat) : (rmTerminate n).length = 1 + n % 2 := by
  rw [rmTerminate_eq]
  split
  next hodd => rw [hodd]; rfl
  next heven => rw [Nat.mod_two_ne_one.mp heven]; rfl

/-! ### The command (R212, R228) -/

theorem encodeCommand_of_rm {s : State} (hengine : s.engine = 1) (hcap : s.srcLen ≤ s.params.srcCap)
    (hstart : s.srcStart ≤ s.srcLen) : encodeCommand s = encodeRm s := by
  have hrm : engField s.engine = 1 := by rw [hengine]; rfl
  have hrange : badRange s = false := (badRange_eq_false_iff s).mpr ⟨hcap, hstart⟩
  simp [encodeCommand, hrm, hrange]

theorem encodeRm_eq_finishCommand (s : State) :
    encodeRm s = finishCommand (rmEncodeStream (rawBlock s)) s.srcPos
      { s with rmEnc := rmEncode (rawBlock s), srcPos := s.srcStart + 32 * ((rawBlock s).length / 32) } := by
  rw [encodeRm, rmEncode_res]

/-- Settles O43: the encoder's result is the reference stream, and either end of a command tells the host so. -/
theorem rmEncodeDeliversTheStream : Obligations.RmEncodeDeliversTheStream := by
  refine ⟨rmTerminate_eq, fun s hengine hcap hstart => ?_⟩
  have hkeeps := encodeCommand_keepsInputs s
  have hend := (encodeCommand_of_rm hengine hcap hstart).trans (encodeRm_eq_finishCommand s)
  refine ⟨encodeCommand s, rfl, hkeeps.toCommandFrame, hkeeps.engine, ?hist, fun hfits => ?done, fun hover => ?failed⟩
  case hist => rw [hend, finishCommand_hist]
  case done =>
    rw [hend]
    exact finishCommand_done s.srcPos hfits
  case failed =>
    rw [hend]
    exact finishCommand_failed s.srcPos hover

theorem stateField_ne_one_of_failed {err : BitVec 4} {pos : Nat} {t : State} (h : Failed err pos t) :
    stateField t.status ≠ 1 := by
  rw [h.state]
  decide

/-- An ENCODE that succeeded has had a good range, and OUT holds the stream. -/
theorem done_of_rmEncode_succeeded {s t : State} (hengine : s.engine = 1) (hexec : exec .cmdEncode s = .next t)
    (hok : stateField t.status = 1) :
    Done (rmEncodeStream (srcBytes s s.srcStart (s.srcLen - s.srcStart))) t := by
  cases hrange : badRange s
  case true =>
    have hrm : engField s.engine ≠ 0 := by rw [hengine]; decide
    have ht : encodeCommand s = t := Host.Outcome.next.inj hexec
    rw [encodeCommand, if_neg hrm, if_pos hrange] at ht
    exact absurd hok (stateField_ne_one_of_failed (ht ▸ failCommand_failed .badRange 0 s.srcPos s))
  case false =>
    obtain ⟨hcap, hstart⟩ := (badRange_eq_false_iff s).mp hrange
    obtain ⟨_, hstream⟩ := rmEncodeDeliversTheStream
    obtain ⟨u, hu, -, -, -, hdone, hfailed⟩ := hstream s hengine hcap hstart
    obtain rfl : t = u := Host.Outcome.next.inj (hexec.symm.trans hu)
    rcases Nat.lt_or_ge s.params.outCap
      (rmEncodeStream (srcBytes s s.srcStart (s.srcLen - s.srcStart))).length with hover | hfits
    · obtain ⟨hfail, -⟩ := hfailed hover
      exact absurd hok (stateField_ne_one_of_failed hfail)
    · exact (hdone hfits).1

/-! ### The stream's length (R108, R110) -/

/-- A byte value that is no Candidate goes to the literals (R103, R107). -/
def isLiteral (chunk : List Byte) (b : Byte) : Bool := decide (chunk.count b ≤ 5)

/-- The literals of a Chunk's chain (R107). -/
def chainLiterals (chunk : List Byte) : List Byte := chunk.filter (isLiteral chunk)

/-- The Chunk's bytes that the entries of its chain place (R106, R122). -/
def placedBytes (chunk : List Byte) : List Byte := chunk.filter fun b => !isLiteral chunk b

theorem rmChainBytes_eq {chunk : List Byte} (hlen : chunk.length = 32) :
    rmChainBytes chunk = BitVec.ofNat 8 (rmOrder chunk).length ::
      ((rmOrder chunk).flatMap (fun v => v :: bytes32 (rmMask chunk v)) ++ chainLiterals chunk) := by
  rw [rmChainBytes, rmLiterals_rmNonrepeat hlen]
  rfl

theorem length_chainLiterals_add_placedBytes (chunk : List Byte) :
    (chainLiterals chunk).length + (placedBytes chunk).length = chunk.length :=
  (chunk.length_eq_length_filter_add (isLiteral chunk)).symm

/-- A value that is placed at all is placed as often as it occurs, so no Candidate is lost without the literals. -/
theorem mem_rmOrder_placedBytes (chunk : List Byte) (v : Byte) :
    v ∈ rmOrder (placedBytes chunk) ↔ v ∈ rmOrder chunk := by
  rw [mem_rmOrder, mem_rmOrder]
  by_cases hv : 5 < chunk.count v
  case pos => rw [placedBytes, List.count_filter (p := fun b => !isLiteral chunk b) (by simp [isLiteral, hv])]
  case neg =>
    have hplaced : v ∉ placedBytes chunk := by simp [placedBytes, isLiteral, Nat.le_of_not_lt hv]
    simp [List.count_eq_zero_of_not_mem hplaced, hv]

/-- Each Candidate takes up at least 6 bytes of the Chunk beside the literals. -/
theorem six_mul_length_rmOrder_add_literals_le (chunk : List Byte) :
    6 * (rmOrder chunk).length + (chainLiterals chunk).length ≤ chunk.length := by
  have horder : (rmOrder (placedBytes chunk)).length = (rmOrder chunk).length :=
    ((List.perm_ext_iff_of_nodup (rmOrder_nodup _) (rmOrder_nodup _)).mpr (mem_rmOrder_placedBytes chunk)).length_eq
  have hsix := six_mul_length_rmOrder_le (placedBytes chunk)
  have hsplit := length_chainLiterals_add_placedBytes chunk
  omega

theorem length_rmChainBytes {chunk : List Byte} (hlen : chunk.length = 32) :
    (rmChainBytes chunk).length = 1 + 5 * (rmOrder chunk).length + (chainLiterals chunk).length := by
  rw [rmChainBytes_eq hlen]
  simp [bytes32, List.length_flatMap]
  omega

/-- A chain is at most one byte longer than its Chunk: an entry of 5 bytes stands for at least 6 (R110). -/
theorem length_rmChainBytes_le {chunk : List Byte} (hlen : chunk.length = 32) : (rmChainBytes chunk).length ≤ 33 := by
  have hsix := six_mul_length_rmOrder_add_literals_le chunk
  rw [length_rmChainBytes hlen]
  omega

theorem length_flatMap_rmChainBytes_le (raw : List Byte) :
    ((chunks raw).flatMap rmChainBytes).length ≤ 33 * (raw.length / 32) := by
  have hsum : ∀ n ∈ (chunks raw).map fun chunk => (rmChainBytes chunk).length, n ≤ 33 := by
    intro n hn
    obtain ⟨chunk, hchunk, rfl⟩ := List.mem_map.mp hn
    exact length_rmChainBytes_le (length_of_mem_chunks hchunk)
  have htotal := List.sum_le_card_nsmul _ 33 hsum
  rw [List.length_map, length_chunks, smul_eq_mul] at htotal
  rw [List.length_flatMap, Nat.mul_comm]
  exact htotal

theorem length_rmEncodeStream (raw : List Byte) :
    (rmEncodeStream raw).length =
      ((chunks raw).flatMap rmChainBytes).length + 1 + ((chunks raw).flatMap rmChainBytes).length % 2 := by
  rw [rmEncodeStream, List.length_append, length_rmTerminate, Nat.add_assoc]

/-- Settles O51: the terminator makes the length odd, and a chain has at most 33 bytes. -/
theorem rmStreamLengthIsOdd : Obligations.RmStreamLengthIsOdd := by
  intro s t hengine hexec hok
  have hbound := length_flatMap_rmChainBytes_le (srcBytes s s.srcStart (s.srcLen - s.srcStart))
  rw [length_srcBytes] at hbound
  rw [(done_of_rmEncode_succeeded hengine hexec hok).outLen, length_rmEncodeStream]
  omega

end Sys2Proof.Proofs
end

section
/-! The Run/Mask round trip: the decoder's grammar reads an encoded chain as its Chunk, hence the encoder's stream as
the Chunks (R71, R73, R106, R107, R110). -/

namespace Sys2Proof.Proofs

open Sys2Proof.Machine Sys2Proof.Reference

/-! ### An encoded chain stands for its Chunk (R71, R73, R106, R107) -/

/-- The entries of a Chunk's chain (R106). -/
def chainEntries (chunk : List Byte) : List (Byte × Mask) := (rmOrder chunk).map fun v => (v, rmMask chunk v)

theorem patternOf_chainEntries (chunk : List Byte) : patternOf (chainEntries chunk) = rmNonrepeat chunk := by
  rw [patternOf, chainEntries, List.foldl_map, rmNonrepeat]

/-- The entries leave free exactly the slots of the literals. -/
theorem rmNonrepeat_getMsbD_eq_not_isLiteral {chunk : List Byte} (hlen : chunk.length = 32) {i : Nat}
    (hi : i < chunk.length) : (rmNonrepeat chunk).getMsbD i = !isLiteral chunk chunk[i] := by
  rw [rmNonrepeat_getMsbD hlen (List.getElem?_eq_getElem hi), isLiteral, ← decide_not]
  simp

/-- The slots below `i` that the entries leave free are as many as the literals among the first `i` bytes. -/
theorem zerosBelow_rmNonrepeat {chunk : List Byte} (hlen : chunk.length = 32) {i : Nat} (hi : i ≤ 32) :
    zerosBelow (rmNonrepeat chunk) i = ((chunk.take i).filter (isLiteral chunk)).length := by
  induction i with
  | zero => rfl
  | succ i ih =>
    have hslot : i < chunk.length := by omega
    rw [zerosBelow_succ, ih (by omega), rmNonrepeat_getMsbD_eq_not_isLiteral hlen hslot,
      List.take_succ_eq_append_getElem hslot, List.filter_append, List.length_append]
    cases hlit : isLiteral chunk chunk[i] <;> simp [hlit]

theorem zerosBelow_chainEntries {chunk : List Byte} (hlen : chunk.length = 32) :
    zerosBelow (patternOf (chainEntries chunk)) 32 = (chainLiterals chunk).length := by
  rw [patternOf_chainEntries, zerosBelow_rmNonrepeat hlen le_rfl, ← hlen, List.take_length, chainLiterals]

theorem slotByte_of_entries {es : List (Byte × Mask)} {b : Byte} {i : Nat} (lits : List Byte)
    (hcovered : (patternOf es).getMsbD i = true) (hvalue : ∀ e ∈ es, e.2.getMsbD i = true → e.1 = b) :
    slotByte es lits i = b := by
  have hsome : (es.reverse.find? fun e => e.2.getMsbD i).isSome = true := by
    rw [patternOf_getMsbD, List.any_eq_true] at hcovered
    simpa [List.find?_isSome] using hcovered
  obtain ⟨e, he⟩ := Option.isSome_iff_exists.mp hsome
  have hmask : e.2.getMsbD i = true := List.find?_some (p := fun e : Byte × Mask => e.2.getMsbD i) he
  rw [slotByte, he]
  exact hvalue e (List.mem_reverse.mp (List.mem_of_find?_eq_some he)) hmask

/-- A slot holds its Chunk byte: a Candidate by the one mask that covers the slot, any other byte as the literal whose
number is the count of the literals before it. -/
theorem slotByte_chain {chunk : List Byte} (hlen : chunk.length = 32) {i : Nat} (hi : i < chunk.length) :
    slotByte (chainEntries chunk) (chainLiterals chunk) i = chunk[i] := by
  have hpattern : (patternOf (chainEntries chunk)).getMsbD i = !isLiteral chunk chunk[i] := by
    rw [patternOf_chainEntries, rmNonrepeat_getMsbD_eq_not_isLiteral hlen hi]
  cases hlit : isLiteral chunk chunk[i]
  case false =>
    refine slotByte_of_entries _ (by simp [hpattern, hlit]) fun e he hmask => ?_
    obtain ⟨v, -, rfl⟩ := List.mem_map.mp he
    rw [rmMask_getMsbD hlen, decide_eq_true_iff, List.getElem?_eq_getElem hi] at hmask
    exact (Option.some_inj.mp hmask).symm
  case true =>
    have hsplit : chainLiterals chunk = (chunk.take i).filter (isLiteral chunk) ++
        chunk[i] :: (chunk.drop (i + 1)).filter (isLiteral chunk) := by
      rw [← List.filter_cons_of_pos hlit, ← List.filter_append, List.getElem_cons_drop, List.take_append_drop,
        chainLiterals]
    rw [slotByte_of_free _ (by simp [hpattern, hlit]), patternOf_chainEntries, zerosBelow_rmNonrepeat hlen (by omega),
      hsplit]
    simp

theorem chunkOf_chain {chunk : List Byte} (hlen : chunk.length = 32) :
    chunkOf (chainEntries chunk) (chainLiterals chunk) = chunk := by
  apply List.ext_getElem?
  intro i
  rw [chunkOf_getElem?]
  by_cases hi : i < 32
  · rw [if_pos hi, slotByte_chain hlen (hlen.symm ▸ hi), List.getElem?_eq_getElem]
  · rw [if_neg hi, List.getElem?_eq_none (by omega)]

/-! ### The whole stream (R110) -/

/-- The grammar reads an encoded chain as its Chunk and goes on with what follows. -/
theorem rmDecodeFuel_rmChainBytes (n : Nat) {chunk : List Byte} (hlen : chunk.length = 32) (rest : List Byte) :
    (rmDecodeFuel (n + 1) (rmChainBytes chunk ++ rest)).1 = chunk ++ (rmDecodeFuel n rest).1 := by
  have hfive := six_mul_length_rmOrder_le chunk
  have hcount : (BitVec.ofNat 8 (rmOrder chunk).length).toNat = (rmOrder chunk).length :=
    Nat.mod_eq_of_lt (by omega)
  have hterm : BitVec.ofNat 8 (rmOrder chunk).length ≠ 0xFF#8 := fun h => by
    have heq := congrArg BitVec.toNat h
    rw [hcount, BitVec.toNat_ofNat] at heq
    omega
  have hread := readEntries_flatMap (rmMask chunk) (rmOrder chunk) (chainLiterals chunk ++ rest)
  rw [← chainEntries, ← hcount] at hread
  rw [rmChainBytes_eq hlen, List.cons_append, List.append_assoc,
    rmDecodeFuel_of_chain n hterm hread (zerosBelow_chainEntries hlen) (by simp), List.take_left, List.drop_left,
    chunkOf_chain hlen]

theorem rmDecodeFuel_chains {n : Nat} {cs : List (List Byte)} (hlen : ∀ chunk ∈ cs, chunk.length = 32)
    (hn : cs.length < n) (rest : List Byte) :
    (rmDecodeFuel n (cs.flatMap rmChainBytes ++ 0xFF#8 :: rest)).1 = cs.flatten := by
  induction cs generalizing n with
  | nil =>
    obtain ⟨m, rfl⟩ := Nat.exists_eq_succ_of_ne_zero (Nat.ne_of_gt hn)
    rw [List.flatMap_nil, List.nil_append, rmDecodeFuel_term, List.flatten_nil]
  | cons chunk cs ih =>
    obtain ⟨hchunk, hcs⟩ := List.forall_mem_cons.mp hlen
    obtain ⟨m, rfl⟩ := Nat.exists_eq_succ_of_ne_zero (Nat.ne_zero_of_lt hn)
    rw [List.flatMap_cons, List.append_assoc, rmDecodeFuel_rmChainBytes m hchunk, ih hcs (Nat.lt_of_succ_lt_succ hn),
      List.flatten_cons]

theorem length_le_length_flatMap_rmChainBytes (cs : List (List Byte)) :
    cs.length ≤ (cs.flatMap rmChainBytes).length := by
  induction cs with
  | nil => exact le_rfl
  | cons chunk cs ih =>
    simp only [List.flatMap_cons, List.length_append, List.length_cons, rmChainBytes] at ih ⊢
    omega

/-- Decoding the encoder's stream gives the whole Chunks back. -/
theorem rmDecode_rmEncodeStream (raw : List Byte) :
    (rmDecode (rmEncodeStream raw)).1 = raw.take (32 * (raw.length / 32)) := by
  obtain ⟨rest, hrest⟩ : ∃ rest, rmTerminate ((chunks raw).flatMap rmChainBytes).length = 0xFF#8 :: rest := by
    rw [rmTerminate]
    split <;> exact ⟨_, rfl⟩
  have hstream : rmEncodeStream raw = (chunks raw).flatMap rmChainBytes ++ 0xFF#8 :: rest := by
    rw [rmEncodeStream, hrest]
  have hfuel := length_le_length_flatMap_rmChainBytes (chunks raw)
  have hlen : (chunks raw).length < (rmEncodeStream raw).length := by
    rw [length_rmEncodeStream]
    omega
  rw [hstream] at hlen ⊢
  rw [rmDecode, rmDecodeFuel_chains (fun _ => length_of_mem_chunks) hlen, flatten_chunks]

/-- Settles O52: the bytes DECODE reads are the encoder's stream, and the grammar reads that as the whole Chunks. -/
theorem rmDecodeOfEncodeIsTheRawBlock : Obligations.RmDecodeOfEncodeIsTheRawBlock := by
  intro s t u hengine hexec hok huengine hulen hucap hsrc raw hfits
  have hencoded : Done (rmEncodeStream raw) t := done_of_rmEncode_succeeded hengine hexec hok
  have hstream : srcBytes u u.srcStart (u.srcLen - u.srcStart) = rmEncodeStream raw := by
    rw [hulen, Nat.add_sub_cancel_left, hsrc, hencoded.outLen, hencoded.out]
  obtain ⟨w, hw, -, -, -, hdone, -⟩ :=
    rmDecodeDeliversTheChunks u huengine hucap (hulen ▸ Nat.le_add_right _ _)
  rw [hstream, rmDecode_rmEncodeStream] at hdone
  exact ⟨w, hw, (hdone ((List.length_take_le _ _).trans hfits)).1⟩

end Sys2Proof.Proofs
end

section
/-! The Run/Mask decoder's entries, and its two ends: the terminator and end of data (R122, R126, R127, R228). -/

namespace Sys2Proof.Proofs

open Sys2Proof.Machine Sys2Proof.Reference

/-! ### RM.ENTRY (R122) -/

@[simp] theorem afterEntry_rmDec_pattern (s : State) : (afterEntry s).rmDec.pattern = s.rmDec.pattern := by
  rcases afterEntry_cases s with ⟨-, heq⟩ | heq | heq <;> rw [heq]
  · exact toLiteral_rmDec_pattern 0 s
  · rfl

@[simp] theorem afterEntry_rmDec_chunk (s : State) : (afterEntry s).rmDec.chunk = s.rmDec.chunk := by
  rcases afterEntry_cases s with ⟨-, heq⟩ | heq | heq <;> rw [heq]
  · exact toLiteral_rmDec_chunk 0 s
  · rfl

@[simp] theorem afterEntry_rmDec_count (s : State) : (afterEntry s).rmDec.count = s.rmDec.count := by
  rcases afterEntry_cases s with ⟨-, heq⟩ | heq | heq <;> rw [heq]
  · exact toLiteral_rmDec_count 0 s
  · rfl

@[simp] theorem rmEntryState_rmDec_pattern (v : Byte) (m : Mask) (s : State) :
    (rmEntryState v m s).rmDec.pattern = s.rmDec.pattern ||| m := by simp [rmEntryState]

@[simp] theorem rmEntryState_rmDec_chunk (v : Byte) (m : Mask) (s : State) :
    (rmEntryState v m s).rmDec.chunk = placeFrom m v 0 s.rmDec.chunk := by simp [rmEntryState]

@[simp] theorem rmEntryState_rmDec_count (v : Byte) (m : Mask) (s : State) :
    (rmEntryState v m s).rmDec.count = s.rmDec.count := by simp [rmEntryState]

/-- No slot is left for a literal exactly when PATTERN is all ones (R73, R123). -/
theorem nextSlot_zero_eq_iff (p : Mask) : nextSlot p 0 = 32 ↔ p = 0xFFFFFFFF#32 := by
  have hones : 0xFFFFFFFF#32 = BitVec.allOnes 32 := by decide
  rw [hones]
  constructor
  · intro hfull
    obtain ⟨-, -, hcovered, -⟩ := nextSlot_spec p (Nat.zero_le 32)
    refine BitVec.eq_of_getMsbD_eq fun i hi => ?_
    rw [hcovered i (Nat.zero_le i) (hfull ▸ hi), BitVec.getMsbD_allOnes, decide_eq_true hi]
  · rintro rfl
    exact nextSlot_of_full (Nat.zero_le 32) fun j _ hj => by rw [BitVec.getMsbD_allOnes, decide_eq_true hj]

theorem rmEntryState_of_more (v : Byte) (m : Mask) {s : State} (hleft : 1 < s.rmDec.left) :
    (rmEntryState v m s).phase = .rmEntry ∧ (rmEntryState v m s).rmDec.left = s.rmDec.left - 1 ∧
      (rmEntryState v m s).rmDec.res = s.rmDec.res := by
  rw [rmEntryState, afterEntry_of_left_pos]
  · exact ⟨rfl, rfl, rfl⟩
  · exact Nat.sub_ne_zero_of_lt hleft

theorem rmEntryState_of_last_full (v : Byte) {m : Mask} {s : State} (hleft : s.rmDec.left = 1)
    (hslot : nextSlot (s.rmDec.pattern ||| m) 0 = 32) :
    (rmEntryState v m s).phase = .rmCount ∧
      (rmEntryState v m s).rmDec.res = s.rmDec.res ++ (rmEntryState v m s).rmDec.chunk := by
  rw [rmEntryState, afterEntry_of_left_zero, toLiteral_of_full]
  · exact ⟨rfl, rfl⟩
  · exact hslot
  · exact Nat.sub_eq_zero_of_le hleft.le

theorem rmEntryState_of_last_lt (v : Byte) {m : Mask} {s : State} (hleft : s.rmDec.left = 1)
    (hslot : nextSlot (s.rmDec.pattern ||| m) 0 < 32) :
    (rmEntryState v m s).phase = .rmLit ∧ (rmEntryState v m s).rmDec.res = s.rmDec.res ∧
      (rmEntryState v m s).rmDec.slot = nextSlot (s.rmDec.pattern ||| m) 0 := by
  rw [rmEntryState, afterEntry_of_left_zero, toLiteral_of_lt]
  · exact ⟨rfl, rfl, rfl⟩
  · exact hslot
  · exact Nat.sub_eq_zero_of_le hleft.le

/-- Settles O29: what follows depends on the entries left, and after the last on the slots PATTERN leaves free. -/
theorem rmEntryPlacesItsValue : Obligations.RmEntryPlacesItsValue := by
  intro v m s hlen
  have hreads := rmReads_rmEntryState v m s
  have hpattern := rmEntryState_rmDec_pattern v m s
  refine ⟨rmEntryState v m s, rfl, hreads.srcPos, hpattern, fun i hi => ?chunk, rmEntryState_of_more v m,
    fun hleft hfull => ?complete, fun hleft hfree => ?literal, hreads.toFrame, hreads.hist, hreads.rmEnc, hreads.swEnc,
    hreads.swDec, rmEntryState_rmDec_count v m s, hreads.posBefore⟩
  case chunk =>
    have hslot : s.rmDec.chunk[i]? = some s.rmDec.chunk[i] := List.getElem?_eq_getElem (hlen ▸ hi)
    rw [rmEntryState_rmDec_chunk, getElem?_placeFrom, Nat.zero_add, mask_getMsbD m hi, hslot, Option.map_some,
      apply_ite some]
  case complete =>
    rw [hpattern] at hfull
    exact rmEntryState_of_last_full v hleft ((nextSlot_zero_eq_iff _).mpr hfull)
  case literal =>
    rw [hpattern] at hfree
    obtain ⟨-, hle, hcovered, hslotfree⟩ := nextSlot_spec (s.rmDec.pattern ||| m) (Nat.zero_le 32)
    have hlt := hle.lt_of_ne (mt (nextSlot_zero_eq_iff _).mp hfree)
    obtain ⟨hphase, hres, hslot⟩ := rmEntryState_of_last_lt v hleft hlt
    rw [hslot, hpattern]
    refine ⟨hphase, hres, hlt, (mask_getMsbD _ hlt).symm.trans (hslotfree hlt), fun j hj => ?_⟩
    exact (mask_getMsbD _ (hj.trans hlt)).symm.trans (hcovered j (Nat.zero_le j) hj)

/-! ### The ends of a Run/Mask decode (R126, R127, R228) -/

/-- Settles O31: the two ends of a command, with SRC_POS past the terminator. -/
theorem rmTermEndsTheDecode : Obligations.RmTermEndsTheDecode := by
  intro s
  have hkeeps : KeepsInputs s (rmTermState s) := elementEffect_keepsInputs .rmTerm s
  have hhist : (rmTermState s).hist = s.hist := finishCommand_hist _ _ _
  refine ⟨fun hfits => ?done, fun hover => ?failed⟩
  case done =>
    obtain ⟨hdone, hsrc⟩ := finishCommand_done (s := advance 1 s) s.posBefore hfits
    exact ⟨rmTermState s, rfl, hdone, hsrc, hkeeps.toCommandFrame, hkeeps.engine, hhist⟩
  case failed =>
    obtain ⟨hfailed, hsrc⟩ := finishCommand_failed (s := advance 1 s) s.posBefore hover
    exact ⟨rmTermState s, rfl, hfailed, hsrc, hkeeps.toCommandFrame, hkeeps.engine, hhist⟩

/-- End of data delivers RES, with SRC_POS at the failed read. -/
theorem rmEndOfData_eq_finishCommand (s : State) :
    ∃ u, u.srcPos = (if s.phase = .rmEntry ∧ s.srcPos + 1 ≤ s.srcLen then s.srcPos + 1 else s.srcPos) ∧
      u.params = s.params ∧ u.hist = s.hist ∧ rmEndOfData s = finishCommand s.rmDec.res s.posBefore u := by
  refine ⟨_, ?_, ?_, ?_, rfl⟩ <;> split <;> rfl

theorem step_of_rm_end {s : State} {p : Position} (hport : s.port = none) (hp : streamPosition s = some p)
    (hrm : p = .rmCount ∨ p = .rmEntry ∨ p = .rmLit) (hend : s.srcLen < s.srcPos + p.width) :
    step s = .next (rmEndOfData s) := by
  have hcut : ¬ s.srcPos + p.width ≤ s.srcLen := Nat.not_le_of_lt hend
  have hnone : elementAt p s = none :=
    elementAt_of_short (Nat.lt_of_not_le (mt (srcPos_add_width_le_iff p s).mpr hcut))
  have hphase := phase_of_streamPosition hp
  rw [step_of_end hport hp hnone]
  rcases hrm with rfl | rfl | rfl <;> rw [endOfData, hphase] <;> rfl

/-- Settles O11: at each of the three positions the failed read ends the command. -/
theorem rmEndOfDataIsATerminator : Obligations.RmEndOfDataIsATerminator := by
  intro s hport hcut
  have hstep : step s = .next (rmEndOfData s) := by
    rcases hcut with ⟨hphase | hphase, hend⟩ | ⟨hphase, hend⟩
    · exact step_of_rm_end hport (p := .rmCount) (by rw [streamPosition, hphase]) (.inl rfl) hend
    · exact step_of_rm_end hport (p := .rmLit) (by rw [streamPosition, hphase]) (.inr (.inr rfl)) hend
    · exact step_of_rm_end hport (p := .rmEntry) (by rw [streamPosition, hphase]) (.inr (.inl rfl)) hend
  have hkeeps := rmEndOfData_keepsInputs s
  obtain ⟨u, hpos, hparams, hhist, heq⟩ := rmEndOfData_eq_finishCommand s
  refine ⟨rmEndOfData s, hstep, hkeeps.toCommandFrame, hkeeps.engine, ?hist, fun hfits => ?done,
    fun hover => ?failed⟩
  case hist => rw [heq, finishCommand_hist, hhist]
  case done =>
    obtain ⟨hdone, hsrc⟩ := finishCommand_done s.posBefore (hparams.symm ▸ hfits)
    rw [heq]
    exact ⟨hdone, hsrc.trans hpos⟩
  case failed =>
    rw [heq]
    exact finishCommand_failed s.posBefore (hparams.symm ▸ hover)

end Sys2Proof.Proofs
end

section
/-! A Run/Mask DECODE delivers whole Chunks, whatever the stream holds (R131, R132). -/

namespace Sys2Proof.Proofs

open Sys2Proof.Machine Sys2Proof.Reference

@[simp] theorem length_chunkOf (es : List (Byte × Mask)) (lits : List Byte) : (chunkOf es lits).length = 32 := by
  simp [chunkOf]

/-- Every chain read to its end adds one Chunk, and what cuts a chain adds nothing. -/
theorem length_rmDecodeFuel_mod (n : Nat) (bs : List Byte) : (rmDecodeFuel n bs).1.length % 32 = 0 := by
  induction n generalizing bs with
  | zero => rfl
  | succ n ih =>
    cases bs with
    | nil => rfl
    | cons c bs =>
      by_cases hc : c = 0xFF#8
      · rw [hc, rmDecodeFuel_term]
        rfl
      · obtain ⟨⟨es, k, _ | rest⟩, hread⟩ : ∃ r, readEntries c.toNat bs = r := ⟨_, rfl⟩
        · rw [rmDecodeFuel_of_cut_entry n hc hread]
          rfl
        · rcases Nat.lt_or_ge rest.length (zerosBelow (patternOf es) 32) with hcut | hrest
          · rw [rmDecodeFuel_of_cut_literals n hc hread hcut]
            rfl
          · rw [rmDecodeFuel_of_chain n hc hread rfl hrest, List.length_append, length_chunkOf, Nat.add_mod_left]
            exact ih _

theorem length_rmDecode_mod (bs : List Byte) : (rmDecode bs).1.length % 32 = 0 := length_rmDecodeFuel_mod _ bs

theorem finishCommand_status_outLen (res : List Byte) (before : Nat) (s : State) :
    (finishCommand res before s).status = 0x01 ∧ (finishCommand res before s).outLen = res.length ∨
      (finishCommand res before s).status = 0x72 ∧ (finishCommand res before s).outLen = 0 := by
  rcases Nat.lt_or_ge s.params.outCap res.length with hover | hfits
  · rw [finishCommand_of_lt before hover]
    exact .inr ⟨(by decide : statusError .outputOverflow = 0x72), rfl⟩
  · rw [finishCommand_of_le before hfits]
    exact .inl ⟨statusDone_eq, rfl⟩

/-- Settles O47: the DECODE delivers what the grammar reads from its bytes, unless that does not fit. -/
theorem rmDecodeNeverFailsOnContent : Obligations.RmDecodeNeverFailsOnContent := by
  intro s t hengine hcap hstart hexec
  obtain rfl : decodeStream s = t := Host.Outcome.next.inj hexec
  obtain ⟨u, -, -, -, hend⟩ := decodeStream_of_rm (by rw [hengine]; rfl) hcap hstart rfl
  have hwhole := length_rmDecode_mod (srcBytes s s.srcStart (s.srcLen - s.srcStart))
  rw [hend]
  rcases finishCommand_status_outLen _ s.srcPos u with ⟨hstatus, hlen⟩ | ⟨hstatus, hlen⟩
  · exact ⟨.inl hstatus, by rw [hlen, hwhole]⟩
  · exact ⟨.inr hstatus, by rw [hlen]⟩

end Sys2Proof.Proofs
end

section
/-! The History Window: the circular FIFO that pushes make of it, and a byte-by-byte copy as Dview of the window before it
(R141-R148). -/

namespace Sys2Proof.Proofs

open Sys2Proof.Machine

/-! ### The port operations (R141, R142) -/

/-- Settles O23: nothing is listed after a seed, so every position reads as the fill byte. -/
theorem histSeedFillsTheWindow : Obligations.HistSeedFillsTheWindow :=
  fun f c s => ⟨histSeedState f c s, rfl, History.read_seed f c, rfl, rfl⟩

/-- Settles O24: the window's read-after-push rule at an address below 4096. -/
theorem histPushWritesAtTheCursor : Obligations.HistPushWritesAtTheCursor := by
  intro b s hw
  refine ⟨histPushState b s, rfl, fun a ha => ?_, s.hist.push_pos_toNat b, rfl⟩
  rw [histPushState_hist, s.hist.read_push b a hw, Nat.mod_eq_of_lt ha]

/-! ### The window as a circular FIFO (R146) -/

/-- The last of several pushes stands where the cursor was before it; every other position reads as before it. -/
theorem read_pushAll_concat {h : History} (bs : List Byte) (b : Byte) (x : Nat) (hw : h.wf = true) :
    (h.pushAll (bs ++ [b])).read x =
      if x % 4096 = (h.pos.toNat + bs.length) % 4096 then b else (h.pushAll bs).read x := by
  rw [h.pushAll_append, History.pushAll_cons, History.pushAll_nil, History.read_push _ b x (h.wf_pushAll bs hw),
    h.pushAll_pos_toNat]

/-- A pushed byte stands at its position until 4096 more are pushed. -/
theorem read_pushAll_of_pushed {h : History} (hw : h.wf = true) {bs : List Byte} {i : Nat} (hi : i < bs.length)
    (hlast : bs.length ≤ i + 4096) : (h.pushAll bs).read (h.pos.toNat + i) = bs[i] := by
  induction bs using List.reverseRecOn with
  | nil => exact absurd hi (Nat.not_lt_zero i)
  | append_singleton bs b ih =>
    rw [read_pushAll_concat bs b _ hw]
    rw [List.length_append, List.length_singleton] at hi hlast
    rcases Nat.lt_or_ge i bs.length with hbefore | hge
    · rw [if_neg (by omega), ih hbefore (by omega), List.getElem_append_left hbefore]
    · obtain rfl : i = bs.length := by omega
      rw [if_pos rfl, List.getElem_concat_length rfl]

/-- Pushes leave a position alone that the cursor does not pass. -/
theorem read_pushAll_of_not_pushed {h : History} (hw : h.wf = true) {bs : List Byte} {x : Nat}
    (hx : ∀ i, i < bs.length → (h.pos.toNat + i) % 4096 ≠ x % 4096) : (h.pushAll bs).read x = h.read x := by
  induction bs using List.reverseRecOn with
  | nil => rfl
  | append_singleton bs b ih =>
    rw [List.length_append, List.length_singleton] at hx
    have hlast := hx bs.length (Nat.lt_succ_self _)
    rw [read_pushAll_concat bs b x hw, if_neg hlast.symm, ih fun i hi => hx i (Nat.lt_succ_of_lt hi)]

/-- Settles O26: the byte pushed `j` pushes before the last is push number `k - 1 - j`, and each push passes the position
of one of the last 4096. -/
theorem windowIsACircularFifo : Obligations.WindowIsACircularFifo := by
  intro f c bs
  have hw := History.wf_seed f c
  refine ⟨History.pushAll_pos_toNat _ bs, fun j hj hj4096 => ?pushed, fun a ha hother => ?fill⟩
  case pushed =>
    have hi : bs.length - 1 - j < bs.length := by omega
    rw [List.getElem?_eq_getElem hi, ← read_pushAll_of_pushed hw hi (by omega), History.seed_pos]
  case fill =>
    refine read_pushAll_of_not_pushed hw fun i hi => ?_
    have hlast := hother ((bs.length - 1 - i) % 4096) (by omega) (by omega)
    rw [History.seed_pos, Nat.mod_eq_of_lt ha]
    omega

/-! ### Copies (R147, R148) -/

/-- Dview repeats with the distance as its period. -/
theorem dview_sub_distance {h : History} {p : WinPos} {k : Nat} (hle : h.distance p ≤ k) :
    h.dview p (k - h.distance p) = h.dview p k := by
  unfold History.dview
  dsimp only
  rcases Nat.eq_zero_or_pos (h.distance p) with hzero | hpos
  · rw [hzero, Nat.sub_zero]
  · rw [if_neg hpos.ne', if_neg hpos.ne', Nat.mod_eq_sub_mod hle]

/-- Before the copy reaches what it has pushed, and throughout a copy from the cursor, Dview is the window's byte. -/
theorem dview_eq_read {h : History} {p : WinPos} {k : Nat} (hk : 0 < h.distance p → k < h.distance p) :
    h.dview p k = h.read (p.toNat + k) := by
  unfold History.dview
  dsimp only
  rcases Nat.eq_zero_or_pos (h.distance p) with hzero | hpos
  · rw [if_pos hzero]
  · rw [if_neg hpos.ne', Nat.mod_eq_of_lt (hk hpos)]

/-- The cursor stands the distance after the copy's start. -/
theorem pos_toNat_eq_add_distance (h : History) (p : WinPos) :
    h.pos.toNat = (p.toNat + h.distance p) % 4096 := by
  have hpos := winPos_toNat_lt h.pos
  have hp := winPos_toNat_lt p
  have hsize : 2 ^ Config.offBits = 4096 := rfl
  rw [History.distance, BitVec.toNat_sub, hsize]
  omega

/-- The bytes that the copy steps `k`, …, `k + n - 1` from `p` return. -/
def copiedBytes (h : History) (p : WinPos) (k n : Nat) : List Byte := (List.range' k n).map (h.dview p)

theorem copiedBytes_zero (h : History) (p : WinPos) (n : Nat) :
    copiedBytes h p 0 n = (List.range n).map (h.dview p) := by rw [copiedBytes, List.range_eq_range']

@[simp] theorem length_copiedBytes (h : History) (p : WinPos) (k n : Nat) : (copiedBytes h p k n).length = n := by
  simp [copiedBytes]

theorem getElem_copiedBytes {h : History} {p : WinPos} {k n i : Nat} (hi : i < (copiedBytes h p k n).length) :
    (copiedBytes h p k n)[i] = h.dview p (k + i) := by simp [copiedBytes]

theorem copiedBytes_succ (h : History) (p : WinPos) (k n : Nat) :
    copiedBytes h p k (n + 1) = h.dview p k :: copiedBytes h p (k + 1) n := rfl

theorem copiedBytes_concat (h : History) (p : WinPos) (n : Nat) :
    copiedBytes h p 0 (n + 1) = copiedBytes h p 0 n ++ [h.dview p n] := by
  simp [copiedBytes_zero, List.range_succ]

/-- The key step of R148: once the bytes of the steps before it are pushed, step `k` reads Dview(p, k). -/
theorem read_pushAll_copiedBytes {h : History} (p : WinPos) {k : Nat} (hw : h.wf = true) (hk : k < 4096) :
    (h.pushAll (copiedBytes h p 0 k)).read (p.toNat + k) = h.dview p k := by
  have hcursor := pos_toNat_eq_add_distance h p
  have hdistance : h.distance p < 4096 := winPos_toNat_lt (h.pos - p)
  by_cases hpushed : 0 < h.distance p ∧ h.distance p ≤ k
  · obtain ⟨hpos, hle⟩ := hpushed
    have hi : k - h.distance p < (copiedBytes h p 0 k).length := by rw [length_copiedBytes]; omega
    have hread := read_pushAll_of_pushed hw hi (by rw [length_copiedBytes]; omega)
    have hplace : (p.toNat + k) % 4096 = (h.pos.toNat + (k - h.distance p)) % 4096 := by omega
    calc (h.pushAll (copiedBytes h p 0 k)).read (p.toNat + k)
        = (h.pushAll (copiedBytes h p 0 k)).read (h.pos.toNat + (k - h.distance p)) := by
          rw [← History.read_mod, hplace, History.read_mod]
      _ = h.dview p (k - h.distance p) := by rw [hread, getElem_copiedBytes, Nat.zero_add]
      _ = h.dview p k := dview_sub_distance hle
  · rw [dview_eq_read fun hpos => by omega]
    refine read_pushAll_of_not_pushed hw fun i hi => ?_
    rw [length_copiedBytes] at hi
    omega

/-- A copy under way goes on to emit and push the bytes of its next steps, up to SIZE (R147, R186). -/
theorem copySteps_copiedBytes (size : Nat) {h : History} (p : WinPos) {n k : Nat} (res : List Byte) (hw : h.wf = true)
    (hk : k + n ≤ 4096) :
    copySteps size p n k (h.pushAll (copiedBytes h p 0 k)) res =
      (h.pushAll (copiedBytes h p 0 (k + min n (size - res.length))),
        res ++ copiedBytes h p k (min n (size - res.length))) := by
  induction n generalizing k res with
  | zero => simp [copySteps, copiedBytes]
  | succ n ih =>
    rw [copySteps]
    split
    case isTrue hfull =>
      rw [Nat.sub_eq_zero_of_le hfull]
      simp [copiedBytes]
    case isFalse hroom =>
      have hcount : min (n + 1) (size - res.length) = min n (size - (res ++ [h.dview p k]).length) + 1 := by
        rw [List.length_append, List.length_singleton]
        omega
      have hpush : (h.pushAll (copiedBytes h p 0 k)).push (h.dview p k) = h.pushAll (copiedBytes h p 0 (k + 1)) := by
        rw [copiedBytes_concat, History.pushAll_append, History.pushAll_cons, History.pushAll_nil]
      dsimp only
      rw [read_pushAll_copiedBytes p hw (by omega), hpush, ih _ (by omega), hcount, copiedBytes_succ,
        List.append_assoc, List.singleton_append, Nat.add_right_comm, Nat.add_assoc]

/-- A whole copy, as a match runs it: Dview of the window before it, cut at SIZE. -/
theorem copySteps_eq (size : Nat) {h : History} (p : WinPos) {n : Nat} (res : List Byte) (hw : h.wf = true)
    (hn : n ≤ 18) :
    copySteps size p n 0 h res =
      (h.pushAll ((List.range (min n (size - res.length))).map (h.dview p)),
        res ++ (List.range (min n (size - res.length))).map (h.dview p)) := by
  have hcopy := copySteps_copiedBytes size p (k := 0) res hw (by omega : 0 + n ≤ 4096)
  rw [Nat.zero_add] at hcopy
  rw [← copiedBytes_zero]
  exact hcopy

/-- Settles O27: Dview has the distance as its period, and a copy that SIZE does not cut runs all its steps. -/
theorem copyStepsReturnDview : Obligations.CopyStepsReturnDview := by
  intro h p hw
  refine ⟨fun k _ => ?recursion, fun n size res hn hroom => ?copy⟩
  case recursion =>
    change h.dview p k = if 0 < h.distance p ∧ h.distance p ≤ k then h.dview p (k - h.distance p) else _
    split
    case isTrue hpushed =>
      obtain ⟨-, hle⟩ := hpushed
      exact (dview_sub_distance hle).symm
    case isFalse hfresh => rw [History.read_mod, dview_eq_read fun hpos => by omega]
  case copy =>
    rw [copySteps_eq size p res hw hn, Nat.min_eq_left (by omega)]
    exact ⟨rfl, rfl⟩

end Sys2Proof.Proofs
end

section
/-! The Sliding-Window stream elements that seed and copy: what follows each of them, and the two ends of the command
(R181, R184-R187). -/

namespace Sys2Proof.Proofs

open Sys2Proof.Machine

/-! ### How the decode goes on (R182, R186) -/

theorem swContinue_of_lt {s : State} (hmore : s.swDec.res.length < s.swDec.size.toNat) :
    swContinue s = { s with phase := if s.swDec.bit < 8 then .swToken else .swFlags } := by
  rw [swContinue, if_neg (Nat.not_le_of_lt hmore)]
  rcases Nat.lt_or_ge s.swDec.bit 8 with hopen | hclosed
  · rw [if_neg (Nat.not_le_of_lt hopen), if_pos hopen]
  · rw [if_pos hclosed, if_neg (Nat.not_lt_of_le hclosed)]

theorem swContinue_of_le {s : State} (hend : s.swDec.size.toNat ≤ s.swDec.res.length) :
    swContinue s = finishCommand s.swDec.res s.posBefore s := if_pos hend

/-- A decode that reads `n` bytes and goes on changes nothing outside its working state, the window and the place in the
grammar. -/
theorem frame_advance_sw (n : Nat) (s : State) (h : History) (d : SwDecoder) (p : Phase) :
    Frame s { advance n s with hist := h, swDec := d, phase := p } := by constructor <;> intros <;> rfl

/-! ### SW.HDR (R181, R187) -/

/-- What SW.HDR has set when the stop condition is tested. -/
def swHdrSeeded (size : BitVec 16) (s : State) : State :=
  { advance 2 s with
    hist := History.seed s.params.histFill 0xFEE
    swDec := { s.swDec with size := size, bit := 8 } }

theorem swHdrState_eq (size : BitVec 16) (s : State) : swHdrState size s = swContinue (swHdrSeeded size s) := rfl

theorem swHdrState_of_ne_zero {size : BitVec 16} {s : State} (hres : s.swDec.res = []) (hsize : size ≠ 0) :
    swHdrState size s = { swHdrSeeded size s with phase := .swFlags } := by
  have hmore : s.swDec.res.length < size.toNat := by
    rw [hres]
    exact Nat.pos_of_ne_zero fun hzero => hsize (BitVec.eq_of_toNat_eq hzero)
  exact swContinue_of_lt (s := swHdrSeeded size s) hmore

theorem swHdrState_zero {s : State} (hres : s.swDec.res = []) :
    Done [] (swHdrState 0 s) ∧ (swHdrState 0 s).srcPos = s.srcPos + 2 := by
  have hend : swHdrState 0 s = finishCommand s.swDec.res s.posBefore (swHdrSeeded 0 s) :=
    swContinue_of_le (s := swHdrSeeded 0 s) (Nat.zero_le _)
  rw [hend, hres]
  exact finishCommand_done s.posBefore (Nat.zero_le _)

/-- Settles O32: with nothing emitted, the stop condition holds after the header exactly when SIZE is 0. -/
theorem swHeaderSeedsTheWindow : Obligations.SwHeaderSeedsTheWindow := by
  intro size s hres
  have hkeeps : KeepsInputs s (swHdrState size s) := elementEffect_keepsInputs (.swHdr size) s
  have hhist : (swHdrState size s).hist = History.seed s.params.histFill 0xFEE := swContinue_hist _
  have hswDec : (swHdrState size s).swDec = { s.swDec with size := size, bit := 8 } := swContinue_swDec _
  refine ⟨swHdrState size s, rfl, ?srcPos, by rw [hswDec], by rw [hhist, History.seed_pos],
    fun a => by rw [hhist, History.read_seed], by rw [hswDec, hres], hkeeps.toCommandFrame, hkeeps.engine,
    swContinue_rmEnc _, swContinue_rmDec _, swContinue_swEnc _, swContinue_posBefore _, fun hsize => ?more,
    fun hsize => ?done⟩
  case srcPos =>
    by_cases hsize : size = 0
    · rw [hsize]
      exact (swHdrState_zero hres).2
    · rw [swHdrState_of_ne_zero hres hsize]
      rfl
  case more =>
    rw [swHdrState_of_ne_zero hres hsize]
    exact ⟨rfl, frame_advance_sw 2 s _ _ _⟩
  case done =>
    rw [hsize]
    exact (swHdrState_zero hres).1

/-! ### SW.MATCH (R184-R186) -/

/-- The bytes that a match copies: Dview of the window before it, cut at SIZE. -/
def swCopied (off : WinPos) (len : Nat) (s : State) : List Byte :=
  (List.range (min len (s.swDec.size.toNat - s.swDec.res.length))).map (s.hist.dview off)

/-- What SW.MATCH has copied when the stop condition is tested. -/
def swMatchCopied (off : WinPos) (len : Nat) (s : State) : State :=
  { advance 2 s with
    hist := s.hist.pushAll (swCopied off len s)
    swDec := { s.swDec with res := s.swDec.res ++ swCopied off len s, bit := s.swDec.bit + 1 } }

theorem swMatchState_eq (off : WinPos) {len : Nat} {s : State} (hlen : len ≤ 18) (hw : s.hist.wf = true) :
    swMatchState off len s = swContinue (swMatchCopied off len s) := by
  rw [swMatchState, copySteps_eq _ off _ hw hlen]
  rfl

theorem length_res_swMatchCopied (off : WinPos) (len : Nat) (s : State) :
    (swMatchCopied off len s).swDec.res.length =
      s.swDec.res.length + min len (s.swDec.size.toNat - s.swDec.res.length) := by
  simp [swMatchCopied, swCopied]

/-- Settles O35: a copy step reads Dview of the window before the token, and the stop condition is that of SIZE against
the bytes emitted. -/
theorem swMatchCopiesFromTheWindow : Obligations.SwMatchCopiesFromTheWindow := by
  intro off len s hlen hw hroom
  have hkeeps : KeepsInputs s (swMatchState off len s) := elementEffect_keepsInputs (.swMatch off len) s
  have heq := swMatchState_eq off hlen hw
  have hcount := length_res_swMatchCopied off len s
  have hfull (hend : s.swDec.size.toNat ≤ s.swDec.res.length + len) :
      (swMatchCopied off len s).swDec.res.length = s.swDec.size.toNat := by omega
  have hfinish (hend : s.swDec.size.toNat ≤ s.swDec.res.length + len) :
      swMatchState off len s =
        finishCommand (swMatchCopied off len s).swDec.res s.posBefore (swMatchCopied off len s) :=
    heq.trans (swContinue_of_le (hfull hend).ge)
  refine ⟨swMatchState off len s, rfl, ?swDec, ?hist, hkeeps.toCommandFrame, hkeeps.engine, swContinue_rmEnc _,
    swContinue_rmDec _, swContinue_swEnc _, swContinue_posBefore _, fun hmore => ?more, fun hend hfits => ?done,
    fun hend hover => ?failed⟩
  case swDec =>
    rw [heq, swContinue_swDec]
    rfl
  case hist =>
    rw [heq, swContinue_hist]
    rfl
  case more =>
    have hmore : (swMatchCopied off len s).swDec.res.length < s.swDec.size.toNat := by omega
    rw [heq, swContinue_of_lt hmore]
    exact ⟨rfl, frame_advance_sw 2 s _ _ _, rfl⟩
  case done =>
    obtain ⟨hdone, hsrc⟩ := finishCommand_done (s := swMatchCopied off len s) s.posBefore ((hfull hend).trans_le hfits)
    rw [hfinish hend]
    exact ⟨hsrc, hdone⟩
  case failed =>
    obtain ⟨hfailed, hsrc⟩ :=
      finishCommand_failed (s := swMatchCopied off len s) s.posBefore (hover.trans_eq (hfull hend).symm)
    rw [hfinish hend]
    exact ⟨hsrc, hfailed⟩

end Sys2Proof.Proofs
end

section
/-! The Sliding-Window encoder's search: ML(p) as the largest length that a copy from `p` reproduces, and the winner of
the scan under either tie-break (R163, R164). -/

namespace Sys2Proof.Proofs

open Sys2Proof.Machine

/-! ### ML (R163) -/

theorem matchFrom_cons (h : History) (p : WinPos) (k : Nat) (b : Byte) (bs : List Byte) :
    matchFrom h p k (b :: bs) = if h.dview p k = b then matchFrom h p (k + 1) bs + 1 else 0 := rfl

theorem matchFrom_le_length (h : History) (p : WinPos) (k : Nat) (bs : List Byte) :
    matchFrom h p k bs ≤ bs.length := by
  induction bs generalizing k with
  | nil => exact le_rfl
  | cons b bs ih =>
    rw [matchFrom_cons, List.length_cons]
    split
    · exact Nat.succ_le_succ (ih (k + 1))
    · exact Nat.zero_le _

/-- The copy's steps from `k` on reproduce `n` bytes exactly when the first one does and the next steps the others. -/
theorem le_matchFrom_iff (h : History) (p : WinPos) (k : Nat) {n : Nat} {bs : List Byte} (hn : n ≤ bs.length) :
    n ≤ matchFrom h p k bs ↔ ∀ i, i < n → bs[i]? = some (h.dview p (k + i)) := by
  induction bs generalizing k n with
  | nil =>
    obtain rfl : n = 0 := Nat.le_zero.mp hn
    simp
  | cons b bs ih =>
    cases n with
    | zero => simp
    | succ n =>
      have hrest := ih (k + 1) (Nat.le_of_succ_le_succ hn)
      have hshift (i : Nat) : k + 1 + i = k + (i + 1) := by omega
      simp only [hshift] at hrest
      rw [matchFrom_cons, Nat.forall_lt_succ_left]
      simp only [List.getElem?_cons_zero, List.getElem?_cons_succ, Option.some.injEq, Nat.add_zero]
      split
      case isTrue heq => rw [Nat.add_le_add_iff_right, hrest, and_iff_right heq.symm]
      case isFalse hne => simp [Ne.symm hne]

theorem matchLen_le (h : History) (p : WinPos) (look : List Byte) : matchLen h p look ≤ min 18 look.length :=
  (matchFrom_le_length h p 0 _).trans_eq List.length_take

theorem le_matchLen_iff (h : History) (p : WinPos) {look : List Byte} {n : Nat} (hn : n ≤ min 18 look.length) :
    n ≤ matchLen h p look ↔ ∀ k, k < n → look[k]? = some (h.dview p k) := by
  rw [matchLen, le_matchFrom_iff h p 0 (hn.trans_eq List.length_take.symm)]
  refine forall₂_congr fun k hk => ?_
  have hmax : k < 18 := by omega
  rw [List.getElem?_take_of_lt hmax, Nat.zero_add]

/-- Settles O53: the length is counted as long as the copy's bytes agree with the input. -/
theorem matchLengthIsTheLargest : Obligations.MatchLengthIsTheLargest :=
  fun h p look => ⟨matchLen_le h p look, fun _ hn => (le_matchLen_iff h p hn).symm⟩

/-- The copy from `p` gives the first ML(p) bytes of the input. -/
theorem map_dview_range_matchLen (h : History) (p : WinPos) (look : List Byte) :
    (List.range (matchLen h p look)).map (h.dview p) = look.take (matchLen h p look) := by
  have hmax := matchLen_le h p look
  have hagree := (le_matchLen_iff h p hmax).mp le_rfl
  refine List.ext_getElem (by simp; omega) fun k hk _ => ?_
  rw [List.length_map, List.length_range] at hk
  have hlook : look[k]'(by omega) = h.dview p k := by
    rw [← Option.some_inj, ← List.getElem?_eq_getElem, hagree k hk]
  simp [hlook]

/-! ### The tie-break (R164) -/

theorem takesOver_backwardLast (len best : Nat) : takesOver .backwardLast len best = true ↔ best ≤ len :=
  decide_eq_true_iff

theorem takesOver_backwardFirst (len best : Nat) : takesOver .backwardFirst len best = true ↔ best < len :=
  decide_eq_true_iff

theorem le_of_takesOver {tie : Config.Tie} {len best : Nat} (h : takesOver tie len best = true) : best ≤ len := by
  cases tie with
  | backwardLast => exact (takesOver_backwardLast len best).mp h
  | backwardFirst => exact Nat.le_of_lt ((takesOver_backwardFirst len best).mp h)

theorem le_of_not_takesOver {tie : Config.Tie} {len best : Nat} (h : ¬ takesOver tie len best = true) :
    len ≤ best := by
  cases tie with
  | backwardLast => exact Nat.le_of_not_le (mt (takesOver_backwardLast len best).mpr h)
  | backwardFirst => exact Nat.le_of_not_lt (mt (takesOver_backwardFirst len best).mpr h)

/-- Only the length taken over matters: what takes over a match takes over every shorter one. -/
theorem takesOver_of_le {tie : Config.Tie} {len best less : Nat} (h : takesOver tie len best = true)
    (hle : less ≤ best) : takesOver tie len less = true := by
  cases tie with
  | backwardLast =>
    rw [takesOver_backwardLast] at h ⊢
    exact hle.trans h
  | backwardFirst =>
    rw [takesOver_backwardFirst] at h ⊢
    exact hle.trans_lt h

/-! ### The scan (R164) -/

/-- Of the `n` lengths `len 0`, `len 1`, … met by a scan, number `i` is the one that the tie-break leaves in place. -/
structure WinsScan (tie : Config.Tie) (len : Nat → Nat) (n i : Nat) : Prop where
  /-- It is scanned. -/
  lt : i < n
  /-- It takes over from every length before it. -/
  earlier : ∀ j, j < i → takesOver tie (len i) (len j) = true
  /-- No length after it takes over from it. -/
  later : ∀ j, i < j → j < n → ¬ takesOver tie (len j) (len i) = true

theorem WinsScan.le {tie : Config.Tie} {len : Nat → Nat} {n i j : Nat} (h : WinsScan tie len n i) (hj : j < n) :
    len j ≤ len i := by
  rcases Nat.lt_trichotomy j i with hbefore | rfl | hafter
  · exact le_of_takesOver (h.earlier j hbefore)
  · exact le_rfl
  · exact le_of_not_takesOver (h.later j hafter hj)

theorem WinsScan.last {len : Nat → Nat} {n i j : Nat} (h : WinsScan .backwardLast len n i) (hj : j < n)
    (heq : len j = len i) : j ≤ i :=
  Nat.le_of_not_lt fun hafter => h.later j hafter hj ((takesOver_backwardLast _ _).mpr heq.ge)

theorem WinsScan.first {len : Nat → Nat} {n i j : Nat} (h : WinsScan .backwardFirst len n i)
    (heq : len j = len i) : i ≤ j :=
  Nat.le_of_not_lt fun hbefore => ((takesOver_backwardFirst _ _).mp (h.earlier j hbefore)).ne heq

theorem winsScan_zero {tie : Config.Tie} {len : Nat → Nat} {n : Nat}
    (h : ∀ j, j < n → ¬ takesOver tie (len (j + 1)) (len 0) = true) : WinsScan tie len (n + 1) 0 where
  lt := Nat.succ_pos n
  earlier j hj := absurd hj (Nat.not_lt_zero j)
  later j hafter hj := by
    obtain ⟨j, rfl⟩ := Nat.exists_eq_succ_of_ne_zero hafter.ne'
    exact h j (Nat.lt_of_succ_lt_succ hj)

theorem WinsScan.succ {tie : Config.Tie} {len : Nat → Nat} {n i : Nat}
    (h : WinsScan tie (fun j => len (j + 1)) n i) (hfirst : takesOver tie (len (i + 1)) (len 0) = true) :
    WinsScan tie len (n + 1) (i + 1) where
  lt := Nat.succ_lt_succ h.lt
  earlier j hj := by
    cases j with
    | zero => exact hfirst
    | succ j => exact h.earlier j (Nat.lt_of_succ_lt_succ hj)
  later j hafter hj := by
    obtain ⟨j, rfl⟩ := Nat.exists_eq_succ_of_ne_zero (Nat.ne_zero_of_lt hafter)
    exact h.later j (Nat.lt_of_succ_lt_succ hafter) (Nat.lt_of_succ_lt_succ hj)

/-- ML of the position that a scan backward from `p` meets `j` positions after it. -/
def scannedLen (h : History) (look : List Byte) (p : WinPos) (j : Nat) : Nat :=
  matchLen h (p - BitVec.ofNat 12 j) look

theorem winPos_sub_succ (p : WinPos) (j : Nat) : p - BitVec.ofNat 12 (j + 1) = p - 1 - BitVec.ofNat 12 j := by
  rw [sub_sub, BitVec.ofNat_add, add_comm]
  rfl

theorem scannedLen_zero (h : History) (look : List Byte) (p : WinPos) :
    scannedLen h look p 0 = matchLen h p look := by
  rw [scannedLen, BitVec.sub_zero]

theorem scannedLen_succ (h : History) (look : List Byte) (p : WinPos) (j : Nat) :
    scannedLen h look p (j + 1) = scannedLen h look (p - 1) j := by
  rw [scannedLen, winPos_sub_succ, scannedLen]

/-- A scan leaves the match it starts with in place, or ends with its winner. -/
theorem searchFrom_cases (tie : Config.Tie) (h : History) (look : List Byte) (n : Nat) (p bp : WinPos) (best : Nat) :
    (searchFrom tie h look n p bp best = (bp, best) ∧
      ∀ j, j < n → ¬ takesOver tie (scannedLen h look p j) best = true) ∨
    ∃ i, WinsScan tie (scannedLen h look p) n i ∧ takesOver tie (scannedLen h look p i) best = true ∧
      searchFrom tie h look n p bp best = (p - BitVec.ofNat 12 i, scannedLen h look p i) := by
  induction n generalizing p bp best with
  | zero => exact .inl ⟨rfl, fun j hj => absurd hj (Nat.not_lt_zero j)⟩
  | succ n ih =>
    rw [searchFrom, ← scannedLen_zero]
    split
    case isTrue htakes =>
      right
      rcases ih (p - 1) p (scannedLen h look p 0) with ⟨heq, hnone⟩ | ⟨i, hwins, hover, heq⟩
      · simp only [← scannedLen_succ] at hnone
        exact ⟨0, winsScan_zero hnone, htakes, by rw [heq, BitVec.sub_zero]⟩
      · simp only [← scannedLen_succ] at hover heq
        refine ⟨i + 1, .succ (by simpa only [scannedLen_succ] using hwins) hover,
          takesOver_of_le hover (le_of_takesOver htakes), by rw [heq, winPos_sub_succ]⟩
    case isFalse hkeeps =>
      rcases ih (p - 1) bp best with ⟨heq, hnone⟩ | ⟨i, hwins, hover, heq⟩
      · simp only [← scannedLen_succ] at hnone
        refine .inl ⟨heq, fun j hj => ?_⟩
        cases j with
        | zero => exact hkeeps
        | succ j => exact hnone j (Nat.lt_of_succ_lt_succ hj)
      · simp only [← scannedLen_succ] at hover heq
        exact .inr ⟨i + 1, .succ (by simpa only [scannedLen_succ] using hwins)
          (takesOver_of_le hover (le_of_not_takesOver hkeeps)), hover, by rw [heq, winPos_sub_succ]⟩

/-- How many positions the scan meets before `q` (R164). -/
def scanIndex (h : History) (q : WinPos) : Nat := (h.pos - 1 - q).toNat

theorem scannedLen_scanIndex (h : History) (look : List Byte) (q : WinPos) :
    scannedLen h look (h.pos - 1) (scanIndex h q) = matchLen h q look := by
  rw [scannedLen, scanIndex, BitVec.ofNat_toNat, BitVec.setWidth_eq, sub_sub_self]

theorem scanIndex_sub {h : History} {i : Nat} (hi : i < 4096) : scanIndex h (h.pos - 1 - BitVec.ofNat 12 i) = i := by
  rw [scanIndex, sub_sub_self, BitVec.toNat_ofNat]
  exact Nat.mod_eq_of_lt hi

/-- The whole scan finds nothing at all, or ends with the winner among all positions. -/
theorem swSearch_cases (tie : Config.Tie) (h : History) (look : List Byte) :
    ((swSearch tie h look).2 = 0 ∧ ∀ q, matchLen h q look = 0) ∨
    (matchLen h (swSearch tie h look).1 look = (swSearch tie h look).2 ∧
      WinsScan tie (scannedLen h look (h.pos - 1)) 4096 (scanIndex h (swSearch tie h look).1)) := by
  rcases searchFrom_cases tie h look 4096 (h.pos - 1) 0 0 with ⟨heq, hnone⟩ | ⟨i, hwins, -, heq⟩
  · have hfound : swSearch tie h look = (0, 0) := heq
    refine .inl ⟨by rw [hfound], fun q => Nat.le_zero.mp ?_⟩
    rw [← scannedLen_scanIndex]
    exact le_of_not_takesOver (hnone _ (winPos_toNat_lt _))
  · have hfound : swSearch tie h look = (h.pos - 1 - BitVec.ofNat 12 i, scannedLen h look (h.pos - 1) i) := heq
    rw [hfound, scanIndex_sub hwins.lt]
    exact .inr ⟨rfl, hwins⟩

/-- Settles O54: no position beats the scan's winner, and among its equals the tie-break keeps it. -/
theorem searchFindsTheLongestMatch : Obligations.SearchFindsTheLongestMatch := by
  intro tie h look found scan
  rcases swSearch_cases tie h look with ⟨hzero, hnone⟩ | ⟨hlen, hwins⟩
  · refine ⟨fun q => (hnone q).trans_le (Nat.zero_le _), fun hthree => ?_⟩
    have hfound : found.2 = 0 := hzero
    omega
  · have hindex (q : WinPos) : scanIndex h q < 4096 := winPos_toNat_lt _
    have htop : scannedLen h look (h.pos - 1) (scanIndex h found.1) = found.2 := (scannedLen_scanIndex ..).trans hlen
    refine ⟨fun q => ?longest, fun _ => ⟨hlen, fun q hq => ?tie⟩⟩
    case longest =>
      rw [← htop, ← scannedLen_scanIndex]
      exact hwins.le (hindex q)
    case tie =>
      have hequal : scannedLen h look (h.pos - 1) (scanIndex h q) =
          scannedLen h look (h.pos - 1) (scanIndex h found.1) :=
        (scannedLen_scanIndex ..).trans (hq.trans htop.symm)
      cases tie with
      | backwardLast => exact Nat.succ_le_succ (hwins.last (hindex q) hequal)
      | backwardFirst => exact Nat.succ_le_succ (hwins.first hequal)

/-- A match of length 3 or more that the search finds is a copy of the input's next bytes, and a token can hold its
length. -/
theorem swSearch_match {tie : Config.Tie} {h : History} {look : List Byte} (hmin : 3 ≤ (swSearch tie h look).2) :
    (swSearch tie h look).2 ≤ min 18 look.length ∧
      (List.range (swSearch tie h look).2).map (h.dview (swSearch tie h look).1) =
        look.take (swSearch tie h look).2 := by
  obtain ⟨-, hmatch⟩ := searchFindsTheLongestMatch tie h look
  obtain ⟨hlen, -⟩ := hmatch hmin
  rw [← hlen]
  exact ⟨matchLen_le h _ look, map_dview_range_matchLen h _ look⟩

end Sys2Proof.Proofs
end

section
/-! The tokens of a Sliding-Window stream: what the encoder takes for the next token, what a token stands for, and the
groups (R76-R80, R160-R169). -/

namespace Sys2Proof.Proofs

open Sys2Proof.Machine Sys2Proof.Reference

/-! ### The next token (R160, R164) -/

/-- The History Window of a command that has consumed or emitted `before` (R144, R146). -/
def windowAfter (fill : Byte) (before : List Byte) : History := (History.seed fill 0xFEE#12).pushAll before

theorem windowAfter_append (fill : Byte) (before bs : List Byte) :
    windowAfter fill (before ++ bs) = (windowAfter fill before).pushAll bs := History.pushAll_append _ _ _

theorem wf_windowAfter (fill : Byte) (before : List Byte) : (windowAfter fill before).wf = true :=
  History.wf_pushAll _ before (History.wf_seed fill 0xFEE#12)

/-- How many bytes a token stands for (R79, R80). -/
def tokenSpan : Token → Nat
  | .lit _ => 1
  | .copy _ len => len

/-- What a token can encode (R80): a match has a length of 3 to 18. -/
def ValidToken : Token → Prop
  | .lit _ => True
  | .copy _ len => 3 ≤ len ∧ len ≤ 18

/-- The bytes a token stands for when the window before it is `h` (R148). -/
def expandToken (h : History) : Token → List Byte
  | .lit b => [b]
  | .copy p len => (List.range len).map (h.dview p)

@[simp] theorem length_expandToken (h : History) (t : Token) : (expandToken h t).length = tokenSpan t := by
  cases t <;> simp [expandToken, tokenSpan]

theorem tokenSpan_pos {t : Token} (h : ValidToken t) : 0 < tokenSpan t := by
  cases t with
  | lit b => exact Nat.one_pos
  | copy p len => exact (Nat.zero_lt_succ 2).trans_le h.1

/-- The token the encoder takes for the input `look` with first byte `b` (R160): the longest match, or a literal. -/
def nextToken (tie : Config.Tie) (h : History) (b : Byte) (look : List Byte) : Token :=
  if 3 ≤ (swSearch tie h look).2 then .copy (swSearch tie h look).1 (swSearch tie h look).2 else .lit b

theorem nextToken_of_le {tie : Config.Tie} {h : History} (b : Byte) {look : List Byte}
    (hmin : 3 ≤ (swSearch tie h look).2) :
    nextToken tie h b look = .copy (swSearch tie h look).1 (swSearch tie h look).2 := if_pos hmin

theorem nextToken_of_lt {tie : Config.Tie} {h : History} (b : Byte) {look : List Byte}
    (hshort : ¬ 3 ≤ (swSearch tie h look).2) : nextToken tie h b look = .lit b := if_neg hshort

theorem validToken_nextToken (tie : Config.Tie) (h : History) (b : Byte) (look : List Byte) :
    ValidToken (nextToken tie h b look) := by
  by_cases hmin : 3 ≤ (swSearch tie h look).2
  · obtain ⟨hmax, -⟩ := swSearch_match hmin
    rw [nextToken_of_le b hmin]
    exact ⟨hmin, hmax.trans (Nat.min_le_left _ _)⟩
  · rw [nextToken_of_lt b hmin]
    trivial

/-- The next token stands for the input's next bytes (R163, R165, R166). -/
theorem expandToken_nextToken (tie : Config.Tie) (h : History) (b : Byte) (bs : List Byte) :
    expandToken h (nextToken tie h b (b :: bs)) = (b :: bs).take (tokenSpan (nextToken tie h b (b :: bs))) := by
  by_cases hmin : 3 ≤ (swSearch tie h (b :: bs)).2
  · obtain ⟨-, hcopy⟩ := swSearch_match hmin
    rw [nextToken_of_le b hmin]
    exact hcopy
  · rw [nextToken_of_lt b hmin]
    rfl

/-- The reference tokens, one at a time (R160). -/
theorem tokens_cons (fill : Byte) (tie : Config.Tie) (n : Nat) (before : List Byte) (b : Byte) (bs : List Byte) :
    tokens fill tie (n + 1) before (b :: bs) =
      let t := nextToken tie (windowAfter fill before) b (b :: bs)
      t :: tokens fill tie n (before ++ (b :: bs).take (tokenSpan t)) ((b :: bs).drop (tokenSpan t)) := by
  rw [tokens]
  dsimp only
  rw [← windowAfter]
  split
  case isTrue hmin =>
    rw [nextToken_of_le b hmin]
    rfl
  case isFalse hmin =>
    rw [nextToken_of_lt b hmin]
    rfl

theorem validToken_of_mem_tokens {fill : Byte} {tie : Config.Tie} {n : Nat} {before rest : List Byte} {t : Token}
    (ht : t ∈ tokens fill tie n before rest) : ValidToken t := by
  induction n generalizing before rest with
  | zero => exact absurd ht List.not_mem_nil
  | succ n ih =>
    cases rest with
    | nil => exact absurd ht List.not_mem_nil
    | cons b bs =>
      rw [tokens_cons] at ht
      rcases List.mem_cons.mp ht with rfl | hlater
      · exact validToken_nextToken tie _ b _
      · exact ih hlater

/-! ### What the tokens stand for (R144, R160) -/

/-- The bytes that tokens stand for when `before` has been emitted, each token's bytes pushed before the next. -/
def expandTokens (fill : Byte) : List Byte → List Token → List Byte
  | _, [] => []
  | before, t :: ts =>
    let bs := expandToken (windowAfter fill before) t
    bs ++ expandTokens fill (before ++ bs) ts

theorem expandTokens_cons (fill : Byte) (before : List Byte) (t : Token) (ts : List Token) :
    expandTokens fill before (t :: ts) =
      expandToken (windowAfter fill before) t ++
        expandTokens fill (before ++ expandToken (windowAfter fill before) t) ts := rfl

theorem expandTokens_append (fill : Byte) (before : List Byte) (ts us : List Token) :
    expandTokens fill before (ts ++ us) =
      expandTokens fill before ts ++ expandTokens fill (before ++ expandTokens fill before ts) us := by
  induction ts generalizing before with
  | nil => simp [expandTokens]
  | cons t ts ih => simp only [List.cons_append, expandTokens_cons, ih, List.append_assoc]

/-- The encoder's tokens stand for its input. -/
theorem expandTokens_tokens (fill : Byte) (tie : Config.Tie) {n : Nat} (before : List Byte) {rest : List Byte}
    (hn : rest.length ≤ n) : expandTokens fill before (tokens fill tie n before rest) = rest := by
  induction n generalizing before rest with
  | zero =>
    obtain rfl : rest = [] := List.eq_nil_of_length_eq_zero (Nat.le_zero.mp hn)
    rfl
  | succ n ih =>
    cases rest with
    | nil => rfl
    | cons b bs =>
      have hspan := tokenSpan_pos (validToken_nextToken tie (windowAfter fill before) b (b :: bs))
      rw [tokens_cons]
      dsimp only
      rw [expandTokens_cons, expandToken_nextToken, ih _ ?_, List.take_append_drop]
      rw [List.length_drop]
      omega

/-! ### Groups (R168) -/

theorem groups_of_ne_nil (n : Nat) {ts : List Token} (h : ts ≠ []) :
    groups (n + 1) ts = ts.take 8 :: groups n (ts.drop 8) := by
  cases ts with
  | nil => exact absurd rfl h
  | cons t ts => rfl

theorem groups_nil (n : Nat) : groups n [] = [] := by cases n <;> rfl

/-- A full group at the front is the first group. -/
theorem groups_append (n : Nat) {g : List Token} (hg : g.length = 8) (ts : List Token) :
    groups (n + 1) (g ++ ts) = g :: groups n ts := by
  have hne : g ++ ts ≠ [] := List.append_ne_nil_of_left_ne_nil (List.ne_nil_of_length_pos (by omega)) ts
  rw [groups_of_ne_nil n hne, List.take_left' hg, List.drop_left' hg]

/-- Fewer than 8 tokens make up one group. -/
theorem groups_of_length_lt {n : Nat} {g : List Token} (hne : g ≠ []) (hg : g.length < 8) : groups (n + 1) g = [g] := by
  rw [groups_of_ne_nil n hne, List.take_of_length_le hg.le, List.drop_of_length_le hg.le, groups_nil]

theorem length_of_mem_groups {n : Nat} {g ts : List Token} (h : g ∈ groups n ts) : 1 ≤ g.length ∧ g.length ≤ 8 := by
  induction n generalizing ts with
  | zero => exact absurd h List.not_mem_nil
  | succ n ih =>
    rcases eq_or_ne ts [] with rfl | hne
    · exact absurd h List.not_mem_nil
    · have hpos := List.length_pos_of_ne_nil hne
      rw [groups_of_ne_nil n hne] at h
      rcases List.mem_cons.mp h with rfl | hlater
      · rw [List.length_take]
        omega
      · exact ih hlater

/-! ### The header (R77, R162) -/

theorem bytes16_ofNat_toNat {n : Nat} (hn : n ≤ 65535) :
    (bytes16 (BitVec.ofNat 16 n)).map BitVec.toNat = [n / 256, n % 256] := by
  simp only [bytes16, List.map_cons, List.map_nil, BitVec.extractLsb'_toNat, BitVec.toNat_ofNat,
    Nat.shiftRight_eq_div_pow, List.cons.injEq, and_true]
  omega

/-- Settles O55: the token's length is the search's, and a group takes at most 8 of at least one token. -/
theorem swStreamBounds : Obligations.SwStreamBounds := by
  intro fill tie raw hlen ts
  refine ⟨fun p len hcopy => ?_, fun g hg => length_of_mem_groups hg, ?_⟩
  · exact validToken_of_mem_tokens hcopy
  · exact bytes16_ofNat_toNat hlen

/-! ### The flag byte (R78, R167) -/

/-- Whether a token is a literal: its flag bit (R78). -/
def isLitToken : Token → Bool
  | .lit _ => true
  | .copy _ _ => false

theorem flagNumber_cons (t : Token) (ts : List Token) :
    flagNumber (t :: ts) = 2 * flagNumber ts + (isLitToken t).toNat := by
  cases t with
  | lit b => exact Nat.add_comm _ _
  | copy p len => rfl

/-- Flag bit `j` is token `j`'s; beyond the group's tokens it is 0. -/
theorem testBit_flagNumber (ts : List Token) (j : Nat) : (flagNumber ts).testBit j = ts[j]?.any isLitToken := by
  induction ts generalizing j with
  | nil => simp [flagNumber]
  | cons t ts ih =>
    rw [flagNumber_cons]
    cases j with
    | zero => cases ht : isLitToken t <;> simp [ht]
    | succ j =>
      rw [Nat.testBit_succ, List.getElem?_cons_succ, ← ih]
      congr 1
      have hbit := Bool.toNat_lt (isLitToken t)
      omega

theorem getLsbD_flagNumber (ts : List Token) {j : Nat} (hj : j < 8) :
    (BitVec.ofNat 8 (flagNumber ts)).getLsbD j = ts[j]?.any isLitToken := by
  rw [BitVec.getLsbD_ofNat, testBit_flagNumber, decide_eq_true hj, Bool.true_and]

/-- A literal's flag bit is set as the token joins the group (R166). -/
theorem setFlag_flagNumber (g : List Token) (b : Byte) :
    setFlag (BitVec.ofNat 8 (flagNumber g)) g.length = BitVec.ofNat 8 (flagNumber (g ++ [.lit b])) := by
  refine BitVec.eq_of_getLsbD_eq fun j hj => ?_
  rw [setFlag, BitVec.getLsbD_or, getLsbD_flagNumber _ hj, getLsbD_flagNumber _ hj, BitVec.getLsbD_shiftLeft,
    BitVec.getLsbD_one, decide_eq_true hj]
  rcases Nat.lt_trichotomy j g.length with hbefore | rfl | hafter
  · simp [List.getElem?_append_left hbefore, hbefore]
  · simp [isLitToken]
  · have hnone : (g ++ [Token.lit b])[j]? = none := by simp; omega
    have hdiff : j - g.length ≠ 0 := by omega
    simp [hnone, hafter.le, hdiff]

/-- A match leaves its flag bit 0 (R165). -/
theorem flagNumber_concat_copy (g : List Token) (p : WinPos) (len : Nat) :
    flagNumber (g ++ [.copy p len]) = flagNumber g := by
  induction g with
  | nil => rfl
  | cons t g ih => rw [List.cons_append, flagNumber_cons, ih, flagNumber_cons]

end Sys2Proof.Proofs
end

section
/-! ENCODE with the Sliding-Window engine: the loop emits the reference tokens, the flushes put them in groups, and what
the host is told (R160, R162, R165-R168, R171, R212, R228). -/

namespace Sys2Proof.Proofs

open Sys2Proof.Machine Sys2Proof.Reference

/-! ### Emitting a token (R165, R166) -/

/-- A token is emitted into the open group. -/
def emitToken : Token → SwEncoder → SwEncoder
  | .lit b, e => emitLiteral b e
  | .copy p len, e => emitMatch p len e

/-- A token is emitted and counted, and a full group flushed (R160, R168). -/
def addToken (e : SwEncoder) (t : Token) : SwEncoder := countToken (emitToken t e)

@[simp] theorem emitToken_tok (t : Token) (e : SwEncoder) : (emitToken t e).tok = e.tok := by cases t <;> rfl

@[simp] theorem emitToken_res (t : Token) (e : SwEncoder) : (emitToken t e).res = e.res := by cases t <;> rfl

@[simp] theorem emitToken_inp (t : Token) (e : SwEncoder) : (emitToken t e).inp = e.inp + tokenSpan t := by
  cases t <;> rfl

@[simp] theorem countToken_inp (e : SwEncoder) : (countToken e).inp = e.inp := by
  unfold countToken
  split <;> rfl

theorem addToken_inp (e : SwEncoder) (t : Token) : (addToken e t).inp = e.inp + tokenSpan t := by
  rw [addToken, countToken_inp, emitToken_inp]

/-- A token's bytes are those of the stream element (R79, R80). -/
theorem emitToken_gbuf (t : Token) (e : SwEncoder) : (emitToken t e).gbuf = e.gbuf ++ t.bytes := by
  cases t with
  | lit b => rfl
  | copy p len => exact congrArg (e.gbuf ++ ·) (encode_swMatch p len)

/-! ### SW_ENCODE's loop (R160) -/

/-- One round takes the next token and pushes the bytes it stands for. -/
theorem swToken_eq (tie : Config.Tie) (b : Byte) (bs : List Byte) (h : History) (e : SwEncoder) :
    swToken tie b bs h e =
      let t := nextToken tie h b (b :: bs)
      (h.pushAll ((b :: bs).take (tokenSpan t)), addToken e t) := by
  rw [swToken]
  dsimp only
  split
  case isTrue hmin =>
    rw [nextToken_of_le b hmin]
    rfl
  case isFalse hmin =>
    rw [nextToken_of_lt b hmin]
    rfl

/-- The loop adds the reference tokens of the unconsumed input, one a round. -/
theorem swEncodeLoop_tokens (fill : Byte) (tie : Config.Tie) (raw : List Byte) (n : Nat) (before : List Byte)
    (e : SwEncoder) :
    (swEncodeLoop tie raw n (windowAfter fill before) e).2 =
      (tokens fill tie n before (raw.drop e.inp)).foldl addToken e := by
  induction n generalizing before e with
  | zero => rfl
  | succ n ih =>
    cases hrest : raw.drop e.inp with
    | nil => simp only [swEncodeLoop, hrest, tokens, List.foldl_nil]
    | cons b bs =>
      obtain ⟨t, ht⟩ : ∃ t, nextToken tie (windowAfter fill before) b (b :: bs) = t := ⟨_, rfl⟩
      have hdrop : (b :: bs).drop (tokenSpan t) = raw.drop (addToken e t).inp := by
        rw [addToken_inp, ← List.drop_drop, hrest]
      simp only [swEncodeLoop, hrest, swToken_eq, tokens_cons, ht, List.foldl_cons]
      rw [← windowAfter_append, ih, hdrop]

/-! ### Groups (R168) -/

/-- The tokens `g` are in the encoder's open group. -/
structure HoldsGroup (g : List Token) (e : SwEncoder) : Prop where
  /-- FLAGS has the tokens' flag bits. -/
  flags : e.flags = BitVec.ofNat 8 (flagNumber g)
  /-- TOK counts the tokens. -/
  tok : e.tok = g.length
  /-- GBUF has the tokens' bytes. -/
  gbuf : e.gbuf = g.flatMap Token.bytes

theorem emitToken_flags {g : List Token} {e : SwEncoder} (h : HoldsGroup g e) (t : Token) :
    (emitToken t e).flags = BitVec.ofNat 8 (flagNumber (g ++ [t])) := by
  cases t with
  | lit b => rw [← setFlag_flagNumber g b, ← h.flags, ← h.tok]; rfl
  | copy p len => rw [flagNumber_concat_copy, ← h.flags]; rfl

/-- The open group once the token is emitted and counted, before the test for a full group. -/
theorem HoldsGroup.emit {g : List Token} {e : SwEncoder} (h : HoldsGroup g e) (t : Token) :
    HoldsGroup (g ++ [t]) { emitToken t e with tok := (emitToken t e).tok + 1 } where
  flags := emitToken_flags h t
  tok := by rw [emitToken_tok, h.tok, List.length_append, List.length_singleton]
  gbuf := by rw [emitToken_gbuf, h.gbuf, List.flatMap_append, List.flatMap_singleton]

theorem flushGroup_res {g : List Token} {e : SwEncoder} (h : HoldsGroup g e) :
    (flushGroup e).res = e.res ++ groupBytes g := by
  rw [groupBytes, ← h.flags, ← h.gbuf]
  rfl

theorem holdsGroup_flushGroup (e : SwEncoder) : HoldsGroup [] (flushGroup e) := ⟨rfl, rfl, rfl⟩

/-- A token that does not fill the group stays in it. -/
theorem HoldsGroup.addToken_of_lt {g : List Token} {e : SwEncoder} (h : HoldsGroup g e) {t : Token}
    (hg : g.length + 1 < 8) : HoldsGroup (g ++ [t]) (addToken e t) ∧ (addToken e t).res = e.res := by
  have hopen : ¬ (emitToken t e).tok + 1 = 8 := by
    rw [emitToken_tok, h.tok]
    exact hg.ne
  rw [addToken, countToken, if_neg hopen]
  exact ⟨h.emit t, emitToken_res t e⟩

/-- The eighth token flushes the group. -/
theorem HoldsGroup.addToken_of_full {g : List Token} {e : SwEncoder} (h : HoldsGroup g e) {t : Token}
    (hg : g.length + 1 = 8) :
    HoldsGroup [] (addToken e t) ∧ (addToken e t).res = e.res ++ groupBytes (g ++ [t]) := by
  have hfull : (emitToken t e).tok + 1 = 8 := by rw [emitToken_tok, h.tok, hg]
  rw [addToken, countToken, if_pos hfull]
  exact ⟨holdsGroup_flushGroup _, by rw [flushGroup_res (h.emit t), emitToken_res]⟩

/-- The last group is flushed when it holds a token (R168). -/
def flushLast (e : SwEncoder) : SwEncoder := if 0 < e.tok then flushGroup e else e

theorem flushLast_res {g : List Token} {e : SwEncoder} (h : HoldsGroup g e) (hg : g.length < 8) {n : Nat}
    (hn : g.length ≤ n) : (flushLast e).res = e.res ++ (groups n g).flatMap groupBytes := by
  rcases eq_or_ne g [] with rfl | hne
  · have hempty : ¬ 0 < e.tok := by rw [h.tok]; exact Nat.lt_irrefl 0
    rw [flushLast, if_neg hempty, groups_nil, List.flatMap_nil, List.append_nil]
  · have hpos := List.length_pos_of_ne_nil hne
    obtain ⟨n, rfl⟩ := Nat.exists_eq_succ_of_ne_zero (hpos.trans_le hn).ne'
    rw [flushLast, if_pos (h.tok.symm ▸ hpos), flushGroup_res h, groups_of_length_lt hne hg, List.flatMap_singleton]

/-- Tokens added after the open group's come out in groups of 8, the last one shorter. -/
theorem flushLast_foldl_addToken (ts : List Token) {g : List Token} {e : SwEncoder} (h : HoldsGroup g e)
    (hg : g.length < 8) {n : Nat} (hn : (g ++ ts).length ≤ n) :
    (flushLast (ts.foldl addToken e)).res = e.res ++ (groups n (g ++ ts)).flatMap groupBytes := by
  induction ts generalizing g e n with
  | nil =>
    rw [List.append_nil] at hn ⊢
    exact flushLast_res h hg hn
  | cons t ts ih =>
    have hsplit : g ++ t :: ts = g ++ [t] ++ ts := List.append_cons g t ts
    have hcount : (g ++ [t]).length = g.length + 1 := List.length_append
    rw [hsplit] at hn ⊢
    rw [List.foldl_cons]
    rcases Nat.lt_or_eq_of_le (Nat.succ_le_of_lt hg) with hopen | hfull
    · obtain ⟨hholds, hres⟩ := h.addToken_of_lt (t := t) hopen
      rw [ih hholds (hcount.trans_lt hopen) hn, hres]
    · obtain ⟨hholds, hres⟩ := h.addToken_of_full (t := t) hfull
      have hlen := List.length_append (as := g ++ [t]) (bs := ts)
      obtain ⟨n, rfl⟩ := Nat.exists_eq_succ_of_ne_zero (n := n) (by omega)
      rw [ih hholds (Nat.zero_lt_succ 7) (n := n) (by rw [List.nil_append]; omega), hres, List.nil_append,
        groups_append n (hcount.trans hfull), List.flatMap_cons, List.append_assoc]

/-- The encoder once the header is written (R162). -/
def afterHeader (raw : List Byte) : SwEncoder :=
  { SwEncoder.initial with res := bytes16 (BitVec.ofNat 16 raw.length) }

theorem holdsGroup_afterHeader (raw : List Byte) : HoldsGroup [] (afterHeader raw) := ⟨rfl, rfl, rfl⟩

theorem swEncode_eq_flushLast (fill : Byte) (tie : Config.Tie) (raw : List Byte) :
    (swEncode fill tie raw).2 =
      flushLast (swEncodeLoop tie raw raw.length (windowAfter fill []) (afterHeader raw)).2 := rfl

/-- SW_ENCODE's result is the reference stream. -/
theorem swEncode_res (fill : Byte) (tie : Config.Tie) (raw : List Byte) :
    (swEncode fill tie raw).2.res = swEncodeStream fill tie raw := by
  have hloop : (swEncodeLoop tie raw raw.length (windowAfter fill []) (afterHeader raw)).2 =
      (tokens fill tie raw.length [] raw).foldl addToken (afterHeader raw) := swEncodeLoop_tokens ..
  rw [swEncode_eq_flushLast, hloop, flushLast_foldl_addToken _ (holdsGroup_afterHeader raw) (by decide) le_rfl]
  rfl

/-! ### The command (R212, R228) -/

theorem engField_of_sw {s : State} (hengine : s.engine = 2 ∨ s.engine = 3) :
    engField s.engine ≠ 0 ∧ engField s.engine ≠ 1 := by
  rcases hengine with h | h <;> rw [h] <;> decide

theorem encodeCommand_of_sw {s : State} (hengine : s.engine = 2 ∨ s.engine = 3) (hcap : s.srcLen ≤ s.params.srcCap)
    (hstart : s.srcStart ≤ s.srcLen) : encodeCommand s = encodeSw s := by
  obtain ⟨hbound, hsw⟩ := engField_of_sw hengine
  have hrange : badRange s = false := (badRange_eq_false_iff s).mpr ⟨hcap, hstart⟩
  rw [encodeCommand, if_neg hbound, hrange, if_neg Bool.false_ne_true, if_neg hsw]

theorem length_rawBlock (s : State) : (rawBlock s).length = s.srcLen - s.srcStart := length_srcBytes s _ _

/-- A RawBlock that the header can hold is encoded (R161). -/
theorem encodeSw_eq_finishCommand {s : State} (hlen : s.srcLen - s.srcStart ≤ 65535) :
    encodeSw s = finishCommand (swEncodeStream s.params.histFill s.params.swTie (rawBlock s)) s.srcPos
      { s with
        hist := (swEncode s.params.histFill s.params.swTie (rawBlock s)).1
        swEnc := (swEncode s.params.histFill s.params.swTie (rawBlock s)).2
        srcPos := s.srcLen } := by
  have hfits : ¬ 65535 < (rawBlock s).length := Nat.not_lt_of_le ((length_rawBlock s).trans_le hlen)
  rw [encodeSw]
  dsimp only
  rw [if_neg hfits, swEncode_res]

theorem encodeSw_of_long {s : State} (hlen : 65535 < s.srcLen - s.srcStart) :
    encodeSw s = failCommand .inputTooLong 0 s.srcPos s := if_pos (hlen.trans_eq (length_rawBlock s).symm)

/-- Settles O44: the encoder's result is the reference stream, and either end of a command tells the host so. -/
theorem swEncodeDeliversTheStream : Obligations.SwEncodeDeliversTheStream := by
  intro s hengine hcap hstart hlen out
  have hkeeps := encodeCommand_keepsInputs s
  have hend := (encodeCommand_of_sw hengine hcap hstart).trans (encodeSw_eq_finishCommand hlen)
  refine ⟨encodeCommand s, rfl, hkeeps.toCommandFrame, hkeeps.engine, fun hfits => ?done, fun hover => ?failed⟩
  case done =>
    rw [hend]
    exact finishCommand_done s.srcPos hfits
  case failed =>
    rw [hend]
    exact finishCommand_failed s.srcPos hover

/-- A Sliding-Window ENCODE that succeeded has had a good range that the header can hold, and OUT holds the stream. -/
theorem done_of_swEncode_succeeded {s t : State} (hengine : s.engine = 2 ∨ s.engine = 3)
    (hexec : exec .cmdEncode s = .next t) (hok : stateField t.status = 1) :
    s.srcLen - s.srcStart ≤ 65535 ∧
      Done (swEncodeStream s.params.histFill s.params.swTie (srcBytes s s.srcStart (s.srcLen - s.srcStart))) t := by
  obtain rfl : encodeCommand s = t := Host.Outcome.next.inj hexec
  have hfail (e : ErrorCode) : encodeCommand s ≠ failCommand e 0 s.srcPos s := fun heq =>
    stateField_ne_one_of_failed (failCommand_failed e 0 s.srcPos s) (heq ▸ hok)
  cases hrange : badRange s
  case true =>
    obtain ⟨hbound, -⟩ := engField_of_sw hengine
    refine absurd ?_ (hfail .badRange)
    rw [encodeCommand, if_neg hbound, if_pos hrange]
  case false =>
    obtain ⟨hcap, hstart⟩ := (badRange_eq_false_iff s).mp hrange
    have hsw := encodeCommand_of_sw hengine hcap hstart
    rcases Nat.lt_or_ge 65535 (s.srcLen - s.srcStart) with hlong | hlen
    · exact absurd (hsw.trans (encodeSw_of_long hlong)) (hfail .inputTooLong)
    · obtain ⟨u, hu, -, -, hdone, hfailed⟩ := swEncodeDeliversTheStream s hengine hcap hstart hlen
      obtain rfl : encodeCommand s = u := Host.Outcome.next.inj hu
      rcases Nat.lt_or_ge s.params.outCap (swEncodeStream s.params.histFill s.params.swTie
        (srcBytes s s.srcStart (s.srcLen - s.srcStart))).length with hover | hfits
      · obtain ⟨hoverflow, -⟩ := hfailed hover
        exact absurd hok (stateField_ne_one_of_failed hoverflow)
      · obtain ⟨hstream, -⟩ := hdone hfits
        exact ⟨hlen, hstream⟩

end Sys2Proof.Proofs
end

section
/-! The Sliding-Window round trip: a running DECODE reads the encoder's header, flag bytes and tokens as the bytes they
stand for (R170, R180-R186, R190). -/

namespace Sys2Proof.Proofs

open Sys2Proof.Machine Sys2Proof.Reference

/-! ### What a running DECODE has delivered and has ahead -/

/-- SRC_POS is in the source range, and the bytes from there to SRC_LEN are `bytes`. -/
structure Unread (bytes : List Byte) (s : State) : Prop where
  /-- SRC_POS is at most SRC_LEN. -/
  srcPos_le : s.srcPos ≤ s.srcLen
  /-- The bytes ahead. -/
  ahead : ahead s = bytes

/-- Reading the first of the bytes ahead leaves the others. -/
theorem Unread.read {bs rest : List Byte} {s t : State} (h : Unread (bs ++ rest) s)
    (hpos : t.srcPos = s.srcPos + bs.length) (hlen : t.srcLen = s.srcLen) (hsrc : ∀ a, srcByte t a = srcByte s a) :
    Unread rest t where
  srcPos_le := by
    have hcount := congrArg List.length h.ahead
    have hle := h.srcPos_le
    rw [length_ahead, List.length_append] at hcount
    omega
  ahead := by
    have hdrop : Proofs.ahead t = (Proofs.ahead s).drop bs.length := by
      rw [Proofs.ahead, Proofs.ahead, drop_srcBytes, hpos, hlen, Nat.sub_sub]
      exact srcBytes_congr fun k _ => hsrc _
    rw [hdrop, h.ahead, List.drop_left]

theorem Unread.srcPos_eq {s : State} (h : Unread [] s) : s.srcPos = s.srcLen := by
  have hcount := congrArg List.length h.ahead
  rw [length_ahead, List.length_nil] at hcount
  exact Nat.le_antisymm h.srcPos_le (Nat.le_of_sub_eq_zero hcount)

/-- A Sliding-Window DECODE has emitted `before`, SIZE asks for `todo` bytes more, and the bytes ahead are `bytes`. -/
structure SwReads (fill : Byte) (before : List Byte) (todo : Nat) (bytes : List Byte) (s : State) : Prop
    extends Unread bytes s where
  /-- The window holds what has been emitted. -/
  hist : s.hist = windowAfter fill before
  /-- RES is what has been emitted. -/
  res : s.swDec.res = before
  /-- SIZE is what has been emitted and what has not. -/
  size : s.swDec.size.toNat = before.length + todo

/-- The command has ended with the result `res` and SRC_POS at SRC_LEN, unless the result does not fit. -/
def EndsAtSrcLen (res : List Byte) (t : State) : Prop :=
  ∃ u before, u.srcPos = u.srcLen ∧ t = finishCommand res before u

/-- With nothing left to deliver the stop condition ends the command (R186). -/
theorem SwReads.ends {fill : Byte} {before : List Byte} {s : State} (h : SwReads fill before 0 [] s) :
    EndsAtSrcLen before (decodeEnd (swContinue s)) := by
  have hfull : s.swDec.size.toNat ≤ s.swDec.res.length := by rw [h.size, h.res, Nat.add_zero]
  rw [swContinue_of_le hfull, decodeEnd_of_idle (finishCommand_phase _ _ _), h.res]
  exact ⟨s, s.posBefore, h.toUnread.srcPos_eq, rfl⟩

/-- With something left to deliver, a token or a flag byte is read next (R182, R186). -/
theorem SwReads.goesOn {fill : Byte} {before bytes : List Byte} {todo : Nat} {s : State}
    (h : SwReads fill before todo bytes s) (htodo : 0 < todo) :
    SwReads fill before todo bytes (swContinue s) ∧
      (swContinue s).phase = if s.swDec.bit < 8 then .swToken else .swFlags := by
  have hmore : s.swDec.res.length < s.swDec.size.toNat := by
    rw [h.size, h.res]
    omega
  have hunread := h.toUnread.read (bs := []) (t := swContinue s) (by rw [swContinue_of_lt hmore]; rfl)
    (swContinue_srcLen s) fun _ => srcByte_congr (swContinue_src s) (swContinue_powerOn s) _
  refine ⟨⟨hunread, ?_, ?_, ?_⟩, by rw [swContinue_of_lt hmore]⟩
  · rw [swContinue_hist, h.hist]
  · rw [swContinue_swDec, h.res]
  · rw [swContinue_swDec, h.size]

/-! ### The header and the flag bytes (R181, R182) -/

/-- The header seeds the window and asks for the whole result. -/
theorem decodeEnd_of_swHdr {s : State} {size : BitVec 16} {bytes : List Byte} (hphase : s.phase = .swHdr)
    (hres : s.swDec.res = []) (h : Unread (bytes16 size ++ bytes) s) :
    decodeEnd s = decodeEnd (swContinue (swHdrSeeded size s)) ∧
      SwReads s.params.histFill [] size.toNat bytes (swHdrSeeded size s) := by
  have hdecode : decode .swHdr (ahead s) = .ok (.swHdr size, bytes) :=
    h.ahead ▸ decodeOfEncodeIsTheInstruction (.swHdr size) bytes rfl
  exact ⟨decodeEnd_of_decode_ahead (by simp [streamPosition, hphase]) hdecode,
    h.read rfl rfl fun _ => rfl, rfl, hres, (Nat.zero_add _).symm⟩

/-- What SW.FLAGS has set when the stop condition is tested. -/
def swFlagsRead (f : Byte) (s : State) : State :=
  { advance 1 s with swDec := { s.swDec with flags := f, bit := 0 } }

/-- After the header or a full group a flag byte is read. -/
theorem decodeEnd_of_swFlags {fill f : Byte} {before bytes : List Byte} {todo : Nat} {s : State}
    (h : SwReads fill before todo (f :: bytes) s) (htodo : 0 < todo) (hbit : 8 ≤ s.swDec.bit) :
    ∃ u, decodeEnd (swContinue s) = decodeEnd (swContinue u) ∧ SwReads fill before todo bytes u ∧
      u.swDec.flags = f ∧ u.swDec.bit = 0 := by
  obtain ⟨hv, hphase⟩ := h.goesOn htodo
  rw [if_neg (Nat.not_lt_of_le hbit)] at hphase
  refine ⟨swFlagsRead f (swContinue s), ?step,
    ⟨hv.toUnread.read (bs := [f]) rfl rfl fun _ => rfl, hv.hist, hv.res, hv.size⟩, rfl, rfl⟩
  case step =>
    have hdecode : decode .swFlags (ahead (swContinue s)) = .ok (.swFlags f, bytes) := by rw [hv.ahead]; rfl
    exact decodeEnd_of_decode_ahead (by simp [streamPosition, hphase]) hdecode

/-! ### Tokens (R183-R186) -/

/-- The stream element a token is read as. -/
def tokenInstr : Token → Instr
  | .lit b => .swLit b
  | .copy p len => .swMatch p len

theorem encode_tokenInstr (t : Token) : encode (tokenInstr t) = t.bytes := by
  cases t with
  | lit b => rfl
  | copy p len => exact encode_swMatch p len

theorem wellFormed_tokenInstr {t : Token} (h : ValidToken t) : (tokenInstr t).WellFormed = true := by
  cases t with
  | lit b => rfl
  | copy p len =>
    obtain ⟨hmin, hmax⟩ := h
    simp [tokenInstr, Instr.WellFormed, hmin, hmax]

/-- The token's bytes at the token's own position are read as the token. -/
theorem decode_tokenInstr {t : Token} (h : ValidToken t) (rest : List Byte) :
    decode (tokenInstr t).position (t.bytes ++ rest) = .ok (tokenInstr t, rest) := by
  rw [← encode_tokenInstr]
  exact decodeOfEncodeIsTheInstruction _ rest (wellFormed_tokenInstr h)

theorem streamPosition_of_token {s : State} {t : Token} (hphase : s.phase = .swToken)
    (hflag : flagBit s.swDec.flags s.swDec.bit = isLitToken t) :
    streamPosition s = some (tokenInstr t).position := by
  cases t <;> simp [streamPosition, hphase, hflag, isLitToken, tokenInstr, Instr.position]

/-- What a token has done when the stop condition is tested. -/
def tokenRead (t : Token) (s : State) : State :=
  { advance t.bytes.length s with
    hist := s.hist.pushAll (expandToken s.hist t)
    swDec := { s.swDec with res := s.swDec.res ++ expandToken s.hist t, bit := s.swDec.bit + 1 } }

/-- A token that SIZE does not cut emits and pushes the bytes it stands for (R147, R148). -/
theorem elementEffect_tokenInstr {t : Token} {s : State} (h : ValidToken t) (hw : s.hist.wf = true)
    (hroom : s.swDec.res.length + tokenSpan t ≤ s.swDec.size.toNat) :
    elementEffect (tokenInstr t) s = swContinue (tokenRead t s) := by
  cases t with
  | lit b => rfl
  | copy p len =>
    have hwhole : min len (s.swDec.size.toNat - s.swDec.res.length) = len :=
      Nat.min_eq_left (Nat.le_sub_of_add_le' hroom)
    obtain ⟨-, hmax⟩ := h
    refine (swMatchState_eq p hmax hw).trans ?_
    rw [swMatchCopied, swCopied, hwhole]
    rfl

/-- A running DECODE reads the next token of an open group. -/
theorem decodeEnd_of_token {fill : Byte} {before bytes : List Byte} {todo : Nat} {s : State} {t : Token}
    (h : SwReads fill before (tokenSpan t + todo) (t.bytes ++ bytes) s) (ht : ValidToken t) (hbit : s.swDec.bit < 8)
    (hflag : flagBit s.swDec.flags s.swDec.bit = isLitToken t) :
    ∃ u, decodeEnd (swContinue s) = decodeEnd (swContinue u) ∧
      SwReads fill (before ++ expandToken (windowAfter fill before) t) todo bytes u ∧
      u.swDec.flags = s.swDec.flags ∧ u.swDec.bit = s.swDec.bit + 1 := by
  obtain ⟨hv, hphase⟩ := h.goesOn (Nat.add_pos_left (tokenSpan_pos ht) todo)
  have hsame := swContinue_swDec s
  rw [if_pos hbit] at hphase
  rw [← hsame] at hflag ⊢
  generalize swContinue s = v at hv hphase hflag ⊢
  refine ⟨tokenRead t v, ?step, ⟨hv.toUnread.read rfl rfl fun _ => rfl, ?hist, ?res, ?size⟩, rfl, rfl⟩
  case step =>
    have hw : v.hist.wf = true := hv.hist ▸ wf_windowAfter fill before
    have hroom : v.swDec.res.length + tokenSpan t ≤ v.swDec.size.toNat := by
      rw [hv.size, hv.res, ← Nat.add_assoc]
      exact Nat.le_add_right _ _
    rw [← elementEffect_tokenInstr ht hw hroom]
    exact decodeEnd_of_decode_ahead (streamPosition_of_token hphase hflag) (hv.ahead ▸ decode_tokenInstr ht bytes)
  case hist => rw [windowAfter_append, ← hv.hist]; rfl
  case res => rw [← hv.hist, ← hv.res]; rfl
  case size =>
    rw [List.length_append, length_expandToken, Nat.add_assoc]
    exact hv.size

/-! ### Groups and the whole stream (R180, R182) -/

/-- A running DECODE reads the tokens of a group whose flag bits are those of its flag byte. -/
theorem decodeEnd_of_group {fill : Byte} {before bytes : List Byte} {todo : Nat} {s : State} {g : List Token}
    (h : SwReads fill before ((expandTokens fill before g).length + todo) (g.flatMap Token.bytes ++ bytes) s)
    (hvalid : ∀ t ∈ g, ValidToken t) (hbit : s.swDec.bit + g.length ≤ 8)
    (hflags : ∀ (i : Nat) (hi : i < g.length), flagBit s.swDec.flags (s.swDec.bit + i) = isLitToken g[i]) :
    ∃ u, decodeEnd (swContinue s) = decodeEnd (swContinue u) ∧
      SwReads fill (before ++ expandTokens fill before g) todo bytes u ∧ u.swDec.bit = s.swDec.bit + g.length := by
  induction g generalizing before s with
  | nil => exact ⟨s, rfl, by simpa [expandTokens] using h, rfl⟩
  | cons t g ih =>
    obtain ⟨ht, hg⟩ := List.forall_mem_cons.mp hvalid
    rw [List.length_cons] at hbit
    rw [expandTokens_cons, List.length_append, length_expandToken, Nat.add_assoc, List.flatMap_cons,
      List.append_assoc] at h
    obtain ⟨u, hstep, hreads, huflags, hubit⟩ := decodeEnd_of_token h ht (by omega) (hflags 0 (Nat.succ_pos _))
    have hlater (i : Nat) (hi : i < g.length) : flagBit u.swDec.flags (u.swDec.bit + i) = isLitToken g[i] := by
      have hflag := hflags (i + 1) (Nat.succ_lt_succ hi)
      rw [huflags, hubit, Nat.add_right_comm]
      exact hflag
    obtain ⟨v, hrest, hvreads, hvbit⟩ := ih hreads hg (by omega) hlater
    rw [expandTokens_cons, ← List.append_assoc, List.length_cons]
    exact ⟨v, hstep.trans hrest, hvreads, by omega⟩

theorem length_expandTokens_pos {t : Token} (ht : ValidToken t) (fill : Byte) (before : List Byte) (ts : List Token) :
    0 < (expandTokens fill before (t :: ts)).length := by
  rw [expandTokens_cons, List.length_append, length_expandToken]
  exact Nat.add_pos_left (tokenSpan_pos ht) _

/-- A whole group: its flag byte, then its tokens. -/
theorem decodeEnd_of_groupBytes {fill : Byte} {before bytes : List Byte} {todo : Nat} {s : State} {g : List Token}
    (h : SwReads fill before ((expandTokens fill before g).length + todo) (groupBytes g ++ bytes) s)
    (hvalid : ∀ t ∈ g, ValidToken t) (hne : g ≠ []) (hlen : g.length ≤ 8) (hbit : 8 ≤ s.swDec.bit) :
    ∃ u, decodeEnd (swContinue s) = decodeEnd (swContinue u) ∧
      SwReads fill (before ++ expandTokens fill before g) todo bytes u ∧ u.swDec.bit = g.length := by
  have htodo : 0 < (expandTokens fill before g).length := by
    obtain ⟨t, ts, rfl⟩ := List.exists_cons_of_ne_nil hne
    exact length_expandTokens_pos (hvalid t List.mem_cons_self) fill before ts
  obtain ⟨u, hstep, hreads, huflags, hubit⟩ := decodeEnd_of_swFlags h (Nat.add_pos_left htodo todo) hbit
  have hflags (i : Nat) (hi : i < g.length) : flagBit u.swDec.flags (u.swDec.bit + i) = isLitToken g[i] := by
    rw [huflags, hubit, Nat.zero_add, flagBit, getLsbD_flagNumber g (hi.trans_le hlen), List.getElem?_eq_getElem hi,
      Option.any_some]
  obtain ⟨v, hrest, hvreads, hvbit⟩ := decodeEnd_of_group hreads hvalid (by omega) hflags
  exact ⟨v, hstep.trans hrest, hvreads, by omega⟩

/-- The groups one after another: a group that others follow has used up all 8 flag bits. -/
theorem decodeEnd_of_groups {fill : Byte} {n : Nat} {before : List Byte} {s : State} {ts : List Token}
    (h : SwReads fill before (expandTokens fill before ts).length ((groups n ts).flatMap groupBytes) s)
    (hn : ts.length ≤ n) (hvalid : ∀ t ∈ ts, ValidToken t) (hbit : ts ≠ [] → 8 ≤ s.swDec.bit) :
    EndsAtSrcLen (before ++ expandTokens fill before ts) (decodeEnd (swContinue s)) := by
  induction n generalizing before s ts with
  | zero =>
    obtain rfl : ts = [] := List.eq_nil_of_length_eq_zero (Nat.le_zero.mp hn)
    rw [expandTokens, List.append_nil]
    exact h.ends
  | succ n ih =>
    rcases eq_or_ne ts [] with rfl | hne
    · rw [expandTokens, List.append_nil]
      exact h.ends
    · have hpos := List.length_pos_of_ne_nil hne
      have hfirst : ts.take 8 ≠ [] := List.ne_nil_of_length_pos (by rw [List.length_take]; omega)
      have hexpand := expandTokens_append fill before (ts.take 8) (ts.drop 8)
      rw [List.take_append_drop] at hexpand
      rw [hexpand, List.length_append, groups_of_ne_nil n hne, List.flatMap_cons] at h
      obtain ⟨u, hstep, hreads, hubit⟩ := decodeEnd_of_groupBytes h (fun t ht => hvalid t (List.mem_of_mem_take ht))
        hfirst (List.length_take_le 8 ts) (hbit hne)
      rw [hstep, hexpand, ← List.append_assoc]
      refine ih hreads (by rw [List.length_drop]; omega) (fun t ht => hvalid t (List.mem_of_mem_drop ht))
        fun hmore => ?_
      have hlater := List.length_pos_of_ne_nil hmore
      rw [List.length_drop] at hlater
      rw [hubit, List.length_take]
      omega

/-! ### The command (R170, R190, R213) -/

theorem beginDecode_of_sw {s : State} (h : engField s.engine ≠ 1) :
    beginDecode s =
      { s with posBefore := s.srcPos, srcPos := s.srcStart, swDec := SwDecoder.initial, phase := .swHdr } := if_neg h

/-- A DECODE starts with the whole source range ahead (R213). -/
theorem unread_beginDecode {s : State} (hstart : s.srcStart ≤ s.srcLen) :
    Unread (srcBytes s s.srcStart (s.srcLen - s.srcStart)) (beginDecode s) := by
  have hkeeps := beginDecode_keepsInputs s
  refine ⟨?_, ?_⟩
  · rw [beginDecode_srcPos, hkeeps.srcLen]
    exact hstart
  · rw [ahead, beginDecode_srcPos, hkeeps.srcLen]
    exact srcBytes_congr fun k _ => hkeeps.src _

/-- DECODE of a header and tokens in groups ends with the bytes the tokens stand for, when the header is their
number. -/
theorem decodeStream_of_tokens {s : State} {ts : List Token} (hengine : s.engine = 2 ∨ s.engine = 3)
    (hcap : s.srcLen ≤ s.params.srcCap) (hstart : s.srcStart ≤ s.srcLen) {size : BitVec 16}
    (hsize : size.toNat = (expandTokens s.params.histFill [] ts).length) (hvalid : ∀ t ∈ ts, ValidToken t)
    (hsrc : srcBytes s s.srcStart (s.srcLen - s.srcStart) =
      bytes16 size ++ (groups ts.length ts).flatMap groupBytes) :
    EndsAtSrcLen (expandTokens s.params.histFill [] ts) (decodeStream s) := by
  obtain ⟨hbound, hsw⟩ := engField_of_sw hengine
  have hbegin := beginDecode_of_sw hsw
  have hfill : (beginDecode s).params.histFill = s.params.histFill := by rw [(beginDecode_keepsInputs s).params]
  obtain ⟨hhdr, hreads⟩ :=
    decodeEnd_of_swHdr (by rw [hbegin]) (by rw [hbegin]; rfl) (hsrc ▸ unread_beginDecode hstart)
  rw [hfill, hsize] at hreads
  rw [decodeStream_eq_decodeEnd hbound hcap hstart, hhdr]
  exact decodeEnd_of_groups hreads le_rfl hvalid fun _ => le_rfl

/-- DECODE of the encoder's stream for `raw`, with the HIST_FILL it was encoded with, ends with `raw`. -/
theorem decodeStream_of_swEncodeStream {s : State} {tie : Config.Tie} {raw : List Byte}
    (hengine : s.engine = 2 ∨ s.engine = 3) (hcap : s.srcLen ≤ s.params.srcCap) (hstart : s.srcStart ≤ s.srcLen)
    (hlen : raw.length ≤ 65535)
    (hsrc : srcBytes s s.srcStart (s.srcLen - s.srcStart) = swEncodeStream s.params.histFill tie raw) :
    EndsAtSrcLen raw (decodeStream s) := by
  have hexpand := expandTokens_tokens s.params.histFill tie [] (le_refl raw.length)
  have hsize : (BitVec.ofNat 16 raw.length).toNat = raw.length := Nat.mod_eq_of_lt (Nat.lt_succ_of_le hlen)
  have hends := decodeStream_of_tokens hengine hcap hstart (hsize.trans (congrArg List.length hexpand.symm))
    (fun _ => validToken_of_mem_tokens) hsrc
  rwa [hexpand] at hends

/-- Settles O56: the bytes DECODE reads are the encoder's stream, whose tokens stand for the RawBlock. -/
theorem swDecodeOfEncodeIsTheRawBlock : Obligations.SwDecodeOfEncodeIsTheRawBlock := by
  intro s t u hengine hexec hok huengine hfill hulen hucap hsrc raw hfits
  obtain ⟨hlen, hencoded⟩ := done_of_swEncode_succeeded hengine hexec hok
  have hstream : srcBytes u u.srcStart (u.srcLen - u.srcStart) =
      swEncodeStream u.params.histFill s.params.swTie raw := by
    rw [hulen, Nat.add_sub_cancel_left, hsrc, hencoded.outLen, hencoded.out, hfill]
  have hrawlen : raw.length ≤ 65535 := (length_srcBytes s _ _).trans_le hlen
  obtain ⟨v, before, hpos, hw⟩ :=
    decodeStream_of_swEncodeStream huengine hucap (hulen ▸ Nat.le_add_right _ _) hrawlen hstream
  have hkeeps := decodeStream_keepsInputs u
  have hfinish := finishCommand_keepsInputs raw before v
  rw [hw] at hkeeps
  have hparams : v.params = u.params := hfinish.params.symm.trans hkeeps.params
  have hsrcLen : v.srcLen = u.srcLen := hfinish.srcLen.symm.trans hkeeps.srcLen
  obtain ⟨hdone, hsrcPos⟩ := finishCommand_done (res := raw) (s := v) before (hparams ▸ hfits)
  exact ⟨decodeStream u, rfl, hw ▸ hdone, by rw [hw, hsrcPos, hpos, hsrcLen]⟩

end Sys2Proof.Proofs
end

section
/-! The Sliding-Window stream elements that open a group and emit a literal: what follows each of them, and the two ends
of the command (R182, R183, R186). -/

namespace Sys2Proof.Proofs

open Sys2Proof.Machine Sys2Proof.Reference

/-! ### SW.FLAGS (R182) -/

/-- With SIZE not reached, what is read next is a flag byte when the 8 flag bits are used up, else the token that flag
bit BIT describes. -/
theorem streamPosition_swContinue {s : State} (hmore : s.swDec.res.length < s.swDec.size.toNat) :
    streamPosition (swContinue s) =
      some (if 8 ≤ s.swDec.bit then .swFlags
        else if s.swDec.flags.getLsbD s.swDec.bit then .swLit else .swMatch) := by
  rw [swContinue_of_lt hmore]
  rcases Nat.lt_or_ge s.swDec.bit 8 with hopen | hfull
  · rw [if_pos hopen, if_neg (Nat.not_le_of_lt hopen)]
    rfl
  · rw [if_neg (Nat.not_lt_of_le hfull), if_pos hfull]
    rfl

/-- Settles O33: the flag byte emits nothing, so SIZE stays unreached and bit 0 decides. -/
theorem swFlagsOpensAGroup : Obligations.SwFlagsOpensAGroup := by
  intro f s hmore
  have hmore : (swFlagsRead f s).swDec.res.length < (swFlagsRead f s).swDec.size.toNat := hmore
  have hposition := streamPosition_swContinue hmore
  have heq := swContinue_of_lt hmore
  refine ⟨swContinue (swFlagsRead f s), rfl, ?_⟩
  rw [heq] at hposition ⊢
  exact ⟨rfl, rfl, rfl, hposition, frame_advance_sw 1 s _ _ _, rfl, rfl, rfl, rfl, rfl⟩

/-! ### SW.LIT (R183, R186) -/

theorem swLitState_eq (b : Byte) (s : State) : swLitState b s = swContinue (tokenRead (.lit b) s) := rfl

/-- Settles O34: the literal is one byte more in RES and one push, and the stop condition is that of SIZE against the
bytes emitted. -/
theorem swLiteralEmitsAndPushes : Obligations.SwLiteralEmitsAndPushes := by
  intro b s hw _
  have hkeeps : KeepsInputs s (swLitState b s) := elementEffect_keepsInputs (.swLit b) s
  have heq := swLitState_eq b s
  have hhist : (swLitState b s).hist = s.hist.push b := swContinue_hist _
  have hcount : (tokenRead (.lit b) s).swDec.res.length = s.swDec.res.length + 1 := List.length_append
  have hfinish (hlast : s.swDec.res.length + 1 = s.swDec.size.toNat) :
      swLitState b s = finishCommand (s.swDec.res ++ [b]) s.posBefore (tokenRead (.lit b) s) :=
    heq.trans (swContinue_of_le (hcount.trans hlast).ge)
  refine ⟨swLitState b s, rfl, swContinue_swDec _, fun a ha => ?read, by rw [hhist, History.push_pos_toNat],
    hkeeps.toCommandFrame, hkeeps.engine, swContinue_rmEnc _, swContinue_rmDec _, swContinue_swEnc _,
    swContinue_posBefore _, fun hmore => ?more, fun hlast hfits => ?done, fun hlast hover => ?failed⟩
  case read => rw [hhist, History.read_push _ _ _ hw, Nat.mod_eq_of_lt ha]
  case more =>
    rw [heq, swContinue_of_lt (hcount.trans_lt hmore)]
    exact ⟨rfl, frame_advance_sw 1 s _ _ _, rfl⟩
  case done =>
    obtain ⟨hdone, hsrc⟩ := finishCommand_done (s := tokenRead (.lit b) s) s.posBefore
      ((hcount.trans hlast).trans_le hfits)
    rw [hfinish hlast]
    exact ⟨hsrc, hdone⟩
  case failed =>
    obtain ⟨hfailed, hsrc⟩ := finishCommand_failed (s := tokenRead (.lit b) s) s.posBefore
      (hover.trans_eq (hcount.trans hlast).symm)
    rw [hfinish hlast]
    exact ⟨hsrc, hfailed⟩

end Sys2Proof.Proofs
end

section
/-! A Sliding-Window DECODE against the reference reading of the grammar: the window as the bytes emitted, matches that
SIZE may cut, and the whole stream (R144-R147, R180-R188, R213, R222). -/

namespace Sys2Proof.Proofs

open Sys2Proof.Machine Sys2Proof.Reference

/-! ### The window as the bytes emitted (R144, R146, R147) -/

/-- A position of the window holds the last byte emitted at an index that falls on it, else the fill byte. -/
theorem read_windowAfter (fill : Byte) (out : List Byte) (p : Nat) :
    (windowAfter fill out).read p = windowByte fill out p := by
  have hw := History.wf_seed fill 0xFEE#12
  have hcursor : (History.seed fill 0xFEE#12).pos.toNat = 0xFEE := rfl
  unfold windowByte windowAfter
  dsimp only
  generalize hage : (0xFEE + out.length + 4095 - p % 4096) % 4096 = age
  split
  case isTrue hemitted =>
    have hi : out.length - 1 - age < out.length := by omega
    have hplace : p % 4096 = (0xFEE + (out.length - 1 - age)) % 4096 := by omega
    have hread := read_pushAll_of_pushed hw hi (by omega)
    rw [List.getD_eq_getElem _ _ hi, ← hread, hcursor, ← History.read_mod, hplace, History.read_mod]
  case isFalse hfill =>
    refine read_pushAll_of_not_pushed hw fun i hi => ?_
    rw [hcursor]
    omega

/-- A copy emits the bytes of the reference copy, and the window stays the one of the bytes emitted. -/
theorem copySteps_windowAfter (fill : Byte) (size : Nat) (off : WinPos) (n k : Nat) (out : List Byte) :
    copySteps size off n k (windowAfter fill out) out =
      (windowAfter fill (copyBytes fill size n (off.toNat + k) out), copyBytes fill size n (off.toNat + k) out) := by
  induction n generalizing k out with
  | zero => rfl
  | succ n ih =>
    rw [copySteps, copyBytes]
    split
    case isTrue => rfl
    case isFalse =>
      dsimp only
      rw [read_windowAfter, Nat.add_assoc, ← ih (k + 1), windowAfter_append]
      rfl

/-! ### What a running DECODE has read and emitted -/

/-- The DECODE begun in `b` has read `read` bytes, the bytes ahead are `bytes`, and the window is the one of RES. -/
structure SwDecodes (b : State) (bytes : List Byte) (read : Nat) (s : State) : Prop extends Unread bytes s where
  /-- SRC_POS is past the bytes read. -/
  srcPos : s.srcPos = b.srcPos + read
  /-- The SRC_POS that a failure restores is the saved one. -/
  posBefore : s.posBefore = b.posBefore
  /-- The window holds what has been emitted. -/
  hist : s.hist = windowAfter b.params.histFill s.swDec.res

/-- The DECODE begun in `b` has ended in `t` as the reference result says: a failed read leaves SRC_POS there. -/
def SwEnds (b : State) : SwResult → State → Prop
  | .done out read, t => ∃ u, u.srcPos = b.srcPos + read ∧ t = finishCommand out b.posBefore u
  | .exhausted read, t => ∃ u, t = failCommand .sourceExhausted (b.srcPos + read) b.posBefore u

/-- What an element has read and emitted when the stop condition is tested. -/
def swElementRead (b : State) (n : Nat) (d : SwDecoder) (s : State) : State :=
  { advance n s with hist := windowAfter b.params.histFill d.res, swDec := d }

theorem SwDecodes.read {b s : State} {bs bytes : List Byte} {read : Nat} (h : SwDecodes b (bs ++ bytes) read s)
    (d : SwDecoder) : SwDecodes b bytes (read + bs.length) (swElementRead b bs.length d s) where
  toUnread := h.toUnread.read rfl rfl fun _ => rfl
  srcPos := by
    rw [← Nat.add_assoc, ← h.srcPos]
    rfl
  posBefore := h.posBefore
  hist := rfl

theorem SwDecodes.goesOn {b s : State} {bytes : List Byte} {read : Nat} (h : SwDecodes b bytes read s)
    (hmore : s.swDec.res.length < s.swDec.size.toNat) : SwDecodes b bytes read (swContinue s) := by
  rw [swContinue_of_lt hmore]
  exact ⟨h.toUnread.read (bs := []) rfl rfl fun _ => rfl, h.srcPos, h.posBefore, h.hist⟩

/-! ### The stop condition and the ends (R186, R188, R222) -/

/-- Once SIZE is reached the command has its result. -/
theorem SwDecodes.ends_of_full {b s : State} {bytes : List Byte} {read : Nat} (h : SwDecodes b bytes read s)
    {out : List Byte} (hres : s.swDec.res = out) (hfull : s.swDec.size.toNat ≤ s.swDec.res.length) :
    SwEnds b (.done out read) (decodeEnd (swContinue s)) := by
  rw [swContinue_of_le hfull, decodeEnd_of_idle (finishCommand_phase _ _ _), h.posBefore, hres]
  exact ⟨s, h.srcPos, rfl⟩

/-- With too few bytes for the next element the command fails at SRC_POS. -/
theorem swEnds_of_short {b s : State} {read : Nat} {p : Position} (hp : streamPosition s = some p)
    (hend : endOfData s = swEndOfData s) (hpos : s.srcPos = b.srcPos + read) (hbefore : s.posBefore = b.posBefore)
    (hshort : (ahead s).length < p.width) : SwEnds b (.exhausted read) (decodeEnd s) := by
  rw [decodeEnd_of_short hp hshort, hend, swEndOfData, hpos, hbefore]
  exact ⟨s, rfl⟩

theorem endOfData_swContinue {s : State} (hmore : s.swDec.res.length < s.swDec.size.toNat) :
    endOfData (swContinue s) = swEndOfData (swContinue s) := by
  rw [swContinue_of_lt hmore]
  split <;> rfl

/-- With SIZE not reached, the next flag byte or token may be missing or cut. -/
theorem SwDecodes.ends_of_short {b s : State} {bytes : List Byte} {read : Nat} {p : Position}
    (h : SwDecodes b bytes read s) (hmore : s.swDec.res.length < s.swDec.size.toNat)
    (hp : streamPosition (swContinue s) = some p) (hshort : bytes.length < p.width) :
    SwEnds b (.exhausted read) (decodeEnd (swContinue s)) := by
  have hv := h.goesOn hmore
  exact swEnds_of_short hp (endOfData_swContinue hmore) hv.srcPos hv.posBefore (hv.ahead ▸ hshort)

/-! ### One element of the stream (R182-R185) -/

/-- The running DECODE reads the element that the bytes ahead begin with. -/
theorem SwDecodes.reads_element {b s : State} {bs bytes : List Byte} {read : Nat} {p : Position} {i : Instr}
    {d : SwDecoder} (h : SwDecodes b (bs ++ bytes) read s) (hp : streamPosition s = some p)
    (hdecode : decode p (bs ++ bytes) = .ok (i, bytes))
    (heffect : elementEffect i s = swContinue (swElementRead b bs.length d s)) :
    ∃ u, decodeEnd s = decodeEnd (swContinue u) ∧ SwDecodes b bytes (read + bs.length) u ∧ u.swDec = d :=
  ⟨_, (decodeEnd_of_decode_ahead hp (h.ahead ▸ hdecode)).trans (congrArg decodeEnd heffect), h.read d, rfl⟩

theorem SwDecodes.reads_flags {b s : State} {f : Byte} {bytes : List Byte} {read : Nat}
    (h : SwDecodes b (f :: bytes) read s) (hmore : s.swDec.res.length < s.swDec.size.toNat) (hbit : 8 ≤ s.swDec.bit) :
    ∃ u, decodeEnd (swContinue s) = decodeEnd (swContinue u) ∧ SwDecodes b bytes (read + 1) u ∧
      u.swDec = { s.swDec with flags := f, bit := 0 } := by
  have hp : streamPosition (swContinue s) = some .swFlags := by rw [streamPosition_swContinue hmore, if_pos hbit]
  have hv := h.goesOn hmore
  rw [← swContinue_swDec s]
  refine hv.reads_element (bs := [f]) (i := .swFlags f) hp rfl ?_
  rw [swElementRead, ← hv.hist]
  rfl

theorem SwDecodes.reads_literal {b s : State} {v : Byte} {bytes : List Byte} {read : Nat}
    (h : SwDecodes b (v :: bytes) read s) (hmore : s.swDec.res.length < s.swDec.size.toNat) (hbit : ¬ 8 ≤ s.swDec.bit)
    (hflag : s.swDec.flags.getLsbD s.swDec.bit = true) :
    ∃ u, decodeEnd (swContinue s) = decodeEnd (swContinue u) ∧ SwDecodes b bytes (read + 1) u ∧
      u.swDec = { s.swDec with res := s.swDec.res ++ [v], bit := s.swDec.bit + 1 } := by
  have hp : streamPosition (swContinue s) = some .swLit := by
    rw [streamPosition_swContinue hmore, if_neg hbit, if_pos hflag]
  have hv := h.goesOn hmore
  rw [← swContinue_swDec s]
  refine hv.reads_element (bs := [v]) (i := .swLit v) hp rfl ?_
  rw [swElementRead, windowAfter_append, ← hv.hist]
  rfl

/-- A match emits the bytes of the reference copy, whether SIZE cuts it or not. -/
theorem SwDecodes.reads_match {b s : State} {v w : Byte} {bytes : List Byte} {read : Nat}
    (h : SwDecodes b (v :: w :: bytes) read s) (hmore : s.swDec.res.length < s.swDec.size.toNat)
    (hbit : ¬ 8 ≤ s.swDec.bit) (hflag : ¬ s.swDec.flags.getLsbD s.swDec.bit = true) :
    ∃ u, decodeEnd (swContinue s) = decodeEnd (swContinue u) ∧ SwDecodes b bytes (read + 2) u ∧
      u.swDec =
        { s.swDec with
          res := copyBytes b.params.histFill s.swDec.size.toNat (tokenLen (be16 v w)) (tokenOff (be16 v w)).toNat
            s.swDec.res
          bit := s.swDec.bit + 1 } := by
  have hp : streamPosition (swContinue s) = some .swMatch := by
    rw [streamPosition_swContinue hmore, if_neg hbit, if_neg hflag]
  have hv := h.goesOn hmore
  rw [← swContinue_swDec s]
  refine hv.reads_element (bs := [v, w]) (i := .swMatch (tokenOff (be16 v w)) (tokenLen (be16 v w))) hp rfl ?_
  rw [elementEffect, swMatchState, hv.hist, copySteps_windowAfter]
  rfl

/-! ### The whole stream (R180) -/

/-- From the stop condition on, the decode ends as the reference function says. -/
theorem decodeEnd_ends_of_swTokens {b s : State} {size : BitVec 16} {flags : Byte} {bit : Nat} {bytes : List Byte}
    {read : Nat} {out : List Byte} (h : SwDecodes b bytes read s)
    (hdec : s.swDec = { size := size, flags := flags, bit := bit, res := out }) :
    SwEnds b (swTokens b.params.histFill size.toNat flags bit bytes read out) (decodeEnd (swContinue s)) := by
  fun_induction swTokens b.params.histFill size.toNat flags bit bytes read out generalizing s
  -- SIZE is reached with the last byte of the source
  case case1 hfull => exact h.ends_of_full (by rw [hdec]) (by rwa [hdec])
  -- the source ends before SIZE is reached
  case case2 hmore =>
    have hmore : s.swDec.res.length < s.swDec.size.toNat := Nat.lt_of_not_le (by rwa [hdec])
    exact h.ends_of_short hmore (streamPosition_swContinue hmore) (width_pos _)
  -- SIZE is reached and bytes are left over
  case case3 hfull => exact h.ends_of_full (by rw [hdec]) (by rwa [hdec])
  -- a flag byte
  case case4 hmore hbit ih =>
    obtain ⟨u, hu, hreads, hudec⟩ := h.reads_flags (Nat.lt_of_not_le (by rwa [hdec])) (by rwa [hdec])
    rw [hu]
    exact ih hreads (by rw [hudec, hdec])
  -- a literal
  case case5 hmore hbit hflag ih =>
    obtain ⟨u, hu, hreads, hudec⟩ :=
      h.reads_literal (Nat.lt_of_not_le (by rwa [hdec])) (by rwa [hdec]) (by rwa [hdec])
    rw [hu]
    exact ih hreads (by rw [hudec, hdec])
  -- a match token cut after its first byte
  case case6 hmore hbit hflag =>
    have hmore : s.swDec.res.length < s.swDec.size.toNat := Nat.lt_of_not_le (by rwa [hdec])
    have hp : streamPosition (swContinue s) = some .swMatch := by
      rw [streamPosition_swContinue hmore, hdec, if_neg hbit, if_neg hflag]
    exact h.ends_of_short hmore hp Nat.one_lt_two
  -- a match
  case case7 hmore hbit hflag v bs ih =>
    obtain ⟨u, hu, hreads, hudec⟩ :=
      h.reads_match (Nat.lt_of_not_le (by rwa [hdec])) (by rwa [hdec]) (by rwa [hdec])
    rw [hu]
    exact ih hreads (by rw [hudec, hdec])

/-- A DECODE at the header ends as the reference function says (R181). -/
theorem decodeEnd_ends_of_swDecode {b : State} {bytes : List Byte} (hphase : b.phase = .swHdr)
    (hdec : b.swDec = SwDecoder.initial) (h : Unread bytes b) :
    SwEnds b (swDecode b.params.histFill bytes) (decodeEnd b) := by
  obtain _ | ⟨b0, _ | ⟨b1, bs⟩⟩ := bytes
  case nil | cons.nil =>
    exact swEnds_of_short (p := .swHdr) (by simp [streamPosition, hphase]) (by simp [endOfData, hphase]) rfl rfl
      (by simp [h.ahead, Position.width])
  case cons.cons =>
    obtain ⟨hhdr, hreads⟩ := decodeEnd_of_swHdr (size := be16 b0 b1) (bytes := bs) hphase (by rw [hdec]; rfl)
      (by rwa [bytes16_be16])
    have hdecodes : SwDecodes b bs 2 (swHdrSeeded (be16 b0 b1) b) :=
      ⟨hreads.toUnread, rfl, rfl, by rw [hreads.res]; exact hreads.hist⟩
    rw [hhdr]
    exact decodeEnd_ends_of_swTokens hdecodes (by rw [swHdrSeeded, hdec]; rfl)

/-! ### The command (R206, R213, R228) -/

/-- A Sliding-Window DECODE starts at the header, with RES empty and the source range ahead. -/
theorem decodeStream_ends_of_sw {s : State} (hengine : s.engine = 2 ∨ s.engine = 3)
    (hcap : s.srcLen ≤ s.params.srcCap) (hstart : s.srcStart ≤ s.srcLen) :
    SwEnds (beginDecode s) (swDecode s.params.histFill (srcBytes s s.srcStart (s.srcLen - s.srcStart)))
      (decodeStream s) := by
  obtain ⟨hbound, hsw⟩ := engField_of_sw hengine
  have hbegin := beginDecode_of_sw hsw
  have hfill : (beginDecode s).params.histFill = s.params.histFill := by rw [(beginDecode_keepsInputs s).params]
  rw [decodeStream_eq_decodeEnd hbound hcap hstart, ← hfill]
  exact decodeEnd_ends_of_swDecode (by rw [hbegin]) (by rw [hbegin]) (unread_beginDecode hstart)

/-- Settles O46: the decode ends with what the reference function says, and either end of a command tells the host so; a
failed read ends it before its result meets OUT_CAP. -/
theorem swDecodeDeliversTheBytes : Obligations.SwDecodeDeliversTheBytes := by
  intro s hengine hcap hstart
  have hends := decodeStream_ends_of_sw hengine hcap hstart
  have hkeeps := decodeStream_keepsInputs s
  have hpos := beginDecode_srcPos s
  have hbefore : (beginDecode s).posBefore = s.srcPos := by rw [beginDecode_of_sw (engField_of_sw hengine).2]
  refine ⟨decodeStream s, rfl, hkeeps.toCommandFrame, hkeeps.engine, ?_⟩
  generalize swDecode s.params.histFill (srcBytes s s.srcStart (s.srcLen - s.srcStart)) = r at hends ⊢
  cases r with
  | done out read =>
    obtain ⟨u, hsrcPos, hu⟩ := hends
    have hparams : u.params = s.params := by rw [← hkeeps.params, hu, finishCommand_params]
    rw [hpos] at hsrcPos
    rw [hbefore] at hu
    rw [hu]
    refine ⟨fun hfits => ?_, fun hover => finishCommand_failed s.srcPos (hparams ▸ hover)⟩
    obtain ⟨hdone, hsrc⟩ := finishCommand_done (s := u) s.srcPos (hparams ▸ hfits)
    exact ⟨hdone, hsrc.trans hsrcPos⟩
  | exhausted read =>
    obtain ⟨u, hu⟩ := hends
    rw [hu, hpos]
    exact ⟨failCommand_failed .sourceExhausted _ _ u, rfl⟩

end Sys2Proof.Proofs
end

section
/-! SW_A and SW_B name one engine: ENGINE is read only where ENCODE and DECODE choose the engine, and SELECT overwrites
it, so rebinding ENGINE from one identifier to the other passes through every instruction (R204, R206). -/

namespace Sys2Proof.Proofs

open Sys2Proof.Machine Sys2Proof.Reference

/-- The state with another ENGINE word, and everything else as it is. -/
def withEngine (e : Byte) (s : State) : State := { s with engine := e }

/-! ### The ends of a command and the ways a stream element goes on -/

theorem finishCommand_withEngine (res : List Byte) (before : Nat) (e : Byte) (s : State) :
    finishCommand res before (withEngine e s) = withEngine e (finishCommand res before s) := by
  unfold finishCommand
  rw [apply_ite (withEngine e)]
  rfl

theorem toLiteral_withEngine (i : Nat) (e : Byte) (s : State) :
    toLiteral i (withEngine e s) = withEngine e (toLiteral i s) := by
  unfold toLiteral
  rw [apply_ite (withEngine e)]
  rfl

theorem afterEntry_withEngine (e : Byte) (s : State) : afterEntry (withEngine e s) = withEngine e (afterEntry s) := by
  unfold afterEntry
  rw [apply_ite (withEngine e), apply_ite (withEngine e), ← toLiteral_withEngine]
  rfl

theorem swContinue_withEngine (e : Byte) (s : State) : swContinue (withEngine e s) = withEngine e (swContinue s) := by
  unfold swContinue
  rw [apply_ite (withEngine e), apply_ite (withEngine e), ← finishCommand_withEngine]
  rfl

/-! ### The rounds of a running DECODE (R120, R180) -/

theorem elementEffect_withEngine (i : Instr) (e : Byte) (s : State) :
    elementEffect i (withEngine e s) = withEngine e (elementEffect i s) := by
  cases i
  case rmChain | rmEntry =>
    simp only [elementEffect, rmChainState, rmEntryState, ← afterEntry_withEngine]
    rfl
  case rmLit =>
    simp only [elementEffect, rmLitState, ← toLiteral_withEngine]
    rfl
  case rmTerm =>
    simp only [elementEffect, rmTermState, ← finishCommand_withEngine]
    rfl
  case swHdr | swFlags | swLit | swMatch =>
    simp only [elementEffect, swHdrState, swFlagsState, swLitState, swMatchState, ← swContinue_withEngine]
    rfl
  all_goals rfl

theorem rmEndOfData_withEngine (e : Byte) (s : State) :
    rmEndOfData (withEngine e s) = withEngine e (rmEndOfData s) := by
  unfold rmEndOfData
  rw [← finishCommand_withEngine, apply_ite (withEngine e)]
  rfl

theorem endOfData_withEngine (e : Byte) (s : State) : endOfData (withEngine e s) = withEngine e (endOfData s) := by
  have hphase : (withEngine e s).phase = s.phase := rfl
  unfold endOfData
  rw [hphase]
  split
  · rfl
  iterate 3 exact rmEndOfData_withEngine e s
  all_goals rfl

theorem elementAt_withEngine (p : Position) (e : Byte) (s : State) : elementAt p (withEngine e s) = elementAt p s :=
  elementAt_sameSource (s := s) (s' := withEngine e s) ⟨rfl, rfl, rfl, fun _ _ => rfl⟩ p

theorem elementStep_withEngine (e : Byte) (s : State) :
    elementStep (withEngine e s) = withEngine e (elementStep s) := by
  by_cases hidle : s.phase = .idle
  · rw [elementStep_of_idle hidle, elementStep_of_idle (s := withEngine e s) hidle]
  · obtain ⟨p, hp, ⟨i, hi, heq⟩ | ⟨hi, heq⟩⟩ := elementStep_cases hidle <;> rw [heq]
    all_goals
      have hp' : streamPosition (withEngine e s) = some p := hp
      have hi' := (elementAt_withEngine p e s).trans hi
    · rw [elementStep_of_element hp' hi', elementEffect_withEngine]
    · rw [elementStep_of_end hp' hi', endOfData_withEngine]

theorem runElements_withEngine (n : Nat) (e : Byte) (s : State) :
    runElements n (withEngine e s) = withEngine e (runElements n s) := by
  induction n generalizing s with
  | zero => rfl
  | succ n ih =>
    by_cases hidle : s.phase = .idle
    · rw [runElements_of_idle _ hidle, runElements_of_idle (s := withEngine e s) _ hidle]
    · rw [runElements_succ n hidle, runElements_succ (s := withEngine e s) n hidle, elementStep_withEngine, ih]

/-! ### The commands (R200, R206, R212, R213) -/

theorem selectCommand_withEngine (e : Byte) (s : State) : selectCommand (withEngine e s) = selectCommand s := by
  have hname : identifier (withEngine e s) = identifier s := by
    simp only [identifier, nameBytes_eq_map]
    rfl
  unfold selectCommand
  rw [hname]
  rfl

theorem encodeSw_withEngine (e : Byte) (s : State) : encodeSw (withEngine e s) = withEngine e (encodeSw s) := by
  have hraw : rawBlock (withEngine e s) = rawBlock s := srcBytes_congr fun _ _ => rfl
  unfold encodeSw
  dsimp only
  rw [hraw, apply_ite (withEngine e), ← finishCommand_withEngine]
  rfl

section

variable {s : State} {e : Byte} (hs : s.engine = 2 ∨ s.engine = 3) (he : e = 2 ∨ e = 3)

include hs he

theorem encodeCommand_withEngine : encodeCommand (withEngine e s) = withEngine e (encodeCommand s) := by
  obtain ⟨hbound, hsw⟩ := engField_of_sw hs
  obtain ⟨hbound', hsw'⟩ := engField_of_sw (s := withEngine e s) he
  rw [encodeCommand, encodeCommand, if_neg hbound, if_neg hbound', if_neg hsw, if_neg hsw', encodeSw_withEngine,
    apply_ite (withEngine e)]
  rfl

theorem beginDecode_withEngine : beginDecode (withEngine e s) = withEngine e (beginDecode s) := by
  rw [beginDecode_of_sw (engField_of_sw hs).2, beginDecode_of_sw (s := withEngine e s) (engField_of_sw he).2]
  rfl

theorem decodeStream_withEngine : decodeStream (withEngine e s) = withEngine e (decodeStream s) := by
  obtain ⟨hbound, -⟩ := engField_of_sw hs
  obtain ⟨hbound', -⟩ := engField_of_sw (s := withEngine e s) he
  rw [decodeStream, decodeStream, if_neg hbound, if_neg hbound', beginDecode_withEngine hs he, runElements_withEngine,
    apply_ite (withEngine e)]
  rfl

/-- Every instruction but SELECT does the same under the other identifier, and leaves that one bound. -/
theorem exec_withEngine {i : Instr} {t : State} (hselect : i ≠ .cmdSelect) (h : exec i s = .next t) :
    exec i (withEngine e s) = .next (withEngine e t) := by
  cases i
  case cmdSelect => exact absurd rfl hselect
  case cmdEncode => cases h; exact congrArg _ (encodeCommand_withEngine hs he)
  case cmdDecode => cases h; exact congrArg _ (decodeStream_withEngine hs he)
  case cmdNop | histSeed | histPush | histRead => cases h; rfl
  all_goals
    rw [exec_eq_elementEffect _ (by simp [Instr.position])] at h ⊢
    cases h
    rw [elementEffect_withEngine]

end

/-- Settles O21: SELECT ends in the same state, whatever was bound; every other instruction in the same state but for
ENGINE. -/
theorem swIdentifiersBehaveAlike : Obligations.SwIdentifiersBehaveAlike := by
  intro i s t h
  by_cases hselect : i = .cmdSelect
  · subst hselect
    have hsame : selectCommand (withEngine 3 s) = selectCommand (withEngine 2 s) := by
      rw [selectCommand_withEngine, selectCommand_withEngine]
    cases h
    exact ⟨_, congrArg Host.Outcome.next hsame, fun _ => rfl, rfl, rfl, rfl, rfl, rfl⟩
  · have hu := exec_withEngine (s := withEngine 2 s) (e := 3) (.inl rfl) (.inr rfl) hselect h
    exact ⟨withEngine 3 t, hu, fun _ => rfl, rfl, rfl, rfl, rfl, rfl⟩

end Sys2Proof.Proofs
end

section
/-! Commands run to completion in one step, NOP changes nothing, and the two names that SELECT never finds (R200, R207,
R210, R211). -/

namespace Sys2Proof.Proofs

open Sys2Proof.Machine Sys2Proof.Reference

/-! ### Every command runs to completion (R210) -/

theorem hostAccess_phase {a : HostAccess} {s t : State} (h : hostAccess a s = .next t) : t.phase = s.phase := by
  cases a <;> simp only [hostAccess] at h
  case writeReg n v =>
    split at h
    next r _ => cases h; exact writeReg_phase s v r
    next => cases h
  all_goals
    split at h
    · cases h; rfl
    · cases h

theorem exec_histPort_phase {i : Instr} {s t : State} (hi : i.position = .histPort) (h : exec i s = .next t) :
    t.phase = s.phase := by
  cases i
  case histSeed | histPush | histRead => cases h; rfl
  all_goals cases hi

theorem selectCommand_idle {s : State} (hidle : s.phase = .idle) : (selectCommand s).phase = .idle := by
  unfold selectCommand
  split
  · rfl
  · exact hidle

theorem encodeCommand_idle (s : State) : (encodeCommand s).phase = .idle := by
  unfold encodeCommand
  split_ifs
  · rfl
  · rfl
  · exact finishCommand_phase _ _ _
  · unfold encodeSw
    dsimp only
    split
    · rfl
    · exact finishCommand_phase _ _ _

/-- The bound on DECODE's rounds is one more than the bytes left, and each round but the last reads one of them. -/
theorem decodeStream_idle (s : State) : (decodeStream s).phase = .idle := by
  unfold decodeStream
  split_ifs
  · rfl
  · rfl
  · exact runElements_idle _ (Nat.lt_succ_self _)

theorem exec_command_idle {i : Instr} {s t : State} (hi : i.position = .command) (hidle : s.phase = .idle)
    (h : exec i s = .next t) : t.phase = .idle := by
  cases i <;> cases hi <;> cases h
  case cmdNop => exact hidle
  case cmdSelect => exact selectCommand_idle hidle
  case cmdEncode => exact encodeCommand_idle s
  case cmdDecode => exact decodeStream_idle s

/-- Settles O16, along what a step can do. -/
theorem everyCommandRunsToCompletion : Obligations.EveryCommandRunsToCompletion := by
  intro s t hidle hstep
  rcases step_cases hstep with ⟨i, hi, ht⟩ | ⟨hrun, -⟩ | ⟨-, rfl | ⟨more, ⟨a, ht⟩ | ⟨i, hi, ht⟩ | rfl⟩⟩
  · exact (exec_histPort_phase hi ht).trans hidle
  · exact absurd hidle hrun
  · exact hidle
  · exact (hostAccess_phase ht).trans hidle
  · exact exec_command_idle (s := { s with bus := more }) hi hidle ht
  · rfl

/-! ### NOP (R211) -/

/-- Settles O36. -/
theorem nopChangesNothing : Obligations.NopChangesNothing := fun _ => rfl

/-! ### The names that no registry entry has (R200, R201, R207) -/

theorem registryLookup_eq_none {p : Config.Params} {name : List Byte} (hrm : name ≠ p.nameRm.bytes)
    (hswA : name ≠ p.nameSwA.bytes) (hswB : name ≠ p.nameSwB.bytes) : registryLookup p name = none := by
  rw [registryLookup, if_neg hrm, if_neg hswA, if_neg hswB]

theorem names_ne_unknownName_of_legal {p : Config.Params} (h : p.legal = true) :
    p.nameRm.bytes ≠ Config.unknownName ∧ p.nameSwA.bytes ≠ Config.unknownName ∧
      p.nameSwB.bytes ≠ Config.unknownName := by
  simp only [Config.Params.legal, Config.Name.legal, Bool.and_eq_true, decide_eq_true_eq] at h
  tauto

theorem registryLookup_unknownName {p : Config.Params} (h : p.legal = true) :
    registryLookup p Config.unknownName = none := by
  obtain ⟨hrm, hswA, hswB⟩ := names_ne_unknownName_of_legal h
  exact registryLookup_eq_none hrm.symm hswA.symm hswB.symm

/-- An identifier has a first byte by construction (R201). -/
theorem registryLookup_nil (p : Config.Params) : registryLookup p [] = none :=
  registryLookup_eq_none (List.cons_ne_nil _ _).symm (List.cons_ne_nil _ _).symm (List.cons_ne_nil _ _).symm

theorem exec_cmdSelect_of_lookup_none {s : State} (h : registryLookup s.params (identifier s) = none) :
    exec .cmdSelect s = .next (failCommand .unknownAlgorithm 0 s.srcPos { s with engine := engineWord 0 }) := by
  simp [exec, execCmdSelect, selectCommand, h]

/-- Settles O39: no entry has either name, and the failure leaves the error record and no engine. -/
theorem unknownAndEmptyNamesSelectNothing : Obligations.UnknownAndEmptyNamesSelectNothing := by
  intro s hlegal hname
  have hlookup : registryLookup s.params (identifier s) = none := by
    rcases hname with ⟨hlen, hbytes⟩ | hlen
    · have hid : identifier s = Config.unknownName := by
        rw [identifier, hlen]
        exact hbytes
      rw [hid, registryLookup_unknownName hlegal]
    · have hid : identifier s = [] := by
        rw [identifier, hlen]
        rfl
      rw [hid, registryLookup_nil]
  refine ⟨_, exec_cmdSelect_of_lookup_none hlookup, ?status, ?engine, rfl, rfl⟩
  case status => exact (by decide : statusError .unknownAlgorithm = 0x12#8)
  case engine => exact (by decide : engineWord 0 = 0x00#8)

end Sys2Proof.Proofs
end

section
/-! The refused CMD write, the checks a command makes before it starts, and the end of the data in a Sliding-Window decode:
each takes the error entry, and what that leaves is said once (R203, R221-R226, R229, R230, R239). -/

namespace Sys2Proof.Proofs

open Sys2Proof.Machine Sys2Proof.Reference

/-! ### Between commands (R210, R225, R239, R251) -/

/-- Settles O9. -/
theorem coreWaitsForTheHost : Obligations.CoreWaitsForTheHost := fun _ hport hidle hbus => step_of_wait hport hidle hbus

/-- Only the values 0 to 3 issue a command (R90). -/
theorem decodeCommand_of_reserved {v : Byte} (h : v.extractLsb' 4 4 ≠ 0 ∨ 4 ≤ (v.extractLsb' 0 4).toNat) :
    decodeCommand v = .error .reservedCommand := by
  have hne (c : Byte) (hhigh : c.extractLsb' 4 4 = 0) (hlow : (c.extractLsb' 0 4).toNat < 4) : v ≠ c := by
    rintro rfl
    exact h.elim (absurd hhigh) (Nat.not_le_of_lt hlow)
  rw [decodeCommand, if_neg (hne 0#8 (by decide) (by decide)), if_neg (hne 1#8 (by decide) (by decide)),
    if_neg (hne 2#8 (by decide) (by decide)), if_neg (hne 3#8 (by decide) (by decide))]

/-- Settles O8: the decoder rejects the value, and the error entry restores SRC_POS, which the CMD write has not moved. -/
theorem reservedCommandIsIllegal : Obligations.ReservedCommandIsIllegal := by
  intro s v more hport hidle hbus hv
  have hreject : decode .command [BitVec.ofNat 8 v] = .error .reservedCommand := by
    rw [decode, decodeCommand_of_reserved hv]
    rfl
  refine ⟨illegalCommand { s with bus := more },
    step_of_illegal hport hidle hbus (commandByte_writeReg_cmd v rfl) hreject,
    failCommand_failed .illegalCommand 0 _ _, (by decide : statusError .illegalCommand = 0x52), ?frame⟩
  case frame => simp [illegalCommand, failCommand, hidle]

/-! ### The checks of SELECT, ENCODE and DECODE (R203, R221, R223, R224, R226, R229) -/

/-- A command refused before it reads anything leaves the error's record, and SRC_POS, ENGINE and the History Window as
they were. -/
theorem exists_exec_of_refused {i : Instr} {s : State} {e : ErrorCode} {status : Byte} (he : e ≠ .sourceExhausted)
    (hstatus : statusError e = status) (h : exec i s = .next (failCommand e 0 s.srcPos s)) :
    ∃ t, exec i s = .next t ∧ Failed e.code 0 t ∧ t.status = status ∧ t.srcPos = s.srcPos ∧ t.engine = s.engine ∧
      CommandFrame s t ∧ t.hist = s.hist :=
  ⟨_, h, failCommand_failed e 0 _ s, hstatus, if_neg he, rfl, (failCommand_keepsInputs e 0 _ s).toCommandFrame, rfl⟩

theorem exec_of_no_engine {i : Instr} {s : State} (hi : i = .cmdEncode ∨ i = .cmdDecode)
    (hengine : engField s.engine = 0) : exec i s = .next (failCommand .noCodec 0 s.srcPos s) := by
  rcases hi with rfl | rfl <;> exact congrArg _ (if_pos hengine)

theorem exec_of_badRange {i : Instr} {s : State} (hi : i = .cmdEncode ∨ i = .cmdDecode)
    (hengine : engField s.engine ≠ 0) (hrange : badRange s = true) :
    exec i s = .next (failCommand .badRange 0 s.srcPos s) := by
  rcases hi with rfl | rfl <;> exact congrArg _ ((if_neg hengine).trans (if_pos hrange))

/-- Settles O40: the engine is checked before the range. -/
theorem noCodecIsCheckedFirst : Obligations.NoCodecIsCheckedFirst := by
  intro i s hi hengine
  have hexec := exec_of_no_engine hi (s := s) (by rw [hengine]; decide)
  obtain ⟨t, ht, hfailed, hstatus, hpos, hkept, hframe, hhist⟩ :=
    exists_exec_of_refused (status := 0x42) (by decide) (by decide) hexec
  exact ⟨t, ht, hfailed, hstatus, hpos, hkept.trans hengine, hframe, hhist⟩

/-- Settles O41: both conditions of a bad range are checked before the engine is chosen. -/
theorem badRangeIsCheckedBeforeTheEngine : Obligations.BadRangeIsCheckedBeforeTheEngine := by
  intro i s hi hengine hrange
  have hbound : engField s.engine ≠ 0 := by rcases hengine with h | h | h <;> rw [h] <;> decide
  have hbad : badRange s = true := by simpa [badRange] using hrange
  exact exists_exec_of_refused (by decide) (by decide) (exec_of_badRange hi hbound hbad)

/-- Settles O42. -/
theorem longInputIsRefusedBySwEncode : Obligations.LongInputIsRefusedBySwEncode := by
  intro s hengine hcap hlong
  have hend : encodeCommand s = failCommand .inputTooLong 0 s.srcPos s :=
    (encodeCommand_of_sw hengine hcap (by omega)).trans (encodeSw_of_long hlong)
  have hexec : exec .cmdEncode s = .next (failCommand .inputTooLong 0 s.srcPos s) := congrArg _ hend
  exact exists_exec_of_refused (by decide) (by decide) hexec

/-- Settles O38: the lookup finds no entry, and the engine is unbound before the error is taken. -/
theorem selectOfAnUnknownNameFails : Obligations.SelectOfAnUnknownNameFails := by
  intro s hrm hswA hswB
  have hexec := exec_cmdSelect_of_lookup_none (registryLookup_eq_none (name := identifier s) hrm hswA hswB)
  have hframe := exec_commandFrame (by simp) hexec
  exact ⟨_, hexec, failCommand_failed .unknownAlgorithm 0 _ _, (by decide : engineWord 0 = 0x00), rfl, hframe, rfl⟩

/-! ### The end of the data in a Sliding-Window decode (R188, R222) -/

theorem step_of_sw_end {s : State} {p : Position} (hport : s.port = none) (hp : streamPosition s = some p)
    (hsw : p = .swHdr ∨ p = .swFlags ∨ p = .swLit ∨ p = .swMatch) (hend : s.srcLen < s.srcPos + p.width) :
    step s = .next (swEndOfData s) := by
  have hshort := Nat.lt_of_not_le (mt (srcPos_add_width_le_iff p s).mpr (Nat.not_le_of_lt hend))
  have hphase := phase_of_streamPosition hp
  rw [step_of_end hport hp (elementAt_of_short hshort)]
  rcases hsw with rfl | rfl | rfl | rfl <;> rw [endOfData, hphase] <;> rfl

/-- Settles O12: at each of the four positions the failed read takes the error, at SRC_POS. -/
theorem swEndOfDataIsSourceExhausted : Obligations.SwEndOfDataIsSourceExhausted := by
  intro s p hport hp hsw hend
  have hkeeps := failCommand_keepsInputs .sourceExhausted s.srcPos s.posBefore s
  exact ⟨swEndOfData s, step_of_sw_end hport hp hsw hend, failCommand_failed .sourceExhausted s.srcPos _ s,
    (by decide : statusError .sourceExhausted = 0x22), rfl, hkeeps.toCommandFrame, hkeeps.engine⟩

end Sys2Proof.Proofs
end

section
/-! A command that fails has delivered nothing: each end of SELECT, ENCODE and DECODE is a success or the error entry with
the SRC_POS of before the command (R230). -/

namespace Sys2Proof.Proofs

open Sys2Proof.Machine Sys2Proof.Reference

/-! ### The record of a failure (R230) -/

/-- If a command issued with SRC_POS = `before` has failed in `t`, OUT is empty, and SRC_POS is where the source ran out or
as before the command. -/
def RecordsFailure (before : Nat) (t : State) : Prop :=
  stateField t.status = 2 →
    t.outLen = 0 ∧ (errField t.status = 2 → t.srcPos = t.errPos) ∧
      (errField t.status ≠ 2 → t.errPos = 0 ∧ t.srcPos = before)

theorem recordsFailure_of_done {before : Nat} {t : State} (h : t.status = statusDone) : RecordsFailure before t := by
  intro herror
  rw [h] at herror
  exact absurd herror (by decide)

theorem errField_statusError_eq_two_iff (e : ErrorCode) : errField (statusError e) = 2 ↔ e = .sourceExhausted := by
  cases e <;> decide

theorem recordsFailure_of_exhausted (pos before : Nat) (s : State) :
    RecordsFailure before (failCommand .sourceExhausted pos before s) := by
  have herr := (errField_statusError_eq_two_iff .sourceExhausted).mpr rfl
  exact fun _ => ⟨rfl, fun _ => rfl, fun hne => absurd herr hne⟩

theorem recordsFailure_of_refused {e : ErrorCode} (he : e ≠ .sourceExhausted) (before : Nat) (s : State) :
    RecordsFailure before (failCommand e 0 before s) := by
  have herr := mt (errField_statusError_eq_two_iff e).mp he
  exact fun _ => ⟨rfl, fun htwo => absurd htwo herr, fun _ => ⟨rfl, if_neg he⟩⟩

theorem recordsFailure_finishCommand (res : List Byte) (before : Nat) (s : State) :
    RecordsFailure before (finishCommand res before s) := by
  rcases Nat.lt_or_ge s.params.outCap res.length with hover | hfits
  · rw [finishCommand_of_lt before hover]
    exact recordsFailure_of_refused (by decide) before s
  · rw [finishCommand_of_le before hfits]
    exact recordsFailure_of_done rfl

/-! ### The commands (R200, R212, R213) -/

theorem selectCommand_recordsFailure (s : State) : RecordsFailure s.srcPos (selectCommand s) := by
  unfold selectCommand
  split
  · exact recordsFailure_of_refused (by decide) _ _
  · exact recordsFailure_of_done rfl

/-- A SELECT that failed has unbound the engine (R203). -/
theorem selectCommand_engine_of_failed {s : State} (h : stateField (selectCommand s).status = 2) :
    (selectCommand s).engine = 0 := by
  cases hlookup : registryLookup s.params (identifier s) with
  | none =>
    rw [selectCommand, hlookup]
    exact (by decide : engineWord 0 = 0)
  | some eng =>
    rw [selectCommand, hlookup] at h
    exact absurd h (by decide : stateField statusDone ≠ 2)

theorem encodeSw_recordsFailure (s : State) : RecordsFailure s.srcPos (encodeSw s) := by
  rcases Nat.lt_or_ge 65535 (s.srcLen - s.srcStart) with hlong | hlen
  · rw [encodeSw_of_long hlong]
    exact recordsFailure_of_refused (by decide) _ _
  · rw [encodeSw_eq_finishCommand hlen]
    exact recordsFailure_finishCommand _ _ _

theorem encodeCommand_recordsFailure (s : State) : RecordsFailure s.srcPos (encodeCommand s) := by
  unfold encodeCommand
  split_ifs
  · exact recordsFailure_of_refused (by decide) _ _
  · exact recordsFailure_of_refused (by decide) _ _
  · exact recordsFailure_finishCommand _ _ _
  · exact encodeSw_recordsFailure s

theorem SwEnds.recordsFailure {b t : State} {r : SwResult} (h : SwEnds b r t) : RecordsFailure b.posBefore t := by
  cases r with
  | done out read =>
    obtain ⟨u, -, rfl⟩ := h
    exact recordsFailure_finishCommand _ _ u
  | exhausted read =>
    obtain ⟨u, rfl⟩ := h
    exact recordsFailure_of_exhausted _ _ u

theorem beginDecode_posBefore (s : State) : (beginDecode s).posBefore = s.srcPos := by
  unfold beginDecode
  split <;> rfl

/-- Whatever the stream holds, the DECODE ends by one of the two ends of its engine. -/
theorem decodeStream_recordsFailure_of_range {s : State} (hengine : engField s.engine ≠ 0)
    (hcap : s.srcLen ≤ s.params.srcCap) (hstart : s.srcStart ≤ s.srcLen) :
    RecordsFailure s.srcPos (decodeStream s) := by
  by_cases hrm : engField s.engine = 1
  · obtain ⟨u, -, -, -, hend⟩ := decodeStream_of_rm hrm hcap hstart rfl
    rw [hend]
    exact recordsFailure_finishCommand _ _ u
  · have hbegin := beginDecode_of_sw hrm
    have hends := decodeEnd_ends_of_swDecode (by rw [hbegin]) (by rw [hbegin]) (unread_beginDecode hstart)
    rw [decodeStream_eq_decodeEnd hengine hcap hstart, ← beginDecode_posBefore s]
    exact hends.recordsFailure

theorem decodeStream_recordsFailure (s : State) : RecordsFailure s.srcPos (decodeStream s) := by
  by_cases hengine : engField s.engine = 0
  · rw [decodeStream, if_pos hengine]
    exact recordsFailure_of_refused (by decide) _ _
  cases hrange : badRange s with
  | true =>
    rw [decodeStream, if_neg hengine, if_pos hrange]
    exact recordsFailure_of_refused (by decide) _ _
  | false =>
    obtain ⟨hcap, hstart⟩ := (badRange_eq_false_iff s).mp hrange
    exact decodeStream_recordsFailure_of_range hengine hcap hstart

theorem exec_recordsFailure {i : Instr} {s t : State} (hi : i = .cmdSelect ∨ i = .cmdEncode ∨ i = .cmdDecode)
    (h : exec i s = .next t) : RecordsFailure s.srcPos t := by
  rcases hi with rfl | rfl | rfl <;> cases h
  · exact selectCommand_recordsFailure s
  · exact encodeCommand_recordsFailure s
  · exact decodeStream_recordsFailure s

/-- Settles O20: the record of the failure, and the frame that every command keeps, with ENGINE but for SELECT. -/
theorem failureDeliversNothing : Obligations.FailureDeliversNothing := by
  intro i s t hi h herror
  have hread (a : WinPos) : i ≠ .histRead a := by rcases hi with rfl | rfl | rfl <;> simp
  obtain ⟨hout, hexhausted, hother⟩ := exec_recordsFailure hi h herror
  refine ⟨hout, hexhausted, hother, ?select, fun hselect => (exec_keepsInputs hselect hread h).engine,
    exec_commandFrame hread h⟩
  case select =>
    rintro rfl
    obtain rfl : selectCommand s = t := Host.Outcome.next.inj h
    exact selectCommand_engine_of_failed herror

end Sys2Proof.Proofs
end
